-- ==== Sys2Proof/Word.lean ====
section
/-! DEFINITION. The words of the HCB: 32-bit registers and command words (00_scope.md R6, REG_W), 8-bit symbols and
stream bytes (SYM_W), and bit strings (R8: a finite sequence of bits, the first bit first). -/

namespace Sys2Proof

/-- A control register, a command word, a FREQ weight: 32 bits (00_scope.md R6, REG_W and WEIGHT_W). -/
abbrev Word := BitVec 32

/-- A symbol (SYM_W = 8) or one byte of the ES store as the host sees it (00_scope.md R6, 20_memory.md R62). -/
abbrev Byte := BitVec 8

/-- A bit string, first bit first: `"0110"` is `[false, true, true, false]` (00_scope.md R8). -/
abbrev Bits := List Bool

end Sys2Proof
end

