-- ==== Sys2Proof/Config.lean ====
section
/-! DEFINITION. The open parameters of 00_scope.md R7 (`Config`) and the fixed parameters of R6. The spec leaves no value
free (93_implementation_defined.md Part 1), so there is no free value here. BUS_BINDING is no field: no rule depends on it. -/

namespace Sys2Proof

/-- The open parameters MSG_MAX and ES_MAX (00_scope.md R7), as the 32-bit words that the read-only registers MSGMAX and
ESMAX return (10_state.md R35). Both are at most 2^32 - 1, so a word holds every value R7 allows. -/
structure Config where
  /-- MSG_MAX: the capacity of the MSG store in symbols. -/
  msgMax : Word
  /-- ES_MAX: the capacity of the ES store in bits. -/
  esMax : Word
  deriving DecidableEq, Repr

/-- The values that every example of 95_test_vectors.md uses unless it says otherwise (00_scope.md R7).
DESIGN CHOICE (log entry 1): `State.reset` is the reset state of a block with these parameters. -/
def Config.examples : Config := { msgMax := 4096#32, esMax := 65536#32 }

/-- CODE_MAX, the longest code the header can carry (00_scope.md R6). -/
abbrev codeMax : Nat := 15

/-- NSYM, the number of symbol values (00_scope.md R6). -/
abbrev nSym : Nat := 256

/-- DT_SIZE, the number of entries of the decode table (00_scope.md R6). -/
abbrev dtSize : Nat := 65536

/-- REALIGN_W, the chunk width of realigned mode (00_scope.md R6). -/
abbrev realignW : Nat := 7

/-- PAD_UNIT, the padding granularity in bits (00_scope.md R6). -/
abbrev padUnit : Nat := 8

end Sys2Proof
end

