-- ==== Sys2Proof/Syntax.lean ====
section
/-! DEFINITION. The commands of the HCB: one constructor per row of the opcode map (30_encoding.md R92). No command has an
operand: every operand is implicit (30_encoding.md R90, 10_state.md R22). -/

namespace Sys2Proof

/-- The thirteen commands (30_encoding.md R92). -/
inductive Instr where
  /-- 0x00 NOP (45_macro_system.md R264). -/
  | nop
  /-- 0x01 SRESET (45_macro_system.md R265). -/
  | sreset
  /-- 0x02 CLRERR (45_macro_system.md R266). -/
  | clrerr
  /-- 0x03 REALIGN (40_frequency_model.md R131). -/
  | realign
  /-- 0x04 COUNT (40_frequency_model.md R135). -/
  | count
  /-- 0x05 BUILD (41_tree_builder.md R150). -/
  | build
  /-- 0x06 SERHDR (43_header_codec.md R200). -/
  | serhdr
  /-- 0x07 PACK (44_bitpacker_decoder.md R230). -/
  | pack
  /-- 0x08 PADB (44_bitpacker_decoder.md R236). -/
  | padb
  /-- 0x09 ENCODE (45_macro_system.md R260). -/
  | encode
  /-- 0x0A DESHDR (43_header_codec.md R210). -/
  | deshdr
  /-- 0x0B SCAN (44_bitpacker_decoder.md R240). -/
  | scan
  /-- 0x0C DECODE (45_macro_system.md R262). -/
  | decode
  deriving DecidableEq, Repr

end Sys2Proof
end

