-- ==== Sys2Proof/WellFormed.lean ====
section
/-! DEFINITION. What is well formed: a command word (30_encoding.md R90, R91), an instruction, and the open parameters
(00_scope.md R7). -/

namespace Sys2Proof

/-- `w[31:8]` is 0, the field ZERO of format C (30_encoding.md R90). -/
def zeroFieldClear (w : Word) : Bool := w.extractLsb' 8 24 == 0#24

/-- `w[7:0]` is an opcode of the map, 0x00 to 0x0C (30_encoding.md R92). -/
def opcodeAssigned (w : Word) : Bool := (w.extractLsb' 0 8).toNat < 13

/-- A command word that is not illegal (30_encoding.md R91, R94). -/
def commandWordWellFormed (w : Word) : Bool := zeroFieldClear w && opcodeAssigned w

/-- The opcode of a command (30_encoding.md R92, column OPC). -/
def Instr.opcode : Instr → Nat
  | .nop => 0x00
  | .sreset => 0x01
  | .clrerr => 0x02
  | .realign => 0x03
  | .count => 0x04
  | .build => 0x05
  | .serhdr => 0x06
  | .pack => 0x07
  | .padb => 0x08
  | .encode => 0x09
  | .deshdr => 0x0A
  | .scan => 0x0B
  | .decode => 0x0C

/-- An instruction is well formed when its opcode is one of the map. No command has an operand field that could be out of
range (30_encoding.md R90), so every instruction is; `Laws/PerInstr.lean` says so constructor by constructor. -/
def Instr.wellFormed (i : Instr) : Bool := i.opcode < 13

/-- The constraints of 00_scope.md R7 on MSG_MAX and ES_MAX: `1 <= MSG_MAX`, `16 <= ES_MAX <= 2^32 - 8`, `ES_MAX mod 8 = 0`
(`MSG_MAX <= 2^32 - 1` holds of every word). -/
abbrev Config.wf (c : Config) : Prop :=
  1 ≤ c.msgMax.toNat ∧ 16 ≤ c.esMax.toNat ∧ c.esMax.toNat ≤ 2 ^ 32 - 8 ∧ c.esMax.toNat % 8 = 0

end Sys2Proof
end

