-- ==== Sys2Proof/Decode.lean ====
section
/-! DEFINITION. The decoder of command words, total on every word (30_encoding.md R91), and after it the encoder, from the
opcode map R92. A command word is one 32-bit number: it has no byte order of its own (20_memory.md R63). -/

namespace Sys2Proof

/-- Why a word is no command (30_encoding.md R94); both reasons raise IllegalCommand. -/
inductive IllegalWord where
  /-- `w[31:8]` is not 0. -/
  | zeroFieldNotClear
  /-- `w[31:8]` is 0 and the opcode is one of the reserved 0x0D to 0xFF. -/
  | opcodeReserved
  deriving DecidableEq, Repr

/-- One row of the opcode map: a decoder needs `match` = OPC and `mask` = 0xFFFFFFFF for every row (30_encoding.md R91). -/
structure OpcodeRow where
  instr : Instr
  matchWord : Word
  mask : Word
  deriving DecidableEq, Repr

/-- The opcode map of 30_encoding.md R92. -/
def opcodeMap : List OpcodeRow :=
  [⟨.nop, 0x00000000#32, 0xFFFFFFFF#32⟩, ⟨.sreset, 0x00000001#32, 0xFFFFFFFF#32⟩,
   ⟨.clrerr, 0x00000002#32, 0xFFFFFFFF#32⟩, ⟨.realign, 0x00000003#32, 0xFFFFFFFF#32⟩,
   ⟨.count, 0x00000004#32, 0xFFFFFFFF#32⟩, ⟨.build, 0x00000005#32, 0xFFFFFFFF#32⟩,
   ⟨.serhdr, 0x00000006#32, 0xFFFFFFFF#32⟩, ⟨.pack, 0x00000007#32, 0xFFFFFFFF#32⟩,
   ⟨.padb, 0x00000008#32, 0xFFFFFFFF#32⟩, ⟨.encode, 0x00000009#32, 0xFFFFFFFF#32⟩,
   ⟨.deshdr, 0x0000000A#32, 0xFFFFFFFF#32⟩, ⟨.scan, 0x0000000B#32, 0xFFFFFFFF#32⟩,
   ⟨.decode, 0x0000000C#32, 0xFFFFFFFF#32⟩]

/-- Does the word select this row? -/
def OpcodeRow.selects (r : OpcodeRow) (w : Word) : Bool := w &&& r.mask == r.matchWord

/-- Decoding is total: the row the word selects, or the reason it is illegal (30_encoding.md R91, R94). -/
def decode (w : Word) : Except IllegalWord Instr :=
  match opcodeMap.find? (fun r => r.selects w) with
  | some r => .ok r.instr
  | none => if zeroFieldClear w then .error .opcodeReserved else .error .zeroFieldNotClear

/-- The instruction the decoder reads from an opcode-table word of `nbits` bits whose bits are `w` (bit 0 the least
significant, as the table numbers them); every bit above `nbits` is 0. A command word has 32 bits (30_encoding.md R90): a
number that needs more is no command word (log entry 16). -/
def decodeTableWord (nbits w : Nat) : Option Instr :=
  let bits := w % 2 ^ nbits
  if bits < 2 ^ 32 then
    match decode (BitVec.ofNat 32 bits) with
    | .ok i => some i
    | .error _ => none
  else none

/-- The command word of an instruction: OPC in bits 7:0 and ZERO in bits 31:8 (30_encoding.md R90, R92, R120). -/
def encode (i : Instr) : Word := 0#24 ++ BitVec.ofNat 8 i.opcode

end Sys2Proof
end

