-- ==== Sys2Proof/Machine/BitString.lean ====
section
/-! DEFINITION. Bit strings and their numbers (00_scope.md R8, R9), most significant bit first everywhere
(20_memory.md R61), and the one bit of a byte that a stream bit lives in (R62). -/

namespace Sys2Proof.Machine

/-- `val(b)`: the unsigned integer whose binary numeral is `b`, most significant bit first (00_scope.md R9). -/
def val (b : Bits) : Nat := b.foldl (fun v x => 2 * v + x.toNat) 0

/-- `bits_n(v)`: the bit string of length `n` whose value is `v`, for `v < 2^n` (00_scope.md R9). -/
def bitsOf : Nat → Nat → Bits
  | 0, _ => []
  | n + 1, v => v.testBit n :: bitsOf n v

/-- `idx(c) = 2^|c| + val(c)`, the index of code `c` in DT (00_scope.md R9, 10_state.md R42). -/
def idx (c : Bits) : Nat := 2 ^ c.length + val c

/-- `startswith(c, p)`: `p` is no longer than `c` and equals its first bits (00_scope.md R8). -/
def startsWith (c p : Bits) : Bool := p.isPrefixOf c

/-- `flip0(c)`: `c` with its first bit complemented (00_scope.md R8). -/
def flip0 : Bits → Bits
  | [] => []
  | b :: rest => (!b) :: rest

/-- The byte `x` with bit `i` (0 the least significant) set to `b`. -/
def putBit (x : Byte) (i : Nat) (b : Bool) : Byte :=
  if b then x ||| (1#8 <<< i) else x &&& ~~~(1#8 <<< i)

/-- `v mod 2^n` of a field (10_state.md R28, R41: the bits at and above position `n` are discarded). -/
def keepLow {w : Nat} (n : Nat) (v : BitVec w) : BitVec w := BitVec.ofNat w (v.toNat % 2 ^ n)

end Sys2Proof.Machine
end

