-- ==== Sys2Proof/Machine/State.lean ====
section
/-! DEFINITION. The state of the HCB as plain data (10_state.md R21: twelve control registers and five stores), the accesses
a host can make, the reset state (R45), and the reasons a step can stop. -/

namespace Sys2Proof.Machine

/-- The seven faults a command can raise (60_exceptions.md R280), latched in STATUS.ERR. They are states the machine goes on
from, not stops of the model: see `raise` in Machine/Ops.lean. Codes 8 to 15 are never produced (R280), so the type has no
other value; "no fault" is `none` where the latch is held (log entry 5). -/
inductive FaultCode where
  /-- Code 1: BUILD finds every FREQ[s] = 0. -/
  | emptyAlphabet
  /-- Code 2: BUILD produced a real code of 16 or more bits. -/
  | codeTooLong
  /-- Code 3: a header that does not parse, or fewer bits than it declares. -/
  | malformedHeader
  /-- Code 4: SCAN ends with a leftover of 8 or more bits. -/
  | unknownCode
  /-- Code 5: a command word that is not in the opcode map. -/
  | illegalCommand
  /-- Code 6: PACK meets a message symbol with no valid CT entry. -/
  | noCode
  /-- Code 7: a result does not fit MSG_MAX or ES_MAX. -/
  | capacity
  deriving DecidableEq, Repr

/-- One entry of the code table CT (10_state.md R40). -/
structure CodeEntry where
  valid : Bool
  len : BitVec 4
  cbits : BitVec 15
  deriving DecidableEq, Repr

/-- The invalid entry: VALID = 0, LEN = 0, CBITS = 0 (10_state.md R40, R45). -/
def CodeEntry.invalid : CodeEntry := { valid := false, len := 0#4, cbits := 0#15 }

/-- One entry of the decode table DT (10_state.md R42). -/
structure DecodeEntry where
  valid : Bool
  sym : Byte
  deriving DecidableEq, Repr

/-- The invalid entry: VALID = 0, SYM = 0 (10_state.md R42, R45). -/
def DecodeEntry.invalid : DecodeEntry := { valid := false, sym := 0#8 }

/-- What the outside can do to the block between commands: the accesses WR, RD, WRS and RDS of 30_encoding.md R124 on the six
spaces of 20_memory.md R60, and the hardware reset of 70_reset_and_hazards.md R320. An access names a space and an index;
how the pair travels on a bus is BUS_BINDING, on which no rule depends (log entries 2, 11). -/
inductive HostAccess where
  /-- WR: write a control register by its number; number 0 is CMD, whose write starts a command (10_state.md R21, R24). -/
  | writeReg (reg : BitVec 8) (w : Word)
  /-- RD: read a control register by its number. -/
  | readReg (reg : BitVec 8)
  /-- WRS MSG[index]. -/
  | writeMsg (index : Nat) (v : Byte)
  /-- WRS ESB[index]: the ES store by bytes. -/
  | writeEsByte (index : Nat) (v : Byte)
  /-- WRS FREQ[index]. -/
  | writeFreq (index : Nat) (w : Word)
  /-- WRS CT[index]. -/
  | writeCt (index : Nat) (w : Word)
  /-- WRS DT[index]: DT is read-only to the host, the write is ignored (10_state.md R42). -/
  | writeDt (index : Nat) (w : Word)
  /-- RDS MSG[index]. -/
  | readMsg (index : Nat)
  /-- RDS ESB[index]. -/
  | readEsByte (index : Nat)
  /-- RDS FREQ[index]. -/
  | readFreq (index : Nat)
  /-- RDS CT[index]. -/
  | readCt (index : Nat)
  /-- RDS DT[index]. -/
  | readDt (index : Nat)
  /-- The hardware reset input (70_reset_and_hazards.md R320; log entry 14). -/
  | hardwareReset
  deriving DecidableEq, Repr

/-- The state: the registers and stores of 10_state.md R21, the parameters (R35, 00_scope.md R7), and two fields of the
model's own, the host accesses still to come and the values the host has read (log entries 2, 3). A store is a list of
(index, element) pairs, indices strictly rising, no element equal to what an unlisted index reads as, which is the reset
value of R45: 0, or an invalid entry (log entry 7; `Memory.wf` in Machine/Memory.lean). -/
structure State where
  /-- MSG_MAX and ES_MAX; registers 10 and 11 return them (10_state.md R35). No step changes them. -/
  config : Config
  /-- STATUS.ERR, the fault latch (10_state.md R25); `none` is code 0. -/
  err : Option FaultCode
  /-- ERRINFO (10_state.md R26). -/
  errInfo : Word
  /-- CTRL.PAD, bit 0 of CTRL, whose other bits read 0 (10_state.md R27). -/
  pad : Bool
  /-- RPCFG.RPLEN, bits 19:16 (10_state.md R28). -/
  rpLen : BitVec 4
  /-- RPCFG.RPVAL, bits 14:0 (10_state.md R28). -/
  rpVal : BitVec 15
  /-- MSGLEN (10_state.md R30). -/
  msgLen : Word
  /-- ESLEN (10_state.md R31). -/
  esLen : Word
  /-- RDPTR (10_state.md R32). -/
  rdPtr : Word
  /-- SYMLIM (10_state.md R33). -/
  symLim : Word
  /-- The message store MSG, one symbol a cell (10_state.md R37). -/
  msg : List Host.Cell
  /-- The encoded-stream store ES, kept by bytes; stream bit p is bit 7 - (p mod 8) of byte p div 8 (10_state.md R38,
  20_memory.md R62). -/
  es : List Host.Cell
  /-- The frequency table FREQ (10_state.md R39). -/
  freq : List (Nat × Word)
  /-- The code table CT (10_state.md R40). -/
  ct : List (Nat × CodeEntry)
  /-- The decode table DT (10_state.md R42). -/
  dt : List (Nat × DecodeEntry)
  /-- The model's own: the host accesses still to come, the next one first (30_encoding.md R124; log entry 2). -/
  script : List HostAccess
  /-- The model's own: the values the host's reads have returned, in order (30_encoding.md R124; log entry 3). -/
  readings : List Word
  deriving DecidableEq, Repr

/-- The reset state of 10_state.md R45 of a block with the parameters `c`, with no host access to come. -/
def State.resetFor (c : Config) : State where
  config := c
  err := none
  errInfo := 0#32
  pad := false
  rpLen := 0#4
  rpVal := 0#15
  msgLen := 0#32
  esLen := 0#32
  rdPtr := 0#32
  symLim := 0#32
  msg := []
  es := []
  freq := []
  ct := []
  dt := []
  script := []
  readings := []

/-- The machine right after reset (10_state.md R45), with the parameters of the spec's examples (DESIGN CHOICE, log
entry 1: the spec leaves MSG_MAX and ES_MAX open). -/
def State.reset : State := State.resetFor Config.examples

/-- The faults that STOP the model: none, so the type has no constructor. Every behaviour of the HCB is a total function of
the state (93_implementation_defined.md Part 1: no behaviour is left "stuck"); its own seven faults are latched and the
machine goes on (`FaultCode`). Safe: nothing can raise one (log entry 13). -/
inductive Fault where
  deriving DecidableEq, Repr

/-- The refusals of the model. -/
inductive Refusal where
  /-- An instruction with no meaning yet, refused by name in exec's arm. Safe: it stops the run. No arm raises it now: every
  instruction has its meaning (log entry 13). -/
  | notModelled (mnemonic : String)
  deriving DecidableEq, Repr

end Sys2Proof.Machine
end

