-- ==== Sys2Proof/Machine/Memory.lean ====
section
/-! DEFINITION. One sparse store in canonical form: a list of (index, element) pairs. `d` is what an unlisted index reads as,
the store's reset value (10_state.md R45; log entry 7). -/

namespace Sys2Proof.Machine

/-- The element at index `i`: the listed one, else `d`. -/
def Memory.read {α : Type} (d : α) : List (Nat × α) → Nat → α
  | [], _ => d
  | (k, v) :: rest, i => if i = k then v else Memory.read d rest i

/-- The pair put in its place, before the first larger index. -/
def Memory.insert {α : Type} : List (Nat × α) → Nat → α → List (Nat × α)
  | [], i, v => [(i, v)]
  | (k, w) :: rest, i, v => if i < k then (i, v) :: (k, w) :: rest else (k, w) :: Memory.insert rest i v

/-- The store with element `i` set to `v`: writing what an unlisted index reads as removes the entry. -/
def Memory.write {α : Type} [DecidableEq α] (d : α) (m : List (Nat × α)) (i : Nat) (v : α) : List (Nat × α) :=
  let others := m.filter (fun c => c.1 != i)
  if v = d then others else Memory.insert others i v

/-- The canonical form: indices strictly rising, and no entry equal to what an unlisted index reads as. -/
abbrev Memory.wf {α : Type} (d : α) (m : List (Nat × α)) : Prop :=
  m.Pairwise (fun a b => a.1 < b.1) ∧ ∀ c ∈ m, c.2 ≠ d

/-- Every listed index is below `n`, the number of elements the store has. -/
abbrev Memory.below {α : Type} (n : Nat) (m : List (Nat × α)) : Prop := ∀ c ∈ m, c.1 < n

end Sys2Proof.Machine
end

