-- ==== Sys2Proof/Machine/Ops.lean ====
section
/-! DEFINITION. The shared operations of the commands: element access to the five stores, the store primitives of
00_scope.md R11, taking a fault (R12, 60_exceptions.md R283) and clearing it (45_macro_system.md R266), and the sequencing of
pseudocode that ends at the first raise. -/

namespace Sys2Proof.Machine

/-! ## Sequencing and faults -/

/-- How a piece of a command's pseudocode leaves the state: it ran to its end, or a `raise` ended the command there
(00_scope.md R12). -/
inductive CommandResult where
  | ended (s : State)
  | raised (s : State)
  deriving DecidableEq, Repr

/-- The state it leaves. -/
def CommandResult.state : CommandResult → State
  | .ended s => s
  | .raised s => s

/-- `A ; B`: B runs only if A did not raise (00_scope.md R12). -/
def CommandResult.andThen (r : CommandResult) (next : State → CommandResult) : CommandResult :=
  match r with
  | .ended s => next s
  | .raised s => .raised s

/-- The outcome of a whole command: the next state in either case, since a fault is latched and control returns to the host
(60_exceptions.md R283). -/
def CommandResult.outcome (r : CommandResult) : Host.Outcome State Fault Refusal := .next r.state

/-- Taking a fault, `raise F(info)`: STATUS.ERR takes the fault's code and ERRINFO the detail; nothing else is saved or changed,
and every write made before it stays (00_scope.md R12, 60_exceptions.md R283). -/
def raise (f : FaultCode) (info : Word) (s : State) : CommandResult :=
  .raised { s with err := some f, errInfo := info }

/-- The return from a fault: `STATUS.ERR <- 0 ; ERRINFO <- 0`, nothing else (45_macro_system.md R266, 60_exceptions.md R286). -/
def clearLatch (s : State) : State := { s with err := none, errInfo := 0#32 }

/-- The reset of 10_state.md R45: every register and store at its reset value, the parameters kept (45_macro_system.md R265).
The two fields that are the host's and not the block's stay (log entry 4). -/
def resetState (s : State) : State :=
  { State.resetFor s.config with script := s.script, readings := s.readings }

/-! ## Elements of the stores -/

/-- `MSG[i]`. -/
def State.msgAt (s : State) (i : Nat) : Byte := Memory.read 0#8 s.msg i

/-- `MemWrite(MSG, i, 1, v)`. -/
def State.setMsg (s : State) (i : Nat) (v : Byte) : State := { s with msg := Memory.write 0#8 s.msg i v }

/-- Byte `j` of ES as the host sees it (10_state.md R38). -/
def State.esByte (s : State) (j : Nat) : Byte := Memory.read 0#8 s.es j

/-- A whole byte of ES written. -/
def State.setEsByte (s : State) (j : Nat) (v : Byte) : State := { s with es := Memory.write 0#8 s.es j v }

/-- `ES[p]`: stream bit `p` is bit `7 - (p mod 8)` of byte `p div 8` (20_memory.md R62). -/
def State.esBit (s : State) (p : Nat) : Bool := (s.esByte (p / 8)).getLsbD (7 - p % 8)

/-- `MemWrite(ES, p, 1, b)`. -/
def State.setEsBit (s : State) (p : Nat) (b : Bool) : State :=
  s.setEsByte (p / 8) (putBit (s.esByte (p / 8)) (7 - p % 8) b)

/-- `ES[p .. p+n)` (00_scope.md R11). -/
def State.esBits (s : State) (p n : Nat) : Bits := (List.range n).map (fun k => s.esBit (p + k))

/-- `MemWrite(ES, p, |b|, b)`: its single-bit writes in ascending index order (20_memory.md R66). -/
def State.setEsBits (s : State) (p : Nat) : Bits → State
  | [] => s
  | b :: rest => (s.setEsBit p b).setEsBits (p + 1) rest

/-- `FREQ[a]`. -/
def State.freqAt (s : State) (a : Nat) : Word := Memory.read 0#32 s.freq a

/-- `MemWrite(FREQ, a, 1, w)`. -/
def State.setFreq (s : State) (a : Nat) (w : Word) : State := { s with freq := Memory.write 0#32 s.freq a w }

/-- `CT[a]`. -/
def State.ctAt (s : State) (a : Nat) : CodeEntry := Memory.read CodeEntry.invalid s.ct a

/-- `CT[a] <- e`. -/
def State.setCt (s : State) (a : Nat) (e : CodeEntry) : State :=
  { s with ct := Memory.write CodeEntry.invalid s.ct a e }

/-- `DT[k]`. -/
def State.dtAt (s : State) (k : Nat) : DecodeEntry := Memory.read DecodeEntry.invalid s.dt k

/-- `DT[k] <- e`. -/
def State.setDt (s : State) (k : Nat) (e : DecodeEntry) : State :=
  { s with dt := Memory.write DecodeEntry.invalid s.dt k e }

/-! ## The store primitives of 00_scope.md R11 -/

/-- `EsAppend(b)`: the whole string is checked against ES_MAX before any bit is written; on Capacity nothing of it is. -/
def esAppend (b : Bits) (s : State) : CommandResult :=
  if s.config.esMax.toNat < s.esLen.toNat + b.length then raise .capacity s.esLen s
  else .ended { s.setEsBits s.esLen.toNat b with esLen := BitVec.ofNat 32 (s.esLen.toNat + b.length) }

/-- `EsAppend` of several strings in order, ending at the first raise. -/
def esAppendAll : List Bits → State → CommandResult
  | [], s => .ended s
  | b :: rest, s => (esAppend b s).andThen (esAppendAll rest)

/-- `MsgAppend(v)`. -/
def msgAppend (v : Byte) (s : State) : CommandResult :=
  if s.msgLen = s.config.msgMax then raise .capacity s.msgLen s
  else .ended { s.setMsg s.msgLen.toNat v with msgLen := BitVec.ofNat 32 (s.msgLen.toNat + 1) }

/-- `avail()`: the bits a reading command still has, 0 when RDPTR is past ESLEN (10_state.md R32). -/
def State.avail (s : State) : Nat :=
  if s.rdPtr.toNat ≤ s.esLen.toNat then s.esLen.toNat - s.rdPtr.toNat else 0

/-- `RDPTR <- RDPTR + n`. -/
def State.skip (s : State) (n : Nat) : State := { s with rdPtr := BitVec.ofNat 32 (s.rdPtr.toNat + n) }

/-! ## The host's next access -/

/-- The host access the next step makes, and the state in which it is made (log entry 2). -/
def State.nextAccess (s : State) : Option (HostAccess × State) :=
  match s.script with
  | [] => none
  | a :: rest => some (a, { s with script := rest })

end Sys2Proof.Machine
end

