-- ==== Sys2Proof/Machine/Flags.lean ====
section
/-! DEFINITION. The one status flag, STATUS.ERR (10_state.md R25, R44), and the gate it puts on commands
(60_exceptions.md R284). There are no condition codes. -/

namespace Sys2Proof.Machine

/-- The value STATUS.ERR takes (60_exceptions.md R280). -/
def FaultCode.code : FaultCode → BitVec 4
  | .emptyAlphabet => 1#4
  | .codeTooLong => 2#4
  | .malformedHeader => 3#4
  | .unknownCode => 4#4
  | .illegalCommand => 5#4
  | .noCode => 6#4
  | .capacity => 7#4

/-- STATUS.ERR, 0 when no fault is latched (10_state.md R25). -/
def State.errCode (s : State) : BitVec 4 :=
  match s.err with
  | none => 0#4
  | some f => f.code

/-- The STATUS register: ERR in bits 3:0, the rest reads 0 (10_state.md R25). -/
def State.statusWord (s : State) : Word := s.errCode.setWidth 32

/-- Does a write of `w` to CMD start anything? While a fault is latched only the exact words SRESET and CLRERR do
(60_exceptions.md R284). -/
def acceptsCommand (s : State) (w : Word) : Bool :=
  s.err == none || w == 0x00000001#32 || w == 0x00000002#32

end Sys2Proof.Machine
end

