-- ==== Sys2Proof/Machine/Operands.lean ====
section
/-! DEFINITION. The implicit operands of the commands and the words of registers and tables: the reserved prefix
(10_state.md R29), the code of a CT entry (R40), the CT, DT, CTRL and RPCFG words (R27, R28, R40 to R42), NCODE (R34), the
message (R30) and the stream (R31). -/

namespace Sys2Proof.Machine

/-- The reserved prefix RP = `bits_RPLEN(RPVAL)` (10_state.md R29). -/
def State.rp (s : State) : Bits := bitsOf s.rpLen.toNat s.rpVal.toNat

/-- The CTRL word: PAD in bit 0 (10_state.md R27). -/
def State.ctrlWord (s : State) : Word := (BitVec.ofBool s.pad).setWidth 32

/-- The RPCFG word: RPLEN in bits 19:16, RPVAL in bits 14:0 (10_state.md R28). -/
def State.rpcfgWord (s : State) : Word := (s.rpLen.setWidth 32 <<< 16) ||| s.rpVal.setWidth 32

/-- The code of an entry: the LEN low bits of CBITS, most significant first (10_state.md R40). -/
def CodeEntry.code (e : CodeEntry) : Bits := bitsOf e.len.toNat e.cbits.toNat

/-- The entry a code is stored as: VALID = 1, LEN = |c|, CBITS = val(c) (41_tree_builder.md R161). -/
def CodeEntry.ofCode (c : Bits) : CodeEntry :=
  { valid := true, len := BitVec.ofNat 4 c.length, cbits := BitVec.ofNat 15 (val c) }

/-- A CT entry as a word: VALID in bit 31, LEN in bits 19:16, CBITS in bits 14:0 (10_state.md R40). -/
def CodeEntry.word (e : CodeEntry) : Word :=
  ((BitVec.ofBool e.valid).setWidth 32 <<< 31) ||| (e.len.setWidth 32 <<< 16) ||| e.cbits.setWidth 32

/-- The entry a host write of `w` makes: LEN field 0 invalidates, otherwise CBITS keeps its LEN low bits (10_state.md R41). -/
def CodeEntry.ofHostWord (w : Word) : CodeEntry :=
  let l := w.extractLsb' 16 4
  if l = 0#4 then CodeEntry.invalid
  else { valid := true, len := l, cbits := keepLow l.toNat (w.extractLsb' 0 15) }

/-- A DT entry as a word: VALID in bit 8, SYM in bits 7:0; an invalid entry reads 0 (10_state.md R42). -/
def DecodeEntry.word (e : DecodeEntry) : Word :=
  if e.valid then 0x100#32 ||| e.sym.setWidth 32 else 0#32

/-- The symbols with a valid CT entry, ascending. -/
def State.codedSymbols (s : State) : List Nat := (List.range nSym).filter (fun a => (s.ctAt a).valid)

/-- NCODE: how many symbols have a valid CT entry (10_state.md R34). -/
def State.ncode (s : State) : Nat := s.codedSymbols.length

/-- The message `MSG[0] .. MSG[MSGLEN-1]` (10_state.md R30). -/
def State.message (s : State) : List Byte := (List.range s.msgLen.toNat).map s.msgAt

/-- The stream `ES[0 .. ESLEN)` (10_state.md R31). -/
def State.stream (s : State) : Bits := s.esBits 0 s.esLen.toNat

end Sys2Proof.Machine
end

