-- ==== Sys2Proof/Machine/System.lean ====
section
/-! DEFINITION. The system commands NOP, SRESET, CLRERR (45_macro_system.md R264 to R266). -/

namespace Sys2Proof.Machine

/-- NOP: no state changes (45_macro_system.md R264). -/
def execNop (s : State) : Host.Outcome State Fault Refusal := .next s

/-- SRESET: every piece of state takes its reset value, the parameters are kept (45_macro_system.md R265, 10_state.md R45). -/
def execSreset (s : State) : Host.Outcome State Fault Refusal := .next (resetState s)

/-- CLRERR: `STATUS.ERR <- 0 ; ERRINFO <- 0`, nothing else (45_macro_system.md R266). -/
def execClrerr (s : State) : Host.Outcome State Fault Refusal := .next (clearLatch s)

end Sys2Proof.Machine
end

