-- ==== Sys2Proof/Machine/BitPacker.lean ====
section
/-! DEFINITION. The BitPacker commands PACK and PADB (44_bitpacker_decoder.md R230 to R236). -/

namespace Sys2Proof.Machine

/-- The loop of PACK from message index `i`, over the symbols `syms` found there (44_bitpacker_decoder.md R230): NoCode is
tested before Capacity for the same symbol (60_exceptions.md R285). -/
def packFrom (i : Nat) : List Byte → State → CommandResult
  | [], s => .ended s
  | a :: rest, s =>
    if (s.ctAt a.toNat).valid then (esAppend (s.ctAt a.toNat).code s).andThen (packFrom (i + 1) rest)
    else raise .noCode (BitVec.ofNat 32 i) s

/-- PACK (44_bitpacker_decoder.md R230). -/
def pack (s : State) : CommandResult := packFrom 0 s.message s

/-- PACK, opcode 0x07 (44_bitpacker_decoder.md R230). -/
def execPack (s : State) : Host.Outcome State Fault Refusal := (pack s).outcome

/-- The loop of PADB for at most `k` passes: `while ESLEN mod 8 != 0: EsAppend("0")` (44_bitpacker_decoder.md R236). -/
def padLoop : Nat → State → CommandResult
  | 0, s => .ended s
  | k + 1, s =>
    if s.esLen.toNat % padUnit = 0 then .ended s else (esAppend [false] s).andThen (padLoop k)

/-- PADB (44_bitpacker_decoder.md R236): at most 7 bits are appended. -/
def padb (s : State) : CommandResult := padLoop 7 s

/-- PADB, opcode 0x08 (44_bitpacker_decoder.md R236). -/
def execPadb (s : State) : Host.Outcome State Fault Refusal := (padb s).outcome

end Sys2Proof.Machine
end

