-- ==== Sys2Proof/Machine/TreeBuilder.lean ====
section
/-! DEFINITION. The TreeBuilder: nodes, the queue and the merge loop (41_tree_builder.md R152 to R156), as pure functions over
explicit inputs (10_state.md R46). The BUILD command itself is in Machine/Build.lean. -/

namespace Sys2Proof.Machine

/-- A finite map from symbol values (0 to 255, and 256 for DUMMY) to bit strings (41_tree_builder.md R150, R152). -/
abbrev Codes := List (Nat × Bits)

/-- A node: weight, id, and the symbols under it with their partial codes (41_tree_builder.md R152). Weights are exact
naturals; IWEIGHT_W = 42 bits always suffice (R157, log entry 17). -/
structure Node where
  weight : Nat
  id : Nat
  members : Codes
  deriving DecidableEq, Repr

/-- The queue order: the key (weight, id), weight first (41_tree_builder.md R154). -/
def Node.keyLt (a b : Node) : Bool := a.weight < b.weight || (a.weight == b.weight && a.id < b.id)

/-- `extract_min(Q)`: the node with the smallest key, and the rest of the queue (41_tree_builder.md R154). -/
def extractMin : List Node → Option (Node × List Node)
  | [] => none
  | x :: xs =>
    match extractMin xs with
    | none => some (x, [])
    | some (m, rest) => if x.keyLt m then some (x, xs) else some (m, x :: rest)

/-- Each partial code of a node with one more branch label in front (41_tree_builder.md R155). -/
def Node.under (b : Bool) (n : Node) : Codes := n.members.map (fun m => (m.1, b :: m.2))

/-- The merged node: the first node extracted is the "0" branch, the second the "1" branch (41_tree_builder.md R155). -/
def mergeNodes (id : Nat) (lo hi : Node) : Node :=
  { weight := lo.weight + hi.weight, id := id, members := lo.under false ++ hi.under true }

/-- The merge loop of 41_tree_builder.md R155 for at most `k` passes; `nextId` is the next unused id. It needs |Q| - 1 passes
(R156). -/
def mergeLoop : Nat → Nat → List Node → List Node
  | 0, _, q => q
  | k + 1, nextId, q =>
    match extractMin q with
    | none => q
    | some (lo, q1) =>
      match extractMin q1 with
      | none => q
      | some (hi, q2) => mergeLoop k (nextId + 1) (mergeNodes nextId lo hi :: q2)

/-- The leaves of the alphabet `ws`, a list of (symbol, weight) in ascending symbol value: ids 0 to K-1 in that order
(41_tree_builder.md R153). -/
def leaves (ws : List (Nat × Nat)) : List Node :=
  ws.zipIdx.map (fun p => { weight := p.1.2, id := p.2, members := [(p.1.1, [])] })

/-- The member list of the one node the loop leaves (41_tree_builder.md R155, R156): `next_id` starts at |Q|. -/
def treeCodes (q : List Node) : Codes :=
  match mergeLoop (q.length - 1) q.length q with
  | [] => []
  | n :: _ => n.members

end Sys2Proof.Machine
end

