-- ==== Sys2Proof/Machine/PrefixGuard.lean ====
section
/-! DEFINITION. The PrefixGuard: the dummy leaf, its removal, and the collision rewrite (42_prefix_guard.md R181, R183, R184). -/

namespace Sys2Proof.Machine

/-- DUMMY, the synthetic symbol, outside the 8-bit alphabet (41_tree_builder.md R152, 42_prefix_guard.md R181). -/
abbrev dummySymbol : Nat := 256

/-- The dummy leaf: weight S + 1, S the sum of all real weights, and id K (42_prefix_guard.md R181). -/
def dummyLeaf (ws : List (Nat × Nat)) : Node :=
  { weight := (ws.map (·.2)).sum + 1, id := ws.length, members := [(dummySymbol, [])] }

/-- Removal of the dummy's entry (42_prefix_guard.md R183). -/
def removeDummy (codes : Codes) : Codes := codes.filter (fun c => c.1 != dummySymbol)

/-- The collision rewrite: a code that starts with RP has its first bit flipped, each code tested once on its value before
any flip (42_prefix_guard.md R184). -/
def rewriteCollisions (rp : Bits) (codes : Codes) : Codes :=
  codes.map (fun c => if startsWith c.2 rp then (c.1, flip0 c.2) else c)

end Sys2Proof.Machine
end

