-- ==== Sys2Proof/Machine/Build.lean ====
section
/-! DEFINITION. The BUILD command (41_tree_builder.md R150), which runs the TreeBuilder and, when a reserved prefix is
configured, the PrefixGuard around it. -/

namespace Sys2Proof.Machine

/-- The alphabet with its weights: the symbols with FREQ[s] != 0, ascending (41_tree_builder.md R150 line 2). -/
def State.weights (s : State) : List (Nat × Nat) :=
  ((List.range nSym).map (fun a => (a, (s.freqAt a).toNat))).filter (fun p => p.2 != 0)

/-- Lines 4 to 13 of 41_tree_builder.md R150 over a non-empty alphabet `ws` and a reserved prefix `rp` (`""`: guard off): the
single-symbol case (R158), the merge without or with the dummy, its removal, and the rewrite. -/
def buildCodes (ws : List (Nat × Nat)) (rp : Bits) : Codes :=
  if rp = [] then
    match ws with
    | [w] => [(w.1, [false])]
    | _ => treeCodes (leaves ws)
  else rewriteCollisions rp (removeDummy (treeCodes (leaves ws ++ [dummyLeaf ws])))

/-- The symbols of `codes` whose code is longer than 15 bits, ascending, each with that length (41_tree_builder.md R160). -/
def tooLong (codes : Codes) : List (Nat × Nat) :=
  (List.range nSym).filterMap (fun a =>
    match codes.lookup a with
    | some c => if codeMax < c.length then some (a, c.length) else none
    | none => none)

/-- Line 15 of 41_tree_builder.md R150 (R161): one valid CT entry a code. -/
def writeCodes (codes : Codes) (s : State) : State :=
  codes.foldl (fun t c => t.setCt c.1 (CodeEntry.ofCode c.2)) s

/-- BUILD (41_tree_builder.md R150): CT is invalidated first; an empty alphabet or a code of more than 15 bits raises and leaves
CT invalid; otherwise CT takes the codes. -/
def build (s : State) : CommandResult :=
  let s := { s with ct := [] }
  let ws := s.weights
  if ws = [] then raise .emptyAlphabet 0#32 s
  else
    let codes := buildCodes ws s.rp
    match tooLong codes with
    | (a, l) :: _ => raise .codeTooLong ((BitVec.ofNat 32 l <<< 16) ||| BitVec.ofNat 32 a) s
    | [] => .ended (writeCodes codes s)

/-- BUILD, opcode 0x05 (41_tree_builder.md R150). -/
def execBuild (s : State) : Host.Outcome State Fault Refusal := (build s).outcome

end Sys2Proof.Machine
end

