-- ==== Sys2Proof/Machine/FrequencyModel.lean ====
section
/-! DEFINITION. The FrequencyModel commands REALIGN and COUNT (40_frequency_model.md). -/

namespace Sys2Proof.Machine

/-- `ceil(ESLEN/7)`, the number of chunks (40_frequency_model.md R131). -/
def State.chunkCount (s : State) : Nat := (s.esLen.toNat + 6) / realignW

/-- Chunk `j`: the bits `ES[7j .. min(7j+7, ESLEN))`; the last one may be short and is not shifted up (40_frequency_model.md
R131, R132). -/
def State.chunk (s : State) (j : Nat) : Bits :=
  s.esBits (realignW * j) (min (realignW * j + realignW) s.esLen.toNat - realignW * j)

/-- The loop of REALIGN over the chunks `js`. -/
def writeChunks (js : List Nat) (s : State) : State :=
  js.foldl (fun t j => t.setMsg j (BitVec.ofNat 8 (val (t.chunk j)))) s

/-- REALIGN (40_frequency_model.md R131): the capacity check before any write, then one symbol a chunk, then MSGLEN. -/
def realign (s : State) : CommandResult :=
  let n := s.chunkCount
  if s.config.msgMax.toNat < n then raise .capacity (BitVec.ofNat 32 n) s
  else .ended { writeChunks (List.range n) s with msgLen := BitVec.ofNat 32 n }

/-- REALIGN, opcode 0x03 (40_frequency_model.md R131). -/
def execRealign (s : State) : Host.Outcome State Fault Refusal := (realign s).outcome

/-- The loop of COUNT: one more for each symbol of `syms` (40_frequency_model.md R135). -/
def countSymbols (syms : List Byte) (s : State) : State :=
  syms.foldl (fun t a => t.setFreq a.toNat (t.freqAt a.toNat + 1#32)) s

/-- COUNT (40_frequency_model.md R135): all 256 elements are cleared (the empty store reads 0 everywhere, log entry 8), then
each symbol of the message is counted. It raises nothing. -/
def count (s : State) : CommandResult := .ended (countSymbols s.message { s with freq := [] })

/-- COUNT, opcode 0x04 (40_frequency_model.md R135). -/
def execCount (s : State) : Host.Outcome State Fault Refusal := (count s).outcome

end Sys2Proof.Machine
end

