-- ==== Sys2Proof/Machine/HeaderCodec.lean ====
section
/-! DEFINITION. The HeaderCodec commands SERHDR and DESHDR (43_header_codec.md) and the layout of the header
(30_encoding.md R95 to R97). -/

namespace Sys2Proof.Machine

/-! ## SERHDR -/

/-- The key order of 41_tree_builder.md R165: (CT[s].LEN, s) ascending. -/
abbrev State.canonicalLe (s : State) (a b : Nat) : Prop :=
  (s.ctAt a).len.toNat < (s.ctAt b).len.toNat ∨ ((s.ctAt a).len.toNat = (s.ctAt b).len.toNat ∧ a ≤ b)

/-- The canonical order of the code table: the coded symbols sorted by (LEN, symbol) (41_tree_builder.md R165). -/
def State.canonicalOrder (s : State) : List Nat :=
  s.codedSymbols.insertionSort s.canonicalLe

/-- `ENTRY(a) = bits_8(a) ++ bits_4(LEN) ++ code(a)` (30_encoding.md R95, R97). -/
def State.entryBits (s : State) (a : Nat) : Bits :=
  bitsOf 8 a ++ bitsOf 4 (s.ctAt a).len.toNat ++ (s.ctAt a).code

/-- HLEN, the number of bits of the header entries, its own 16 bits not counted (30_encoding.md R96). -/
def State.hlen (s : State) : Nat := (s.canonicalOrder.map (fun a => 12 + (s.ctAt a).len.toNat)).sum

/-- SERHDR (43_header_codec.md R200): the capacity check before any write, then the length field, then the entries in
canonical order. -/
def serhdr (s : State) : CommandResult :=
  if s.config.esMax.toNat < s.esLen.toNat + 16 + s.hlen then raise .capacity s.esLen s
  else esAppendAll (bitsOf 16 s.hlen :: s.canonicalOrder.map s.entryBits) s

/-- SERHDR, opcode 0x06 (43_header_codec.md R200). -/
def execSerhdr (s : State) : Host.Outcome State Fault Refusal := (serhdr s).outcome

/-! ## DESHDR -/

/-- The `while RDPTR < end` loop of 43_header_codec.md R210 for at most `k` passes: each consumes at least 12 bits, so
`H div 12 + 1` passes suffice (70_reset_and_hazards.md R340). -/
def parseEntries : Nat → Nat → State → CommandResult
  | 0, _, s => .ended s
  | k + 1, fin, s =>
    let r := s.rdPtr.toNat
    if fin ≤ r then .ended s
    else if fin - r < 12 then raise .malformedHeader s.rdPtr s
    else
      let sym := val (s.esBits r 8)
      let l := val (s.esBits (r + 8) 4)
      if fin - r < 12 + l then raise .malformedHeader s.rdPtr s
      else
        let c := s.esBits (r + 12) l
        parseEntries k fin ((s.setDt (idx c) { valid := true, sym := BitVec.ofNat 8 sym }).skip (12 + l))

/-- DESHDR (43_header_codec.md R210): DT is invalidated first, then the length field is read and checked against the bits
available, then the entries are parsed. -/
def deshdr (s : State) : CommandResult :=
  let s := { s with dt := [] }
  if s.avail < 16 then raise .malformedHeader s.rdPtr s
  else
    let h := val (s.esBits s.rdPtr.toNat 16)
    let s := s.skip 16
    if s.avail < h then raise .malformedHeader s.rdPtr s
    else parseEntries (h / 12 + 1) (s.rdPtr.toNat + h) s

/-- DESHDR, opcode 0x0A (43_header_codec.md R210). -/
def execDeshdr (s : State) : Host.Outcome State Fault Refusal := (deshdr s).outcome

end Sys2Proof.Machine
end

