-- ==== Sys2Proof/Machine/StreamDecoder.lean ====
section
/-! DEFINITION. The StreamDecoder command SCAN (44_bitpacker_decoder.md R240 to R248). -/

namespace Sys2Proof.Machine

/-- The loop of SCAN over the next `k` payload bits, with the candidate `cand` and the `n` symbols emitted so far by this
command (44_bitpacker_decoder.md R240). At exhaustion a leftover of 8 or more bits raises UnknownCode (R243). -/
def scanLoop : Nat → Bits → Nat → State → CommandResult
  | 0, cand, _, s =>
    if 8 ≤ cand.length then raise .unknownCode (BitVec.ofNat 32 (s.rdPtr.toNat - cand.length)) s else .ended s
  | k + 1, cand, n, s =>
    let c := cand ++ [s.esBit s.rdPtr.toNat]
    let t := s.skip 1
    if c.length ≤ codeMax ∧ (t.dtAt (idx c)).valid = true then
      (msgAppend (t.dtAt (idx c)).sym t).andThen fun u =>
        if u.symLim ≠ 0#32 ∧ n + 1 = u.symLim.toNat then .ended u else scanLoop k [] (n + 1) u
    else scanLoop k c n t

/-- SCAN (44_bitpacker_decoder.md R240): `while RDPTR < ESLEN` takes one bit a pass, so it makes `avail()` passes. -/
def scan (s : State) : CommandResult := scanLoop s.avail [] 0 s

/-- SCAN, opcode 0x0B (44_bitpacker_decoder.md R240). -/
def execScan (s : State) : Host.Outcome State Fault Refusal := (scan s).outcome

end Sys2Proof.Machine
end

