-- ==== Sys2Proof/Machine/WholeFlow.lean ====
section
/-! DEFINITION. The whole-flow commands ENCODE and DECODE (45_macro_system.md R260, R262): each line has exactly the effect of
the command of that name, and a raise in any line ends the flow there. -/

namespace Sys2Proof.Machine

/-- ENCODE (45_macro_system.md R260): `ESLEN <- 0 ; COUNT ; BUILD ; SERHDR ; PACK ; if CTRL.PAD = 1 then PADB`. -/
def encodeFlow (s : State) : CommandResult :=
  ((((count { s with esLen := 0#32 }).andThen build).andThen serhdr).andThen pack).andThen fun t =>
    if t.pad then padb t else .ended t

/-- ENCODE, opcode 0x09 (45_macro_system.md R260). -/
def execEncode (s : State) : Host.Outcome State Fault Refusal := (encodeFlow s).outcome

/-- DECODE (45_macro_system.md R262): `RDPTR <- 0 ; MSGLEN <- 0 ; DESHDR ; SCAN`. -/
def decodeFlow (s : State) : CommandResult :=
  (deshdr { s with rdPtr := 0#32, msgLen := 0#32 }).andThen scan

/-- DECODE, opcode 0x0C (45_macro_system.md R262). -/
def execDecode (s : State) : Host.Outcome State Fault Refusal := (decodeFlow s).outcome

end Sys2Proof.Machine
end

