-- ==== Sys2Proof/Machine/Dispatch.lean ====
section
/-! DEFINITION. One arm per command: the meaning of each (30_encoding.md R92, column semantics). -/

namespace Sys2Proof.Machine

def exec (i : Instr) (s : State) : Host.Outcome State Fault Refusal :=
  match i with
  | .nop => Sys2Proof.Machine.execNop s
  | .sreset => Sys2Proof.Machine.execSreset s
  | .clrerr => Sys2Proof.Machine.execClrerr s
  | .realign => Sys2Proof.Machine.execRealign s
  | .count => Sys2Proof.Machine.execCount s
  | .build => Sys2Proof.Machine.execBuild s
  | .serhdr => Sys2Proof.Machine.execSerhdr s
  | .pack => Sys2Proof.Machine.execPack s
  | .padb => Sys2Proof.Machine.execPadb s
  | .encode => Sys2Proof.Machine.execEncode s
  | .deshdr => Sys2Proof.Machine.execDeshdr s
  | .scan => Sys2Proof.Machine.execScan s
  | .decode => Sys2Proof.Machine.execDecode s

end Sys2Proof.Machine
end

