-- ==== Sys2Proof/Machine/HostAccess.lean ====
section
/-! DEFINITION. What the host's accesses do (10_state.md R21 to R42, 20_memory.md R60 to R69): everything but the start of a
command, which Machine/Step.lean hands to `exec`. No access faults (60_exceptions.md R288), and the fault latch gates none
of them (R284). -/

namespace Sys2Proof.Machine

/-- RD: the value of register `r` (10_state.md R21). CMD and the reserved numbers 12 to 255 read 0 (R24, R36). -/
def State.readRegister (s : State) (r : BitVec 8) : Word :=
  match r.toNat with
  | 1 => s.statusWord
  | 2 => s.errInfo
  | 3 => s.ctrlWord
  | 4 => s.rpcfgWord
  | 5 => s.msgLen
  | 6 => s.esLen
  | 7 => s.rdPtr
  | 8 => s.symLim
  | 9 => BitVec.ofNat 32 s.ncode
  | 10 => s.config.msgMax
  | 11 => s.config.esMax
  | _ => 0#32

/-- WR to a register other than CMD (10_state.md R27, R28, R30 to R33): out-of-range lengths and cursors are ignored, so are
writes to read-only and reserved registers (R36). -/
def State.writeRegister (s : State) (r : BitVec 8) (w : Word) : State :=
  match r.toNat with
  | 3 => { s with pad := w.getLsbD 0 }
  | 4 =>
    let l := w.extractLsb' 16 4
    { s with rpLen := l, rpVal := keepLow l.toNat (w.extractLsb' 0 15) }
  | 5 => if w.toNat ≤ s.config.msgMax.toNat then { s with msgLen := w } else s
  | 6 => if w.toNat ≤ s.config.esMax.toNat then { s with esLen := w } else s
  | 7 => if w.toNat ≤ s.config.esMax.toNat then { s with rdPtr := w } else s
  | 8 => { s with symLim := w }
  | _ => s

/-- RDS MSG[i]: an index at or above MSG_MAX reads 0 (10_state.md R37). -/
def State.hostReadMsg (s : State) (i : Nat) : Word :=
  if i < s.config.msgMax.toNat then (s.msgAt i).setWidth 32 else 0#32

/-- WRS MSG[i]: an index at or above MSG_MAX is ignored (10_state.md R37). -/
def State.hostWriteMsg (s : State) (i : Nat) (v : Byte) : State :=
  if i < s.config.msgMax.toNat then s.setMsg i v else s

/-- RDS ESB[j]: a byte index at or above ES_MAX/8 reads 0 (10_state.md R38). -/
def State.hostReadEsByte (s : State) (j : Nat) : Word :=
  if j < s.config.esMax.toNat / 8 then (s.esByte j).setWidth 32 else 0#32

/-- WRS ESB[j]: a byte index at or above ES_MAX/8 is ignored (10_state.md R38). -/
def State.hostWriteEsByte (s : State) (j : Nat) (v : Byte) : State :=
  if j < s.config.esMax.toNat / 8 then s.setEsByte j v else s

/-- RDS FREQ[a] (10_state.md R39; an index past 255 reads 0, 93_implementation_defined.md U19). -/
def State.hostReadFreq (s : State) (a : Nat) : Word := if a < nSym then s.freqAt a else 0#32

/-- WRS FREQ[a] (10_state.md R39; an index past 255 is ignored, 93_implementation_defined.md U19). -/
def State.hostWriteFreq (s : State) (a : Nat) (w : Word) : State := if a < nSym then s.setFreq a w else s

/-- RDS CT[a] (10_state.md R41). -/
def State.hostReadCt (s : State) (a : Nat) : Word := if a < nSym then (s.ctAt a).word else 0#32

/-- WRS CT[a] (10_state.md R41). -/
def State.hostWriteCt (s : State) (a : Nat) (w : Word) : State :=
  if a < nSym then s.setCt a (CodeEntry.ofHostWord w) else s

/-- RDS DT[k] (10_state.md R42). -/
def State.hostReadDt (s : State) (k : Nat) : Word := if k < dtSize then (s.dtAt k).word else 0#32

/-- A read's value is what the host sees; the read itself changes nothing (20_memory.md R67). The model keeps the value in
`readings` (log entry 3). -/
def State.report (s : State) (v : Word) : State := { s with readings := s.readings ++ [v] }

/-- The word that an access writes to CMD, if it is a write of register 0 (10_state.md R24). -/
def HostAccess.commandWord : HostAccess → Option Word
  | .writeReg r w => if r = 0#8 then some w else none
  | .readReg _ | .writeMsg _ _ | .writeEsByte _ _ | .writeFreq _ _ | .writeCt _ _ | .writeDt _ _ | .readMsg _
  | .readEsByte _ | .readFreq _ | .readCt _ | .readDt _ | .hardwareReset => none

/-- The effect of an access that starts no command. -/
def hostAccess (a : HostAccess) (s : State) : State :=
  match a with
  | .writeReg r w => s.writeRegister r w
  | .readReg r => s.report (s.readRegister r)
  | .writeMsg i v => s.hostWriteMsg i v
  | .writeEsByte j v => s.hostWriteEsByte j v
  | .writeFreq i w => s.hostWriteFreq i w
  | .writeCt i w => s.hostWriteCt i w
  | .writeDt _ _ => s
  | .readMsg i => s.report (s.hostReadMsg i)
  | .readEsByte j => s.report (s.hostReadEsByte j)
  | .readFreq i => s.report (s.hostReadFreq i)
  | .readCt i => s.report (s.hostReadCt i)
  | .readDt k => s.report (s.hostReadDt k)
  | .hardwareReset => resetState s

end Sys2Proof.Machine
end

