-- ==== Sys2Proof/Machine/Step.lean ====
section
/-! DEFINITION. One step of the block: the host's next access, or the command it starts (10_state.md R20). -/

namespace Sys2Proof.Machine

/-- A host write of `w` to CMD (10_state.md R24): ignored while a fault is latched unless the word is SRESET or CLRERR
(60_exceptions.md R284); otherwise the command the word selects runs (30_encoding.md R91), or IllegalCommand(w) is raised and
nothing else changes (R94). -/
def issueCommand (w : Word) (s : State) : Host.Outcome State Fault Refusal :=
  if acceptsCommand s w then
    match decode w with
    | .ok i => exec i s
    | .error _ => (raise .illegalCommand w s).outcome
  else .next s

/-- One step: with no access to come the engine is idle and nothing changes (10_state.md R47, log entry 2). -/
def step (s : State) : Host.Outcome State Fault Refusal :=
  match s.nextAccess with
  | none => .next s
  | some (a, t) =>
    match a.commandWord with
    | some w => issueCommand w t
    | none => .next (hostAccess a t)

/-- `s` with the instruction word `w` of `nbits` bits as the next thing the host writes to CMD, so that the next step runs
exactly it (log entry 2); the bits above `nbits` are 0. -/
def State.withFetchWord (s : State) (nbits w : Nat) : State :=
  { s with script := .writeReg 0#8 (BitVec.ofNat 32 (w % 2 ^ nbits)) :: s.script }

end Sys2Proof.Machine
end

