-- ==== Sys2Proof/Machine/Arena.lean ====
section
/-! DEFINITION. The arena form of the TreeBuilder (41_tree_builder.md R159): an array of nodes indexed by id and a queue of
(weight, id) pairs, in place of member lists. BUILD is defined by the member lists of Machine/TreeBuilder.lean; that both give
the same codes is a statement (log entry 17). -/

namespace Sys2Proof.Machine

/-- A node of the arena: a leaf with its symbol, or a merged node with the ids of its "0" child `left` and its "1" child
`right` (41_tree_builder.md R159). -/
inductive ArenaNode where
  | leaf (weight sym : Nat)
  | merged (weight left right : Nat)
  deriving DecidableEq, Repr

/-- The order of the queue's (weight, id) pairs: weight first (41_tree_builder.md R154). -/
def arenaKeyLt (a b : Nat × Nat) : Bool := a.1 < b.1 || (a.1 == b.1 && a.2 < b.2)

/-- `extract_min` over (weight, id) pairs (41_tree_builder.md R154). -/
def arenaExtractMin : List (Nat × Nat) → Option ((Nat × Nat) × List (Nat × Nat))
  | [] => none
  | x :: xs =>
    match arenaExtractMin xs with
    | none => some (x, [])
    | some (m, rest) => if arenaKeyLt x m then some (x, xs) else some (m, x :: rest)

/-- The merge loop for at most `k` passes: the merged node is put at the end of the arena, so its id is the next unused one, and
its (weight, id) pair into the queue (41_tree_builder.md R155, R159). -/
def arenaLoop : Nat → List ArenaNode → List (Nat × Nat) → List ArenaNode
  | 0, ar, _ => ar
  | k + 1, ar, q =>
    match arenaExtractMin q with
    | none => ar
    | some (lo, q1) =>
      match arenaExtractMin q1 with
      | none => ar
      | some (hi, q2) =>
        arenaLoop k (ar ++ [.merged (lo.1 + hi.1) lo.2 hi.2]) ((lo.1 + hi.1, ar.length) :: q2)

/-- The symbols below node `id`, each with the branch labels on the path down to its leaf, for a depth of less than `fuel`. -/
def arenaPaths (ar : List ArenaNode) : Nat → Nat → Codes
  | 0, _ => []
  | fuel + 1, id =>
    match ar[id]? with
    | none => []
    | some (.leaf _ sym) => [(sym, [])]
    | some (.merged _ left right) =>
      (arenaPaths ar fuel left).map (fun m => (m.1, false :: m.2)) ++
        (arenaPaths ar fuel right).map (fun m => (m.1, true :: m.2))

/-- The arena after the loop over the leaves `ws`, a list of (symbol, weight) pairs with ids in list order. -/
def arenaOf (ws : List (Nat × Nat)) : List ArenaNode :=
  arenaLoop (ws.length - 1) (ws.map (fun p => .leaf p.2 p.1)) (ws.zipIdx.map (fun p => (p.1.2, p.2)))

/-- The codes: the paths from the root, the last node created (41_tree_builder.md R159). -/
def arenaCodes (ws : List (Nat × Nat)) : Codes :=
  arenaPaths (arenaOf ws) (arenaOf ws).length ((arenaOf ws).length - 1)

/-- The alphabet with the dummy as its last leaf, of weight S + 1 (42_prefix_guard.md R181). -/
def withDummy (ws : List (Nat × Nat)) : List (Nat × Nat) := ws ++ [(dummySymbol, (ws.map (·.2)).sum + 1)]

end Sys2Proof.Machine
end

