-- ==== Sys2Proof/Machine/Script.lean ====
section
/-! DEFINITION. The host-script notation: a mnemonic is a write of CMD (30_encoding.md R120), RDS ranges (R124), and the
pseudo-instructions of R125, each as the accesses it expands to. -/

namespace Sys2Proof.Machine.Script

/-- The register numbers of 10_state.md R21. -/
def regCmd : BitVec 8 := 0#8
def regStatus : BitVec 8 := 1#8
def regErrInfo : BitVec 8 := 2#8
def regCtrl : BitVec 8 := 3#8
def regRpcfg : BitVec 8 := 4#8
def regMsgLen : BitVec 8 := 5#8
def regEsLen : BitVec 8 := 6#8
def regRdPtr : BitVec 8 := 7#8
def regSymLim : BitVec 8 := 8#8
def regNcode : BitVec 8 := 9#8
def regMsgMax : BitVec 8 := 10#8
def regEsMax : BitVec 8 := 11#8

/-- `<MNEMONIC>`: the host write `CMD <- OPC` (30_encoding.md R120, R124). -/
def command (i : Instr) : HostAccess := .writeReg regCmd (encode i)

/-- `RDS ESB[a..b]`: both ends included (30_encoding.md R124). -/
def readEsBytes (a b : Nat) : List HostAccess := (List.range (b + 1 - a)).map (fun k => .readEsByte (a + k))

/-- `MSGSYM v0, v1, ...` (30_encoding.md R125). -/
def msgSym (vs : List Byte) : List HostAccess :=
  vs.zipIdx.map (fun p => .writeMsg p.2 p.1) ++ [.writeReg regMsgLen (BitVec.ofNat 32 vs.length)]

/-- `MSGSTR "text"`: one symbol a character, code points 0 to 255 only (30_encoding.md R125, 40_frequency_model.md R138). -/
def msgStr (text : List Char) : Option (List HostAccess) :=
  if text.all (fun c => c.toNat < 256) then some (msgSym (text.map (fun c => BitVec.ofNat 8 c.toNat))) else none

/-- `ESBYTES b0 b1 ...` (30_encoding.md R125). -/
def esBytes (bs : List Byte) : List HostAccess :=
  bs.zipIdx.map (fun p => .writeEsByte p.2 p.1) ++ [.writeReg regEsLen (BitVec.ofNat 32 (8 * bs.length))]

/-- Byte `j` of a bit string zero-filled on the right to whole bytes (30_encoding.md R125, 20_memory.md R62). -/
def byteOfBits (b : Bits) (j : Nat) : Byte :=
  BitVec.ofNat 8 (val ((List.range 8).map (fun k => (b[8 * j + k]?).getD false)))

/-- `ESBITS "bits"` (30_encoding.md R125). -/
def esBits (b : Bits) : List HostAccess :=
  esBytes ((List.range ((b.length + 7) / 8)).map (byteOfBits b)) ++ [.writeReg regEsLen (BitVec.ofNat 32 b.length)]

/-- The word `(|bits| << 16) | val(bits)` (30_encoding.md R125). -/
def codeWord (b : Bits) : Word := (BitVec.ofNat 32 b.length <<< 16) ||| BitVec.ofNat 32 (val b)

/-- `SETRP "bits"` (30_encoding.md R125). -/
def setRp (b : Bits) : HostAccess := .writeReg regRpcfg (codeWord b)

/-- `SETCODE s, "bits"` (30_encoding.md R125). -/
def setCode (a : Nat) (b : Bits) : HostAccess := .writeCt a (codeWord b)

/-- `CLRCODE s` (30_encoding.md R125). -/
def clrCode (a : Nat) : HostAccess := .writeCt a 0#32

end Sys2Proof.Machine.Script
end

