-- ==== Sys2Proof/Safety.lean ====
section
/-! DEFINITION. The terms in which claims are made: the invariant of the state, what an append to the stream or to the message
changes and leaves, prefix-free code tables, and which faults a command can latch. -/

namespace Sys2Proof.Machine

/-! ## The invariant -/

/-- An entry of CT as every rule that writes CT leaves it (10_state.md R40): VALID = 1 implies 1 <= LEN <= 15 and
`CBITS[14:LEN] = 0`; VALID = 0 implies LEN = 0 and CBITS = 0. -/
def CodeEntry.Canonical (e : CodeEntry) : Prop :=
  if e.valid then 1 ≤ e.len.toNat ∧ e.cbits.toNat < 2 ^ e.len.toNat else e = CodeEntry.invalid

/-- An entry of DT that is not valid holds no symbol (10_state.md R42, R45). -/
def DecodeEntry.Canonical (e : DecodeEntry) : Prop := e.valid = false → e = DecodeEntry.invalid

/-- What holds of every state the block can be in: the parameters meet 00_scope.md R7; the counters and cursors are in range
(10_state.md R30 to R32); RPVAL is canonical (R28); ERRINFO is 0 while no fault is latched (R26); every store is in the
model's canonical form and lists no index it does not have (R37 to R42); CT entries are canonical (R40); DT entries are too, and
DT[0] is never written (R42). -/
structure State.Inv (s : State) : Prop where
  config : s.config.wf
  msgLen : s.msgLen.toNat ≤ s.config.msgMax.toNat
  esLen : s.esLen.toNat ≤ s.config.esMax.toNat
  rdPtr : s.rdPtr.toNat ≤ s.config.esMax.toNat
  rpVal : s.rpVal.toNat < 2 ^ s.rpLen.toNat
  errInfo : s.err = none → s.errInfo = 0#32
  msgWf : Memory.wf 0#8 s.msg
  msgBelow : Memory.below s.config.msgMax.toNat s.msg
  esWf : Memory.wf 0#8 s.es
  esBelow : Memory.below (s.config.esMax.toNat / 8) s.es
  freqWf : Memory.wf 0#32 s.freq
  freqBelow : Memory.below nSym s.freq
  ctWf : Memory.wf CodeEntry.invalid s.ct
  ctBelow : Memory.below nSym s.ct
  ctCanonical : ∀ a, (s.ctAt a).Canonical
  dtWf : Memory.wf DecodeEntry.invalid s.dt
  dtBelow : Memory.below dtSize s.dt
  dtCanonical : ∀ k, (s.dtAt k).Canonical
  dtZero : s.dtAt 0 = DecodeEntry.invalid

/-! ## Appends -/

/-- From `s` to `t` the bits `b` were appended to the stream at ESLEN: ESLEN advanced by `|b|`, the bits stand there, every other
bit of ES reads as before, and nothing but ES and ESLEN changed (00_scope.md R11). -/
structure Appended (b : Bits) (s t : State) : Prop where
  rest : t = { s with es := t.es, esLen := t.esLen }
  esLen : t.esLen.toNat = s.esLen.toNat + b.length
  bits : t.esBits s.esLen.toNat b.length = b
  others : ∀ q, q < s.esLen.toNat ∨ s.esLen.toNat + b.length ≤ q → t.esBit q = s.esBit q

/-- From `s` to `t` the symbols `m` were appended to the message at MSGLEN and RDPTR became `r`; every other element of MSG reads
as before, and nothing but MSG, MSGLEN and RDPTR changed (00_scope.md R11, 44_bitpacker_decoder.md R240). -/
structure Emitted (m : List Byte) (r : Nat) (s t : State) : Prop where
  rest : t = { s with msg := t.msg, msgLen := t.msgLen, rdPtr := t.rdPtr }
  msgLen : t.msgLen.toNat = s.msgLen.toNat + m.length
  symbols : (List.range m.length).map (fun j => t.msgAt (s.msgLen.toNat + j)) = m
  others : ∀ i, i < s.msgLen.toNat ∨ s.msgLen.toNat + m.length ≤ i → t.msgAt i = s.msgAt i
  rdPtr : t.rdPtr.toNat = r

/-- The state with fault `f` latched over `s` and the detail `info` (60_exceptions.md R283). -/
def State.latch (s : State) (f : FaultCode) (info : Word) : State := { s with err := some f, errInfo := info }

/-! ## Codes -/

/-- Neither string is a prefix of the other; in particular they differ (00_scope.md R8, R13 "Prefix-free"). -/
def Unrelated (a b : Bits) : Prop := ¬ a <+: b ∧ ¬ b <+: a

/-- The codes of two different symbols are never related: distinct and prefix-free (41_tree_builder.md R168). -/
def PrefixFreeCodes (codes : Codes) : Prop :=
  ∀ a c b d, (a, c) ∈ codes → (b, d) ∈ codes → a ≠ b → Unrelated c d

/-- The same of the valid entries of CT. -/
def State.PrefixFreeCt (s : State) : Prop :=
  ∀ a b, a < nSym → b < nSym → a ≠ b → (s.ctAt a).valid = true → (s.ctAt b).valid = true →
    Unrelated (s.ctAt a).code (s.ctAt b).code

/-- The valid entries of CT have pairwise distinct codes (43_header_codec.md R214). -/
def State.DistinctCodes (s : State) : Prop :=
  ∀ a b, a < nSym → b < nSym → (s.ctAt a).valid = true → (s.ctAt b).valid = true →
    (s.ctAt a).code = (s.ctAt b).code → a = b

/-- The sum over the alphabet of weight times code length (41_tree_builder.md R163). -/
def totalLength (ws : List (Nat × Nat)) (code : Nat → Bits) : Nat := (ws.map (fun p => p.2 * (code p.1).length)).sum

/-- What `State.weights` lists: symbols strictly rising and below 256, weights not 0 (41_tree_builder.md R150 line 2) and
below 2^32 (10_state.md R39). -/
structure Alphabet (ws : List (Nat × Nat)) : Prop where
  sorted : ws.Pairwise (fun a b => a.1 < b.1)
  symbols : ∀ p ∈ ws, p.1 < nSym
  weights : ∀ p ∈ ws, 0 < p.2 ∧ p.2 < 2 ^ 32

/-- The frequency table of the message `m` as the alphabet BUILD takes from it (40_frequency_model.md R137). -/
def alphabetOf (m : List Byte) : List (Nat × Nat) :=
  ((List.range nSym).map (fun a => (a, m.count (BitVec.ofNat 8 a)))).filter (fun p => p.2 != 0)

/-- The code that `codes` gives the symbol `a`, "" if none. -/
def codeIn (codes : Codes) (a : Nat) : Bits := (codes.lookup a).getD []

/-- One pass of the loop of 41_tree_builder.md R155, over `next_id` and a queue seen as a set of nodes: `lo` and `hi` are the two
nodes with the smallest keys (weight, id), and the merged node takes their place. -/
inductive MergePass : Nat × List Node → Nat × List Node → Prop where
  | pass {id : Nat} {q q' : List Node} {lo hi : Node} {rest : List Node} (taken : q.Perm (lo :: hi :: rest))
      (first : ∀ n ∈ hi :: rest, lo.weight < n.weight ∨ (lo.weight = n.weight ∧ lo.id < n.id))
      (second : ∀ n ∈ rest, hi.weight < n.weight ∨ (hi.weight = n.weight ∧ hi.id < n.id))
      (put : q'.Perm (Node.mk (lo.weight + hi.weight) id
        (lo.members.map (fun m => (m.1, false :: m.2)) ++ hi.members.map (fun m => (m.1, true :: m.2))) :: rest)) :
      MergePass (id, q) (id + 1, q')

/-- The loop of R155 from the queue `q`, with `next_id = |q|`, leaves the one node `n`. -/
def MergesTo (q : List Node) (n : Node) : Prop :=
  ∃ id, Relation.ReflTransGen MergePass (q.length, q) (id, [n])

/-! ## The stream and what the decoder finds in it -/

/-- One header entry as a receiver sees it: 8-bit symbol, 4-bit length, the code (30_encoding.md R97). -/
def headerEntry (e : Byte × Bits) : Bits := bitsOf 8 e.1.toNat ++ bitsOf 4 e.2.length ++ e.2

/-- `HLENF ++ ENTRY(e_0) ++ ...` (30_encoding.md R95). -/
def headerOf (es : List (Byte × Bits)) : Bits :=
  bitsOf 16 (es.flatMap headerEntry).length ++ es.flatMap headerEntry

/-- What DT holds at index `k` after the entries `es` are written in order into an empty table: the last entry whose code has
that index wins (43_header_codec.md R212). -/
def decodeEntryOf (es : List (Byte × Bits)) (k : Nat) : DecodeEntry :=
  match es.reverse.find? (fun e => idx e.2 == k) with
  | some e => { valid := true, sym := e.1 }
  | none => DecodeEntry.invalid

/-- The table `dt` decodes `c` to `v` and no shorter non-empty beginning of `c` to anything: SCAN emits `v` exactly when it has
read `c` (44_bitpacker_decoder.md R240, R246). -/
structure DecodesIn (dt : Nat → DecodeEntry) (v : Byte) (c : Bits) : Prop where
  nonempty : c ≠ []
  short : c.length ≤ codeMax
  entry : dt (idx c) = { valid := true, sym := v }
  noEarlier : ∀ k, 0 < k → k < c.length → (dt (idx (c.take k))).valid = false

/-- No non-empty beginning of `c` of at most 15 bits is in the table `dt`: SCAN reads `c` without a match
(44_bitpacker_decoder.md R240, R243). -/
def NeverMatchesIn (dt : Nat → DecodeEntry) (c : Bits) : Prop :=
  ∀ k, 0 < k → k ≤ c.length → k ≤ codeMax → (dt (idx (c.take k))).valid = false

/-- The same of the table that DT holds. -/
abbrev State.Decodes (s : State) (v : Byte) (c : Bits) : Prop := DecodesIn s.dtAt v c
abbrev State.NeverMatches (s : State) (c : Bits) : Prop := NeverMatchesIn s.dtAt c

/-- The codes CT gives the symbols `m`, concatenated in order (30_encoding.md R95, R98). -/
def State.payload (s : State) (m : List Byte) : Bits := m.flatMap (fun a => (s.ctAt a.toNat).code)

/-- `order` is the canonical order of CT: exactly the symbols with a valid entry, by (LEN, symbol) strictly rising
(41_tree_builder.md R165). -/
structure State.IsCanonicalOrder (s : State) (order : List Nat) : Prop where
  symbols : ∀ a, a ∈ order ↔ a < nSym ∧ (s.ctAt a).valid = true
  sorted : order.Pairwise (fun a b =>
    (s.ctAt a).len.toNat < (s.ctAt b).len.toNat ∨ ((s.ctAt a).len.toNat = (s.ctAt b).len.toNat ∧ a < b))

/-- The HLEN of the header whose entries are those of `order` (30_encoding.md R95, R96). -/
def State.hlenOf (s : State) (order : List Nat) : Nat := (order.map (fun a => 12 + (s.ctAt a).len.toNat)).sum

/-- `HLENF ++ ENTRY(e_0) ++ ... ++ ENTRY(e_{K-1})` for the entries of `order` in CT (30_encoding.md R95). -/
def State.headerOver (s : State) (order : List Nat) : Bits :=
  headerOf (order.map (fun a => (BitVec.ofNat 8 a, (s.ctAt a).code)))

/-- PADDING: "0" repeated `(8 - L mod 8) mod 8` times, L the length before it (30_encoding.md R95, R99). -/
def padding (l : Nat) : Bits := List.replicate ((padUnit - l % padUnit) % padUnit) false

/-- The header SERHDR writes: HLENF and the entries in canonical order (30_encoding.md R95). -/
def State.header (s : State) : Bits := bitsOf 16 s.hlen ++ s.canonicalOrder.flatMap s.entryBits

/-! ## Runs and reset -/

/-- `n` steps (each answers a next state). -/
def run : Nat → State → Host.Outcome State Fault Refusal
  | 0, s => .next s
  | n + 1, s =>
    match step s with
    | .next t => run n t
    | .fault r => .fault r
    | .refused r => .refused r

/-- In `s` the host access `a` leads to `t`, whatever the host does after it. -/
def State.Access (s : State) (a : HostAccess) (t : State) : Prop :=
  ∀ rest, step { s with script := a :: rest } = .next { t with script := rest }

/-- In `s` the host read `a` returns `v` and changes nothing of the block (20_memory.md R67). -/
def State.Reads (s : State) (a : HostAccess) (v : Word) : Prop :=
  s.Access a { s with readings := s.readings ++ [v] }

/-- The host script that reproduces ENCODE (70_reset_and_hazards.md R325). -/
def encodeScript (pad : Bool) : List HostAccess :=
  [.writeReg Script.regEsLen 0#32, Script.command .count, Script.command .build, Script.command .serhdr,
    Script.command .pack] ++ if pad then [Script.command .padb] else []

/-- The host script that reproduces DECODE (70_reset_and_hazards.md R325). -/
def decodeScript : List HostAccess :=
  [.writeReg Script.regRdPtr 0#32, .writeReg Script.regMsgLen 0#32, Script.command .deshdr, Script.command .scan]

/-- Every piece of state that the table of 10_state.md R45 lists has the value of the table, in a block with the parameters `c`. -/
structure State.AtReset (c : Config) (s : State) : Prop where
  status : s.readRegister Script.regStatus = 0#32
  errInfo : s.readRegister Script.regErrInfo = 0#32
  ctrl : s.readRegister Script.regCtrl = 0#32
  rpcfg : s.readRegister Script.regRpcfg = 0#32
  msgLen : s.readRegister Script.regMsgLen = 0#32
  esLen : s.readRegister Script.regEsLen = 0#32
  rdPtr : s.readRegister Script.regRdPtr = 0#32
  symLim : s.readRegister Script.regSymLim = 0#32
  ncode : s.readRegister Script.regNcode = 0#32
  msgMax : s.readRegister Script.regMsgMax = c.msgMax
  esMax : s.readRegister Script.regEsMax = c.esMax
  msg : ∀ i, s.msgAt i = 0#8
  es : ∀ p, s.esBit p = false
  freq : ∀ a, s.freqAt a = 0#32
  ct : ∀ a, s.ctAt a = { valid := false, len := 0#4, cbits := 0#15 }
  dt : ∀ k, s.dtAt k = { valid := false, sym := 0#8 }

/-! ## Faults of commands -/

/-- The faults each command can raise (60_exceptions.md R282, 30_encoding.md R93). -/
def faultsOf : Instr → List FaultCode
  | .nop | .sreset | .clrerr | .count | .padb => []
  | .realign | .serhdr => [.capacity]
  | .build => [.emptyAlphabet, .codeTooLong]
  | .pack => [.noCode, .capacity]
  | .encode => [.emptyAlphabet, .codeTooLong, .capacity]
  | .deshdr => [.malformedHeader]
  | .scan => [.unknownCode, .capacity]
  | .decode => [.malformedHeader, .unknownCode, .capacity]

end Sys2Proof.Machine
end

