-- ==== Sys2Proof/Certificates/Slice0/Obligations.lean ====
section
/-! DEFINITION. The statements for the provers. `State.Access`, `State.Reads`, `Appended`, `Emitted` and the other terms are
defined in Safety.lean. -/

section Statements
open Sys2Proof Sys2Proof.Machine

/-! ## Command words -/

/-- 30_encoding.md R92: the thirteen words of the opcode map, and some that are not in it. -/
def Obligations.OpcodeMapWordsDecode : Prop :=
  decode 0x00000000#32 = .ok .nop ∧ decode 0x00000001#32 = .ok .sreset ∧ decode 0x00000002#32 = .ok .clrerr ∧
  decode 0x00000003#32 = .ok .realign ∧ decode 0x00000004#32 = .ok .count ∧ decode 0x00000005#32 = .ok .build ∧
  decode 0x00000006#32 = .ok .serhdr ∧ decode 0x00000007#32 = .ok .pack ∧ decode 0x00000008#32 = .ok .padb ∧
  decode 0x00000009#32 = .ok .encode ∧ decode 0x0000000A#32 = .ok .deshdr ∧ decode 0x0000000B#32 = .ok .scan ∧
  decode 0x0000000C#32 = .ok .decode ∧ decode 0x0000000D#32 = .error .opcodeReserved ∧
  decode 0x000000FF#32 = .error .opcodeReserved ∧ decode 0x00000100#32 = .error .zeroFieldNotClear ∧
  decode 0x80000009#32 = .error .zeroFieldNotClear ∧ decodeTableWord 32 5 = some .build ∧ decodeTableWord 32 0x105 = none

/-- 30_encoding.md R91: decoding is total, every command word decodes to the command it encodes, and a word is a command only if
it is that command's encoding. -/
def Obligations.DecodeAndEncodeAgree : Prop :=
  (∀ i : Instr, i.wellFormed = true ∧ decode (encode i) = .ok i) ∧
  (∀ w i, decode w = .ok i → encode i = w) ∧
  (∀ w : Word, (w.extractLsb' 8 24 ≠ 0#24 ∨ 13 ≤ (w.extractLsb' 0 8).toNat) ↔ ∃ r, decode w = .error r) ∧
  (∀ row ∈ opcodeMap, row.mask = 0xFFFFFFFF#32 ∧ row.matchWord = encode row.instr ∧ row.matchWord.toNat = row.instr.opcode)

/-- 10_state.md R20, R24: a step whose next access writes a command word runs that command and nothing else; any other access has
its own effect; with no access to come nothing changes (log entry 2: the script is the model's own). -/
def Obligations.StepRunsDecodedCommand : Prop :=
  (∀ (s : State) (w : Word) (i : Instr) (rest : List HostAccess), s.script = .writeReg 0#8 w :: rest → decode w = .ok i →
    (s.err = none ∨ i = .sreset ∨ i = .clrerr) → step s = exec i { s with script := rest }) ∧
  (∀ (s : State) (i : Instr), s.err = none → step (s.withFetchWord 32 (encode i).toNat) = exec i s) ∧
  (∀ (s : State) (a : HostAccess) (rest : List HostAccess), s.script = a :: rest → a.commandWord = none →
    step s = .next (hostAccess a { s with script := rest })) ∧
  (∀ s : State, s.script = [] → step s = .next s)

/-- 30_encoding.md R94: an illegal word raises IllegalCommand(w) and changes nothing else, or is ignored by the latch; only NOP's
word is a no-op in every state; no word has undefined behaviour. -/
def Obligations.IllegalWordRaisesIllegalCommand : Prop :=
  (∀ (s : State) (w : Word), w.extractLsb' 8 24 ≠ 0#24 ∨ 13 ≤ (w.extractLsb' 0 8).toNat →
    s.Access (.writeReg 0#8 w)
      (if s.err = none then { s with err := some .illegalCommand, errInfo := w } else s)) ∧
  FaultCode.illegalCommand.code = 5#4 ∧
  (∀ w : Word, (∀ s : State, s.Inv → s.Access (.writeReg 0#8 w) s) → w = encode .nop) ∧
  (∀ (s : State) (w : Word) (rest : List HostAccess), ∃ t, step { s with script := .writeReg 0#8 w :: rest } = .next t)

/-- 60_exceptions.md R284: while a fault is latched a write of CMD is ignored unless the word is exactly SRESET or CLRERR; host
accesses are not affected; the latch holds the first fault until it is cleared. -/
def Obligations.LatchGatesCommands : Prop :=
  (∀ (s : State) (w : Word), s.err ≠ none → w ≠ 0x00000001#32 → w ≠ 0x00000002#32 → s.Access (.writeReg 0#8 w) s) ∧
  (∀ (s : State) (rest : List HostAccess),
    step { s with script := .writeReg 0#8 0x00000001#32 :: rest } = exec .sreset { s with script := rest } ∧
    step { s with script := .writeReg 0#8 0x00000002#32 :: rest } = exec .clrerr { s with script := rest }) ∧
  (∀ (s t : State) (a : HostAccess) (e : Option FaultCode) (info : Word), a.commandWord = none → a ≠ .hardwareReset →
    a ≠ .readReg 1#8 → a ≠ .readReg 2#8 → s.Access a t →
    State.Access { s with err := e, errInfo := info } a { t with err := e, errInfo := info }) ∧
  (∀ (s t : State) (a : HostAccess) (rest : List HostAccess), s.err ≠ none → s.script = a :: rest → a ≠ .hardwareReset →
    a.commandWord ≠ some 0x00000001#32 → a.commandWord ≠ some 0x00000002#32 → step s = .next t →
    t.err = s.err ∧ t.errInfo = s.errInfo)

/-! ## System commands and reset -/

/-- 45_macro_system.md R264. -/
def Obligations.NopChangesNothing : Prop :=
  encode .nop = 0x00000000#32 ∧ (∀ s, exec .nop s = .next s) ∧ (∀ s : State, s.Access (.writeReg 0#8 (encode .nop)) s)

/-- 45_macro_system.md R265: SRESET puts every piece of state at its reset value, keeps the parameters, and runs whatever ERR
holds. -/
def Obligations.SresetRestoresResetState : Prop :=
  encode .sreset = 0x00000001#32 ∧
  (∀ s, ∃ t, exec .sreset s = .next t ∧ t.AtReset s.config ∧ t.err = none ∧ t.config = s.config) ∧
  (∀ (s : State) (rest : List HostAccess), step { s with script := .writeReg 0#8 (encode .sreset) :: rest } =
    exec .sreset { s with script := rest })

/-- 10_state.md R45: the values of the table hold of the reset state (for every choice of the parameters), after SRESET, and after
the hardware reset. -/
def Obligations.ResetStateValues : Prop :=
  (∀ c, (State.resetFor c).AtReset c) ∧ State.reset.AtReset State.reset.config ∧
  (∀ s t, exec .sreset s = .next t → t.AtReset s.config) ∧
  (∀ (s t : State) (rest : List HostAccess), s.script = .hardwareReset :: rest → step s = .next t → t.AtReset s.config)

/-- 70_reset_and_hazards.md R320: the two resets have the same effect. The model's own fields `script` and `readings` stay (log
entry 4), and the hardware reset stands in the script (log entry 14). -/
def Obligations.HardwareResetActsAsSreset : Prop :=
  (∀ s : State, exec .sreset s = .next { State.resetFor s.config with script := s.script, readings := s.readings }) ∧
  (∀ (s : State) (rest : List HostAccess), s.script = .hardwareReset :: rest →
    step s = exec .sreset { s with script := rest })

/-- 45_macro_system.md R266: CLRERR clears ERR and ERRINFO and nothing else, runs whatever ERR holds, and with ERR = 0 (so
ERRINFO = 0, 10_state.md R26) changes nothing; the same command on the same state raises the same fault again. -/
def Obligations.ClrerrClearsOnlyTheLatch : Prop :=
  encode .clrerr = 0x00000002#32 ∧
  (∀ s : State, exec .clrerr s = .next { s with err := none, errInfo := 0#32 }) ∧
  (∀ s : State, s.Access (.writeReg 0#8 (encode .clrerr)) { s with err := none, errInfo := 0#32 }) ∧
  (∀ s : State, s.err = none → s.errInfo = 0#32 → exec .clrerr s = .next s) ∧
  (∀ (i : Instr) (s t u : State), exec i s = .next t → exec i s = .next u → u.err = t.err ∧ u.errInfo = t.errInfo)

/-! ## Host accesses -/

/-- 10_state.md R28: a write of RPCFG keeps RPLEN and the low RPLEN bits of RPVAL; a read returns the canonical form. -/
def Obligations.RpcfgWriteIsMasked : Prop :=
  ∀ (s : State) (w : Word), ∃ t v, s.Access (.writeReg 4#8 w) t ∧
    t = { s with rpLen := w.extractLsb' 16 4, rpVal := t.rpVal } ∧
    t.rpVal.toNat = (w.extractLsb' 0 15).toNat % 2 ^ (w.extractLsb' 16 4).toNat ∧
    t.Reads (.readReg 4#8) v ∧ v.extractLsb' 16 4 = t.rpLen ∧ v.extractLsb' 0 15 = t.rpVal ∧ v.getLsbD 15 = false ∧
    v.extractLsb' 20 12 = 0#12 ∧ (w.extractLsb' 16 4 = 0#4 → t.rp = [])

/-- 10_state.md R27, R30 to R33: what a write of CTRL, MSGLEN, ESLEN, RDPTR and SYMLIM does; an out-of-range length or cursor is
ignored. -/
def Obligations.OperandRegisterWrites : Prop :=
  ∀ (s : State) (w : Word),
    s.Access (.writeReg 3#8 w) { s with pad := w.getLsbD 0 } ∧
    s.Access (.writeReg 5#8 w) (if w.toNat ≤ s.config.msgMax.toNat then { s with msgLen := w } else s) ∧
    s.Access (.writeReg 6#8 w) (if w.toNat ≤ s.config.esMax.toNat then { s with esLen := w } else s) ∧
    s.Access (.writeReg 7#8 w) (if w.toNat ≤ s.config.esMax.toNat then { s with rdPtr := w } else s) ∧
    s.Access (.writeReg 8#8 w) { s with symLim := w }

/-- 10_state.md R36: reserved registers read 0 and ignore writes; read-only registers ignore writes. -/
def Obligations.ReservedAndReadOnlyRegisters : Prop :=
  (∀ (s : State) (r : BitVec 8) (w : Word), 12 ≤ r.toNat → s.Reads (.readReg r) 0#32 ∧ s.Access (.writeReg r w) s) ∧
  (∀ (s : State) (w : Word), s.Access (.writeReg 1#8 w) s ∧ s.Access (.writeReg 2#8 w) s ∧ s.Access (.writeReg 9#8 w) s ∧
    s.Access (.writeReg 10#8 w) s ∧ s.Access (.writeReg 11#8 w) s)

/-- 10_state.md R21 to R42, 20_memory.md R67: what every host read returns, register and store, in range and out of it; it changes
nothing of the block. That a FREQ or CT index of 256 or more reads 0 is the model's inference from row U19 of
93_implementation_defined.md (log entry 11, DEDUCED): R39 and R41 do not say it. -/
def Obligations.HostReadsReturnTheState : Prop :=
  ∀ s : State,
    s.Reads (.readReg 0#8) 0#32 ∧
    s.Reads (.readReg 1#8) (match s.err with | none => 0#32 | some f => f.code.setWidth 32) ∧
    s.Reads (.readReg 2#8) s.errInfo ∧
    s.Reads (.readReg 3#8) (if s.pad then 1#32 else 0#32) ∧
    (∃ v, s.Reads (.readReg 4#8) v ∧ v.extractLsb' 16 4 = s.rpLen ∧ v.extractLsb' 0 15 = s.rpVal ∧ v.getLsbD 15 = false ∧
      v.extractLsb' 20 12 = 0#12) ∧
    s.Reads (.readReg 5#8) s.msgLen ∧ s.Reads (.readReg 6#8) s.esLen ∧ s.Reads (.readReg 7#8) s.rdPtr ∧
    s.Reads (.readReg 8#8) s.symLim ∧
    s.Reads (.readReg 9#8) (BitVec.ofNat 32 ((List.range 256).filter (fun a => (s.ctAt a).valid)).length) ∧
    s.Reads (.readReg 10#8) s.config.msgMax ∧ s.Reads (.readReg 11#8) s.config.esMax ∧
    (∀ r : BitVec 8, 12 ≤ r.toNat → s.Reads (.readReg r) 0#32) ∧
    (∀ i, s.Reads (.readMsg i) (if i < s.config.msgMax.toNat then (s.msgAt i).setWidth 32 else 0#32)) ∧
    (∀ j, s.Reads (.readEsByte j) (if j < s.config.esMax.toNat / 8 then (s.esByte j).setWidth 32 else 0#32)) ∧
    (∀ a, s.Reads (.readFreq a) (if a < 256 then s.freqAt a else 0#32)) ∧
    (∀ a, a < 256 → ∃ v, s.Reads (.readCt a) v ∧ v.getLsbD 31 = (s.ctAt a).valid ∧ v.extractLsb' 16 4 = (s.ctAt a).len ∧
      v.extractLsb' 0 15 = (s.ctAt a).cbits ∧ v.extractLsb' 20 11 = 0#11 ∧ v.getLsbD 15 = false) ∧
    (∀ a, 256 ≤ a → s.Reads (.readCt a) 0#32) ∧
    (∀ k, s.Reads (.readDt k)
      (if k < 65536 ∧ (s.dtAt k).valid = true then 0x100#32 + (s.dtAt k).sym.setWidth 32 else 0#32))

/-- 10_state.md R37 to R39, R42: a write of an element of MSG, of ES by bytes or of FREQ sets it and nothing else (CT in range:
`CtHostAccess`); out of range of MSG and ES (R37, R38), and to DT (R42), it is ignored. That a write to a FREQ or CT index of
256 or more is ignored is the model's inference from row U19 of 93_implementation_defined.md (log entry 11, DEDUCED): R39 and
R41 do not say it. -/
def Obligations.HostStoreWrites : Prop :=
  ∀ s : State,
    (∀ i v, i < s.config.msgMax.toNat → ∃ t, s.Access (.writeMsg i v) t ∧ t = { s with msg := t.msg } ∧ t.msgAt i = v ∧
      ∀ j, j ≠ i → t.msgAt j = s.msgAt j) ∧
    (∀ i v, s.config.msgMax.toNat ≤ i → s.Access (.writeMsg i v) s) ∧
    (∀ i v, i < s.config.esMax.toNat / 8 → ∃ t, s.Access (.writeEsByte i v) t ∧ t = { s with es := t.es } ∧ t.esByte i = v ∧
      ∀ j, j ≠ i → t.esByte j = s.esByte j) ∧
    (∀ i v, s.config.esMax.toNat / 8 ≤ i → s.Access (.writeEsByte i v) s) ∧
    (∀ a v, a < 256 → ∃ t, s.Access (.writeFreq a v) t ∧ t = { s with freq := t.freq } ∧ t.freqAt a = v ∧
      ∀ b, b ≠ a → t.freqAt b = s.freqAt b) ∧
    (∀ a v, 256 ≤ a → s.Access (.writeFreq a v) s ∧ s.Access (.writeCt a v) s) ∧
    (∀ k v, s.Access (.writeDt k v) s)

/-- 20_memory.md R62, R64: stream bit p is bit 7 - (p mod 8) of byte p div 8, in both directions. -/
def Obligations.EsBytesAndBitsAreOneStore : Prop :=
  ∀ s : State,
    (∀ p, s.esBit p = (s.esByte (p / 8)).getLsbD (7 - p % 8)) ∧
    (∀ j, (s.esByte j).toNat = val (s.esBits (8 * j) 8)) ∧
    (∀ j v, j < s.config.esMax.toNat / 8 → ∃ t, s.Access (.writeEsByte j v) t ∧
      (∀ k, k < 8 → t.esBit (8 * j + k) = v.getLsbD (7 - k)) ∧ ∀ p, p / 8 ≠ j → t.esBit p = s.esBit p) ∧
    (∀ p b j k, k < 8 → ((s.setEsBit p b).esByte j).getLsbD (7 - k) =
      if 8 * j + k = p then b else (s.esByte j).getLsbD (7 - k)) ∧
    (s.esBits 0 16 = bitsOf 16 0x0029 → s.esByte 0 = 0x00#8 ∧ s.esByte 1 = 0x29#8)

/-- 10_state.md R41: host access to CT. -/
def Obligations.CtHostAccess : Prop :=
  ∀ (s : State) (a : Nat) (w : Word), a < 256 →
    (∃ t, s.Access (.writeCt a w) t ∧ t = { s with ct := t.ct } ∧ (∀ b, b ≠ a → t.ctAt b = s.ctAt b) ∧
      (w.extractLsb' 16 4 = 0#4 → t.ctAt a = { valid := false, len := 0#4, cbits := 0#15 }) ∧
      (w.extractLsb' 16 4 ≠ 0#4 → (t.ctAt a).valid = true ∧ (t.ctAt a).len = w.extractLsb' 16 4 ∧
        (t.ctAt a).cbits.toNat = (w.extractLsb' 0 15).toNat % 2 ^ (w.extractLsb' 16 4).toNat)) ∧
    (∃ v, s.Reads (.readCt a) v ∧ v.getLsbD 31 = (s.ctAt a).valid ∧ v.extractLsb' 16 4 = (s.ctAt a).len ∧
      v.extractLsb' 0 15 = (s.ctAt a).cbits ∧ v.extractLsb' 20 11 = 0#11 ∧ v.getLsbD 15 = false)

/-- 30_encoding.md R125: what the pseudo-instructions MSGSYM, ESBITS, SETRP, SETCODE and CLRCODE leave, as host scripts and
accesses (the script is the model's form, log entry 2). -/
def Obligations.PseudoInstructionsLoadTheirOperands : Prop :=
  ∀ s : State,
    (∀ vs : List Byte, vs.length ≤ s.config.msgMax.toNat →
      ∃ t, run (Script.msgSym vs).length { s with script := Script.msgSym vs ++ s.script } = .next t ∧
        t = { s with msg := t.msg, msgLen := t.msgLen } ∧ t.message = vs ∧
        ∀ i, vs.length ≤ i → t.msgAt i = s.msgAt i) ∧
    (∀ b : Bits, s.config.esMax.toNat % 8 = 0 → b.length ≤ s.config.esMax.toNat →
      ∃ t, run (Script.esBits b).length { s with script := Script.esBits b ++ s.script } = .next t ∧
        t = { s with es := t.es, esLen := t.esLen } ∧ t.stream = b ∧
        ∀ p, (b.length + 7) / 8 ≤ p / 8 → t.esBit p = s.esBit p) ∧
    (∀ b : Bits, b.length ≤ 15 → ∃ t, s.Access (Script.setRp b) t ∧ t = { s with rpLen := t.rpLen, rpVal := t.rpVal } ∧
      t.rp = b) ∧
    (∀ (a : Nat) (b : Bits), a < 256 → b ≠ [] → b.length ≤ 15 → ∃ t, s.Access (Script.setCode a b) t ∧
      t = { s with ct := t.ct } ∧ (t.ctAt a).valid = true ∧ (t.ctAt a).code = b ∧ ∀ c, c ≠ a → t.ctAt c = s.ctAt c) ∧
    (∀ a : Nat, a < 256 → ∃ t, s.Access (Script.clrCode a) t ∧ t = { s with ct := t.ct } ∧
      t.ctAt a = CodeEntry.invalid ∧ ∀ c, c ≠ a → t.ctAt c = s.ctAt c)

/-! ## REALIGN and COUNT -/

/-- 40_frequency_model.md R131: REALIGN writes one symbol for each chunk of 7 bits, or raises Capacity(n) and writes nothing. -/
def Obligations.RealignWritesChunks : Prop :=
  ∀ s : State,
    ((s.esLen.toNat + 6) / 7 ≤ s.config.msgMax.toNat → ∃ t, exec .realign s = .next t ∧
      t = { s with msg := t.msg, msgLen := t.msgLen } ∧ t.msgLen.toNat = (s.esLen.toNat + 6) / 7 ∧
      (∀ j, j < (s.esLen.toNat + 6) / 7 →
        (t.msgAt j).toNat = val (s.esBits (7 * j) (min (7 * j + 7) s.esLen.toNat - 7 * j))) ∧
      (∀ i, (s.esLen.toNat + 6) / 7 ≤ i → t.msgAt i = s.msgAt i)) ∧
    (s.config.msgMax.toNat < (s.esLen.toNat + 6) / 7 →
      exec .realign s = .next (s.latch .capacity (BitVec.ofNat 32 ((s.esLen.toNat + 6) / 7)))) ∧
    encode .realign = 0x00000003#32

/-- 40_frequency_model.md R137: after COUNT, FREQ[s] is the number of i < MSGLEN with MSG[i] = s, and the sum of all FREQ[s] is
MSGLEN; COUNT always ends so and changes nothing but FREQ. -/
def Obligations.CountCountsSymbols : Prop :=
  ∀ s : State, ∃ t, exec .count s = .next t ∧ t = { s with freq := t.freq } ∧
    (∀ a, a < 256 → (t.freqAt a).toNat =
      ((List.range s.msgLen.toNat).filter (fun i => (s.msgAt i).toNat = a)).length) ∧
    ((List.range 256).map (fun a => (t.freqAt a).toNat)).sum = s.msgLen.toNat ∧
    (∀ i, i < s.msgLen.toNat → 1 ≤ (t.freqAt (s.msgAt i).toNat).toNat)

/-! ## BUILD -/

/-- 41_tree_builder.md R151: with every FREQ[s] = 0 BUILD invalidates CT and raises EmptyAlphabet(0). -/
def Obligations.BuildRejectsEmptyAlphabet : Prop :=
  ∀ s : State, (∀ a, a < 256 → s.freqAt a = 0#32) → ∃ t, exec .build s = .next t ∧
    t = { s with ct := t.ct, err := some .emptyAlphabet, errInfo := 0#32 } ∧ ∀ a, t.ctAt a = CodeEntry.invalid

/-- 41_tree_builder.md R161: when no code is longer than 15 bits BUILD ends without fault, CT holds exactly the codes, and
NCODE = K. -/
def Obligations.BuildWritesTheCodes : Prop :=
  ∀ s : State, s.weights ≠ [] → (∀ a c, (a, c) ∈ buildCodes s.weights s.rp → c.length ≤ 15) →
    ∃ t, exec .build s = .next t ∧ t = { s with ct := t.ct } ∧
      (∀ a c, (a, c) ∈ buildCodes s.weights s.rp → 1 ≤ c.length ∧ (t.ctAt a).valid = true ∧
        (t.ctAt a).len.toNat = c.length ∧ (t.ctAt a).cbits.toNat = val c ∧ (t.ctAt a).code = c) ∧
      (∀ a, a < 256 → ((t.ctAt a).valid = true ↔ s.freqAt a ≠ 0#32)) ∧
      (∀ a, (t.ctAt a).valid = false → t.ctAt a = CodeEntry.invalid) ∧
      t.Reads (.readReg 9#8) (BitVec.ofNat 32 s.weights.length)

/-- 41_tree_builder.md R160: CodeTooLong names the smallest symbol with a code of more than 15 bits and that code's length; CT is
left invalid; it takes at least 17 symbols with the guard off and 16 with the guard on. -/
def Obligations.BuildRejectsLongCodes : Prop :=
  ∀ (s : State) (s0 : Nat) (c : Bits), (s0, c) ∈ buildCodes s.weights s.rp → 15 < c.length →
    (∀ a d, (a, d) ∈ buildCodes s.weights s.rp → a < s0 → d.length ≤ 15) →
    (∃ t, exec .build s = .next t ∧ t = { s with ct := t.ct, err := some .codeTooLong, errInfo := t.errInfo } ∧
      (∀ a, t.ctAt a = CodeEntry.invalid) ∧ t.errInfo.toNat = c.length * 2 ^ 16 + s0) ∧
    s0 < 256 ∧ c.length ≤ 256 ∧ (s.rpLen = 0#4 → 17 ≤ s.weights.length) ∧ (s.rpLen ≠ 0#4 → 16 ≤ s.weights.length)

/-- 41_tree_builder.md R164: the bounds of the code lengths after a BUILD without fault, K the number of symbols. -/
def Obligations.BuildCodeLengthBounds : Prop :=
  ∀ s t : State, exec .build s = .next t → t.err = none → ∀ a, a < 256 → (t.ctAt a).valid = true →
    (s.rpLen = 0#4 → s.weights.length = 1 → (t.ctAt a).len.toNat = 1) ∧
    (s.rpLen = 0#4 → 2 ≤ s.weights.length →
      1 ≤ (t.ctAt a).len.toNat ∧ (t.ctAt a).len.toNat ≤ s.weights.length - 1) ∧
    (s.rpLen ≠ 0#4 → s.weights.length = 1 → (t.ctAt a).len.toNat = 1) ∧
    (s.rpLen ≠ 0#4 → 2 ≤ s.weights.length → 2 ≤ (t.ctAt a).len.toNat ∧ (t.ctAt a).len.toNat ≤ s.weights.length)

/-- 42_prefix_guard.md R185 and, for the guard off, 41_tree_builder.md R158: an alphabet of one symbol. -/
def Obligations.BuildOfOneSymbol : Prop :=
  ∀ (s : State) (a : Nat), a < 256 → s.freqAt a ≠ 0#32 → (∀ b, b < 256 → b ≠ a → s.freqAt b = 0#32) →
    ∃ t, exec .build s = .next t ∧ t = { s with ct := t.ct } ∧ (t.ctAt a).valid = true ∧
      (t.ctAt a).code = (if s.rp = [false] then [true] else [false]) ∧ ∀ b, b ≠ a → t.ctAt b = CodeEntry.invalid

/-- 41_tree_builder.md R155: the codes are those of the loop that merges the two nodes of smallest key, over the queue as a set;
the loop ends with one node, and every run of it ends with the same codes. With the guard on, the dummy's pair is deleted and
the codes that start with RP are flipped (42_prefix_guard.md R183, R184). -/
def Obligations.BuildMergesTheTwoSmallest : Prop :=
  ∀ ws : List (Nat × Nat), Alphabet ws → ws ≠ [] →
    (∃ n, MergesTo (leaves ws) n) ∧
    (∀ n, MergesTo (leaves ws) n → n.weight = (ws.map (·.2)).sum ∧
      (2 ≤ ws.length → buildCodes ws [] = n.members)) ∧
    (∃ n, MergesTo (leaves ws ++ [dummyLeaf ws]) n) ∧
    (∀ n rp, MergesTo (leaves ws ++ [dummyLeaf ws]) n → rp ≠ [] →
      buildCodes ws rp = (n.members.filter (fun m => m.1 ≠ 256)).map
        (fun m => (m.1, if rp <+: m.2 then flip0 m.2 else m.2)))

/-- 41_tree_builder.md R159: the arena form, read from the root down, gives the same codes as the member lists, guard off and guard
on; it holds at most 257 leaves and 256 merged nodes. -/
def Obligations.ArenaFormGivesTheSameCodes : Prop :=
  ∀ ws : List (Nat × Nat), Alphabet ws → ws ≠ [] →
    arenaCodes ws = treeCodes (leaves ws) ∧
    arenaCodes (withDummy ws) = treeCodes (leaves ws ++ [dummyLeaf ws]) ∧
    (arenaOf ws).length = 2 * ws.length - 1 ∧ (arenaOf (withDummy ws)).length = 2 * ws.length + 1 ∧
    (withDummy ws).length ≤ 257 ∧ 2 * ws.length + 1 ≤ 513

/-- 41_tree_builder.md R157: the sum S of the real weights is below 2^40, the dummy weighs S + 1, and no node of the merge
weighs more than 2S + 1 < 2^41 < 2^42. -/
def Obligations.NodeWeightsFit : Prop :=
  ∀ s : State,
    (∀ a, (s.freqAt a).toNat < 2 ^ 32) ∧ (s.weights.map (·.2)).sum < 2 ^ 40 ∧
    (dummyLeaf s.weights).weight = (s.weights.map (·.2)).sum + 1 ∧
    (∀ k, ∀ n ∈ mergeLoop k s.weights.length (leaves s.weights), n.weight ≤ (s.weights.map (·.2)).sum) ∧
    (∀ k, ∀ n ∈ mergeLoop k (s.weights.length + 1) (leaves s.weights ++ [dummyLeaf s.weights]),
      n.weight ≤ 2 * (s.weights.map (·.2)).sum + 1 ∧ n.weight < 2 ^ 41)

/-- 41_tree_builder.md R168, 42_prefix_guard.md R187: after a BUILD without fault, guard off or on, the codes of the valid entries
are pairwise distinct and none is a prefix of another. -/
def Obligations.BuildIsPrefixFree : Prop :=
  ∀ s t : State, exec .build s = .next t → t.err = none → t.PrefixFreeCt

/-- 42_prefix_guard.md R186: after a BUILD with the guard on no code starts with RP. -/
def Obligations.BuildAvoidsReservedPrefix : Prop :=
  ∀ s t : State, s.rpLen ≠ 0#4 → exec .build s = .next t → t.err = none →
    ∀ a, a < 256 → (t.ctAt a).valid = true → ¬ s.rp <+: (t.ctAt a).code

/-- 42_prefix_guard.md R182, R184: with the guard on and two symbols or more, the code of s is "0" ++ g(s), g(s) the code that
BUILD gives s with the guard off, with its first bit flipped if it starts with RP. -/
def Obligations.GuardedCodesExtendUnguarded : Prop :=
  ∀ (s t : State) (a b : Nat), s.rpLen ≠ 0#4 → a < 256 → b < 256 → a ≠ b → s.freqAt a ≠ 0#32 → s.freqAt b ≠ 0#32 →
    exec .build s = .next t → t.err = none →
    ∃ u, exec .build { s with rpLen := 0#4 } = .next u ∧ u.err = none ∧
      ∀ x, x < 256 → (t.ctAt x).valid = (u.ctAt x).valid ∧ ((t.ctAt x).valid = true →
        (t.ctAt x).code = if s.rp <+: false :: (u.ctAt x).code then true :: (u.ctAt x).code else false :: (u.ctAt x).code)

/-- 41_tree_builder.md R162: BUILD is a function of (FREQ, RPCFG): the same inputs give the same CT, bit for bit; encoding the same
message twice with the same reserved prefix gives the same stream. -/
def Obligations.BuildDependsOnFreqAndRpcfg : Prop :=
  (∀ s s' t t' : State, (∀ a, a < 256 → s.freqAt a = s'.freqAt a) → s.rpcfgWord = s'.rpcfgWord →
    exec .build s = .next t → exec .build s' = .next t' → ∀ a, t.ctAt a = t'.ctAt a) ∧
  (∀ s s' t t' : State, s.message = s'.message → s.rpcfgWord = s'.rpcfgWord → s.pad = s'.pad → s.config = s'.config →
    s.err = none → s'.err = none → exec .encode s = .next t → exec .encode s' = .next t' →
    t.err = t'.err ∧ t.esLen = t'.esLen ∧ t.stream = t'.stream)

/-- 41_tree_builder.md R163: with the guard off no prefix-free code for the alphabet has a smaller sum of weight times length than
the table BUILD writes. -/
def Obligations.BuildIsOptimal : Prop :=
  ∀ (s t : State) (other : Nat → Bits), s.rpLen = 0#4 → exec .build s = .next t → t.err = none →
    (∀ a, a < 256 → s.freqAt a ≠ 0#32 → other a ≠ []) →
    (∀ a b, a < 256 → b < 256 → a ≠ b → s.freqAt a ≠ 0#32 → s.freqAt b ≠ 0#32 → Unrelated (other a) (other b)) →
    totalLength s.weights (fun a => (t.ctAt a).code) ≤ totalLength s.weights other

/-! ## SERHDR and DESHDR -/

/-- 43_header_codec.md R200, 41_tree_builder.md R165: CT has exactly one canonical order; SERHDR appends the header over it, or
raises Capacity(ESLEN) and writes nothing. -/
def Obligations.SerhdrAppendsTheHeader : Prop :=
  (∀ s : State, ∃ order, s.IsCanonicalOrder order ∧ ∀ other, s.IsCanonicalOrder other → other = order) ∧
  (∀ (s : State) (order : List Nat), s.IsCanonicalOrder order →
    (s.esLen.toNat + 16 + s.hlenOf order ≤ s.config.esMax.toNat → ∃ t, exec .serhdr s = .next t ∧
      Appended (bitsOf 16 (s.hlenOf order) ++
        order.flatMap (fun a => bitsOf 8 a ++ bitsOf 4 (s.ctAt a).len.toNat ++ (s.ctAt a).code)) s t ∧
      t.esLen.toNat = s.esLen.toNat + 16 + s.hlenOf order) ∧
    (s.config.esMax.toNat < s.esLen.toNat + 16 + s.hlenOf order → exec .serhdr s = .next (s.latch .capacity s.esLen)) ∧
    s.hlenOf order ≤ 6912) ∧
  encode .serhdr = 0x00000006#32

/-- 43_header_codec.md R210, R212: DESHDR of a header of whole entries ends without fault, with RDPTR at the first payload bit; DT
holds each code's symbol (the later of two entries with one code) and nothing else. -/
def Obligations.DeshdrParsesTheEntries : Prop :=
  ∀ (s : State) (es : List (Byte × Bits)), (∀ e ∈ es, e.2.length ≤ 15) → (es.flatMap headerEntry).length < 2 ^ 16 →
    s.rdPtr.toNat + (headerOf es).length ≤ s.esLen.toNat →
    s.esBits s.rdPtr.toNat (headerOf es).length = headerOf es →
    ∃ t, exec .deshdr s = .next t ∧ t = { s with dt := t.dt, rdPtr := t.rdPtr } ∧
      t.rdPtr.toNat = s.rdPtr.toNat + (headerOf es).length ∧ ∀ k, t.dtAt k = decodeEntryOf es k

/-- 43_header_codec.md R211: the state after MalformedHeader, in the four places it can be raised; `part` is the incomplete entry
that ends the header; the latch keeps SCAN from running. -/
def Obligations.DeshdrRejectsMalformedHeaders : Prop :=
  (∀ s : State, s.esLen.toNat < s.rdPtr.toNat + 16 → ∃ t, exec .deshdr s = .next t ∧
    t = { s with dt := t.dt, err := some .malformedHeader, errInfo := s.rdPtr } ∧ ∀ k, t.dtAt k = DecodeEntry.invalid) ∧
  (∀ s : State, s.rdPtr.toNat + 16 ≤ s.esLen.toNat →
    s.esLen.toNat < s.rdPtr.toNat + 16 + val (s.esBits s.rdPtr.toNat 16) → ∃ t, exec .deshdr s = .next t ∧
    t = { s with dt := t.dt, rdPtr := t.rdPtr, err := some .malformedHeader, errInfo := t.rdPtr } ∧
    t.rdPtr.toNat = s.rdPtr.toNat + 16 ∧ ∀ k, t.dtAt k = DecodeEntry.invalid) ∧
  (∀ (s : State) (es : List (Byte × Bits)) (part : Bits), (∀ e ∈ es, e.2.length ≤ 15) →
    (es.flatMap headerEntry ++ part).length < 2 ^ 16 →
    s.rdPtr.toNat + 16 + (es.flatMap headerEntry ++ part).length ≤ s.esLen.toNat →
    s.esBits s.rdPtr.toNat (16 + (es.flatMap headerEntry ++ part).length) =
      bitsOf 16 (es.flatMap headerEntry ++ part).length ++ (es.flatMap headerEntry ++ part) →
    part ≠ [] → (part.length < 12 ∨ part.length < 12 + val ((part.drop 8).take 4)) →
    ∃ t, exec .deshdr s = .next t ∧
      t = { s with dt := t.dt, rdPtr := t.rdPtr, err := some .malformedHeader, errInfo := t.rdPtr } ∧
      t.rdPtr.toNat = s.rdPtr.toNat + 16 + (es.flatMap headerEntry).length ∧ ∀ k, t.dtAt k = decodeEntryOf es k) ∧
  (∀ s t : State, exec .deshdr s = .next t → t.err = some .malformedHeader → t.Access (.writeReg 0#8 (encode .scan)) t)

/-- 43_header_codec.md R214: a table with pairwise distinct codes that SERHDR wrote at p is read back by DESHDR from p; of two
symbols with the same code the earlier in canonical order is not. -/
def Obligations.HeaderRoundTrip : Prop :=
  (∀ s t : State, s.DistinctCodes → exec .serhdr s = .next t → t.err = none →
    ∃ u, exec .deshdr { t with rdPtr := s.esLen } = .next u ∧ u.err = none ∧
      u.rdPtr = t.esLen ∧ u.rdPtr.toNat = s.esLen.toNat + 16 + s.hlen ∧
      (∀ a, a < 256 → (u.dtAt (idx (s.ctAt a).code) = { valid := true, sym := BitVec.ofNat 8 a } ↔
        (s.ctAt a).valid = true)) ∧
      (∀ k, (∀ a, a < 256 → (s.ctAt a).valid = true → k ≠ idx (s.ctAt a).code) → u.dtAt k = DecodeEntry.invalid)) ∧
  (∀ (s t : State) (order : List Nat) (a b : Nat), exec .serhdr s = .next t → t.err = none → s.IsCanonicalOrder order →
    [a, b].Sublist order → (s.ctAt a).code = (s.ctAt b).code →
    ∃ u, exec .deshdr { t with rdPtr := s.esLen } = .next u ∧
      u.dtAt (idx (s.ctAt a).code) ≠ { valid := true, sym := BitVec.ofNat 8 a })

/-! ## PACK and PADB -/

/-- 44_bitpacker_decoder.md R230, R231: PACK appends the codes of the message in order; it stops at the first symbol without a code
(NoCode(i)) or whose code does not fit (Capacity(ESLEN)), with the codes before it appended. -/
def Obligations.PackAppendsTheCodes : Prop :=
  (∀ s : State, (∀ a ∈ s.message, (s.ctAt a.toNat).valid = true) →
    s.esLen.toNat + (s.payload s.message).length ≤ s.config.esMax.toNat →
    ∃ t, exec .pack s = .next t ∧ Appended (s.payload s.message) s t) ∧
  (∀ (s : State) (i : Nat), i < s.msgLen.toNat → (∀ a ∈ s.message.take i, (s.ctAt a.toNat).valid = true) →
    s.esLen.toNat + (s.payload (s.message.take i)).length ≤ s.config.esMax.toNat →
    (s.ctAt (s.msgAt i).toNat).valid = false →
    ∃ t, Appended (s.payload (s.message.take i)) s t ∧ exec .pack s = .next (t.latch .noCode (BitVec.ofNat 32 i))) ∧
  (∀ (s : State) (i : Nat), i < s.msgLen.toNat → (∀ a ∈ s.message.take (i + 1), (s.ctAt a.toNat).valid = true) →
    s.esLen.toNat + (s.payload (s.message.take i)).length ≤ s.config.esMax.toNat →
    s.config.esMax.toNat < s.esLen.toNat + (s.payload (s.message.take (i + 1))).length →
    ∃ t, Appended (s.payload (s.message.take i)) s t ∧ exec .pack s = .next (t.latch .capacity t.esLen)) ∧
  encode .pack = 0x00000007#32

/-- 44_bitpacker_decoder.md R236: PADB appends `(8 - ESLEN mod 8) mod 8` zero bits and cannot fault. -/
def Obligations.PadbPadsToAByte : Prop :=
  (∀ s : State, s.config.esMax.toNat % 8 = 0 → s.esLen.toNat ≤ s.config.esMax.toNat →
    ∃ t, exec .padb s = .next t ∧ Appended (List.replicate ((8 - s.esLen.toNat % 8) % 8) false) s t ∧
      t.esLen.toNat % 8 = 0) ∧
  encode .padb = 0x00000008#32

/-! ## SCAN -/

/-- 44_bitpacker_decoder.md R240, R243: a payload of codes and a leftover that matches nothing: the symbols are appended, RDPTR
is ESLEN, and a leftover of 8 bits or more raises UnknownCode with the index of its first bit. An empty payload does nothing
(R245). -/
def Obligations.ScanToTheEndOfThePayload : Prop :=
  (∀ (s : State) (ms : List (Byte × Bits)) (left : Bits), (∀ m ∈ ms, s.Decodes m.1 m.2) → s.NeverMatches left →
    s.rdPtr.toNat + (ms.flatMap (·.2) ++ left).length = s.esLen.toNat →
    s.esBits s.rdPtr.toNat (ms.flatMap (·.2) ++ left).length = ms.flatMap (·.2) ++ left →
    s.msgLen.toNat + ms.length ≤ s.config.msgMax.toNat → (s.symLim = 0#32 ∨ ms.length < s.symLim.toNat) →
    ∃ t, Emitted (ms.map (·.1)) s.esLen.toNat s t ∧
      (left.length < 8 → exec .scan s = .next t) ∧
      (8 ≤ left.length → exec .scan s =
        .next (t.latch .unknownCode (BitVec.ofNat 32 (s.rdPtr.toNat + (ms.flatMap (·.2)).length))))) ∧
  (∀ s : State, s.esLen.toNat ≤ s.rdPtr.toNat → exec .scan s = .next s)

/-- 44_bitpacker_decoder.md R242: with SYMLIM = n > 0 SCAN stops just after the n-th symbol, whatever bits follow; if the payload
ends before, it ends as with SYMLIM = 0. -/
def Obligations.ScanStopsAtTheSymbolLimit : Prop :=
  (∀ (s : State) (ms : List (Byte × Bits)), (∀ m ∈ ms, s.Decodes m.1 m.2) → s.symLim ≠ 0#32 →
    ms.length = s.symLim.toNat → s.rdPtr.toNat + (ms.flatMap (·.2)).length ≤ s.esLen.toNat →
    s.esBits s.rdPtr.toNat (ms.flatMap (·.2)).length = ms.flatMap (·.2) →
    s.msgLen.toNat + ms.length ≤ s.config.msgMax.toNat →
    ∃ t, exec .scan s = .next t ∧
      Emitted (ms.map (·.1)) (s.rdPtr.toNat + (ms.flatMap (·.2)).length) s t) ∧
  (∀ (s : State) (ms : List (Byte × Bits)) (left : Bits), (∀ m ∈ ms, s.Decodes m.1 m.2) → s.NeverMatches left →
    s.rdPtr.toNat + (ms.flatMap (·.2) ++ left).length = s.esLen.toNat →
    s.esBits s.rdPtr.toNat (ms.flatMap (·.2) ++ left).length = ms.flatMap (·.2) ++ left →
    s.msgLen.toNat + ms.length ≤ s.config.msgMax.toNat → ms.length < s.symLim.toNat →
    ∃ t, exec .scan s = .next t ∧ exec .scan { s with symLim := 0#32 } = .next { t with symLim := 0#32 })

/-- 44_bitpacker_decoder.md R244: a match with MSGLEN = MSG_MAX raises Capacity(MSG_MAX), RDPTR past the matched code, the symbol
not stored. -/
def Obligations.ScanRaisesCapacity : Prop :=
  ∀ (s : State) (ms : List (Byte × Bits)) (v : Byte) (c : Bits), (∀ m ∈ ms, s.Decodes m.1 m.2) → s.Decodes v c →
    s.rdPtr.toNat + (ms.flatMap (·.2) ++ c).length ≤ s.esLen.toNat →
    s.esBits s.rdPtr.toNat (ms.flatMap (·.2) ++ c).length = ms.flatMap (·.2) ++ c →
    s.msgLen.toNat + ms.length = s.config.msgMax.toNat → (s.symLim = 0#32 ∨ ms.length < s.symLim.toNat) →
    ∃ t, Emitted (ms.map (·.1)) (s.rdPtr.toNat + (ms.flatMap (·.2) ++ c).length) s t ∧
      exec .scan s = .next (t.latch .capacity s.config.msgMax)

/-- 44_bitpacker_decoder.md R248: p pad bits after complete codes decode as `p div L0` copies of the symbol of the shortest
all-zero code that DT holds, of L0 bits; with none they decode as nothing. -/
def Obligations.PadBitsDecodeAsSymbols : Prop :=
  ∀ (s : State) (ms : List (Byte × Bits)) (p : Nat), (∀ m ∈ ms, s.Decodes m.1 m.2) → p ≤ 7 →
    s.rdPtr.toNat + (ms.flatMap (·.2)).length + p = s.esLen.toNat →
    s.esBits s.rdPtr.toNat ((ms.flatMap (·.2)).length + p) = ms.flatMap (·.2) ++ List.replicate p false →
    s.symLim = 0#32 →
    (∀ l0 v, 1 ≤ l0 → l0 ≤ 15 → s.dtAt (idx (List.replicate l0 false)) = { valid := true, sym := v } →
      (∀ l, 1 ≤ l → l < l0 → (s.dtAt (idx (List.replicate l false))).valid = false) →
      s.msgLen.toNat + ms.length + p / l0 ≤ s.config.msgMax.toNat →
      ∃ t, exec .scan s = .next t ∧ Emitted (ms.map (·.1) ++ List.replicate (p / l0) v) s.esLen.toNat s t) ∧
    ((∀ l, 1 ≤ l → l ≤ 15 → (s.dtAt (idx (List.replicate l false))).valid = false) →
      s.msgLen.toNat + ms.length ≤ s.config.msgMax.toNat →
      ∃ t, exec .scan s = .next t ∧ Emitted (ms.map (·.1)) s.esLen.toNat s t)

/-! ## ENCODE and DECODE -/

/-- 70_reset_and_hazards.md R325: the orders of primitive commands that reproduce ENCODE and DECODE, as host scripts: the same
final state, also when a line raises (the latch then ignores the later lines). -/
def Obligations.MacrosAreTheirScripts : Prop :=
  ∀ s : State, s.err = none →
    run (encodeScript s.pad).length { s with script := encodeScript s.pad ++ s.script } = exec .encode s ∧
    run decodeScript.length { s with script := decodeScript ++ s.script } = exec .decode s

/-- 45_macro_system.md R260, 70_reset_and_hazards.md R323: when ENCODE ends without fault: a message, codes of at most 15 bits,
and a stream that fits. -/
def Obligations.EncodeCompletes : Prop :=
  ∀ (s : State) (codes : Codes), codes = buildCodes (alphabetOf s.message) s.rp → s.message ≠ [] →
    s.config.esMax.toNat % 8 = 0 → (∀ a c, (a, c) ∈ codes → c.length ≤ 15) →
    16 + (codes.map (fun c => 12 + c.2.length)).sum + (s.message.flatMap (fun a => codeIn codes a.toNat)).length
      ≤ s.config.esMax.toNat →
    ∃ t, exec .encode s = .next t ∧ t = { s with freq := t.freq, ct := t.ct, es := t.es, esLen := t.esLen } ∧
      (∀ a c, (a, c) ∈ codes → (t.ctAt a).valid = true ∧ (t.ctAt a).code = c) ∧
      t.payload s.message = s.message.flatMap (fun a => codeIn codes a.toNat)

/-- 30_encoding.md R95: after an ENCODE without fault the stream is the header over the canonical order of the table, the codes of
the message, and, with CTRL.PAD = 1, the padding. -/
def Obligations.EncodeProducesTheStream : Prop :=
  ∀ s t : State, exec .encode s = .next t → s.err = none → t.err = none →
    ∃ order, t.IsCanonicalOrder order ∧ (∀ a ∈ s.message, (t.ctAt a.toNat).valid = true) ∧
      t.stream = t.headerOver order ++ t.payload s.message ++
        (if s.pad then padding (t.headerOver order ++ t.payload s.message).length else [])

/-- 45_macro_system.md R261, points 2 to 5: the states ENCODE leaves when it raises. On Capacity CT holds the codes that BUILD makes
for the message (`buildCodes` of its symbol counts), so it is valid exactly at the symbols of the message. -/
def Obligations.EncodeFaultStates : Prop :=
  (∀ s : State, s.msgLen = 0#32 → ∃ t, exec .encode s = .next t ∧ t.err = some .emptyAlphabet ∧ t.errInfo = 0#32 ∧
    t.esLen = 0#32 ∧ (∀ a, t.freqAt a = 0#32) ∧ ∀ a, t.ctAt a = CodeEntry.invalid) ∧
  (∀ s t : State, exec .encode s = .next t → s.err = none →
    (t.err = some .codeTooLong → t.esLen = 0#32 ∧ (∀ a, t.ctAt a = CodeEntry.invalid) ∧
      ∀ a : Byte, (t.freqAt a.toNat).toNat = s.message.count a) ∧
    (t.err = some .capacity → (∀ a : Byte, (t.freqAt a.toNat).toNat = s.message.count a) ∧
      (∀ a c, (a, c) ∈ buildCodes (alphabetOf s.message) s.rp → (t.ctAt a).valid = true ∧ (t.ctAt a).code = c) ∧
      (∀ a : Byte, (t.ctAt a.toNat).valid = true ↔ a ∈ s.message) ∧
      (s.config.esMax.toNat % 8 = 0 → t.errInfo = t.esLen ∧
        ((t.esLen = 0#32 ∧ t.config.esMax.toNat < 16 + t.hlen) ∨
          ∃ i, i < s.msgLen.toNat ∧ t.esLen.toNat = 16 + t.hlen + (t.payload (s.message.take i)).length ∧
            t.config.esMax.toNat < 16 + t.hlen + (t.payload (s.message.take (i + 1))).length))))

/-- 45_macro_system.md R262, 70_reset_and_hazards.md R324: DECODE of a stream of whole header entries, codes and a leftover of at
most 7 bits ends without fault; the message is the symbols of the codes. -/
def Obligations.DecodeRecoversTheSymbols : Prop :=
  ∀ (s : State) (es ms : List (Byte × Bits)) (left : Bits), (∀ e ∈ es, e.2.length ≤ 15) →
    (es.flatMap headerEntry).length < 2 ^ 16 → (∀ m ∈ ms, DecodesIn (decodeEntryOf es) m.1 m.2) →
    NeverMatchesIn (decodeEntryOf es) left → left.length < 8 →
    s.stream = headerOf es ++ ms.flatMap (·.2) ++ left → ms.length ≤ s.config.msgMax.toNat →
    (s.symLim = 0#32 ∨ ms.length < s.symLim.toNat) →
    ∃ t, exec .decode s = .next t ∧
      t = { s with dt := t.dt, msg := t.msg, msgLen := t.msgLen, rdPtr := s.esLen } ∧
      t.message = ms.map (·.1) ∧ t.msgLen.toNat = ms.length ∧
      (∀ k, t.dtAt k = decodeEntryOf es k) ∧ ∀ i, ms.length ≤ i → t.msgAt i = s.msgAt i

/-- 45_macro_system.md R263 (a): an unpadded stream decoded with no symbol limit gives the message back. -/
def Obligations.RoundTripUnpadded : Prop :=
  ∀ s t d : State, s.err = none → s.msgLen.toNat ≤ s.config.msgMax.toNat → s.pad = false →
    exec .encode s = .next t → t.err = none → d.config = t.config → d.err = none → d.symLim = 0#32 → d.stream = t.stream →
    ∃ u, exec .decode d = .next u ∧ u.err = none ∧ u.message = s.message ∧ u.msgLen = s.msgLen

/-- 45_macro_system.md R263 (b): a stream, padded or not, decoded with SYMLIM = n gives the message back, and RDPTR is the index of
the first pad bit. -/
def Obligations.RoundTripWithSymbolCount : Prop :=
  ∀ s t d : State, s.err = none → s.msgLen.toNat ≤ s.config.msgMax.toNat →
    exec .encode s = .next t → t.err = none → d.config = t.config → d.err = none → d.symLim = s.msgLen →
    d.stream = t.stream →
    ∃ u, exec .decode d = .next u ∧ u.err = none ∧ u.message = s.message ∧ u.msgLen = s.msgLen ∧
      u.rdPtr.toNat = 16 + t.hlen + (t.payload s.message).length

/-- 45_macro_system.md R263 (c): a padded stream decoded with no symbol limit gives the message and q copies of the symbol of the
all-zero code, q = p div its length for p pad bits (0 when there is no such code), or raises Capacity. -/
def Obligations.RoundTripPadded : Prop :=
  ∀ (s t d : State) (p : Nat), s.err = none → s.msgLen.toNat ≤ s.config.msgMax.toNat → s.pad = true →
    exec .encode s = .next t → t.err = none → d.config = t.config → d.err = none → d.symLim = 0#32 → d.stream = t.stream →
    p = t.esLen.toNat - (16 + t.hlen + (t.payload s.message).length) →
    p ≤ 7 ∧
    (∀ z : Byte, (t.ctAt z.toNat).valid = true → (∀ x ∈ (t.ctAt z.toNat).code, x = false) →
      (s.msgLen.toNat + p / (t.ctAt z.toNat).len.toNat ≤ s.config.msgMax.toNat →
        ∃ u, exec .decode d = .next u ∧ u.err = none ∧
          u.message = s.message ++ List.replicate (p / (t.ctAt z.toNat).len.toNat) z) ∧
      (s.config.msgMax.toNat < s.msgLen.toNat + p / (t.ctAt z.toNat).len.toNat →
        ∃ u, exec .decode d = .next u ∧ u.err = some .capacity ∧ u.errInfo = s.config.msgMax)) ∧
    ((∀ z : Byte, (t.ctAt z.toNat).valid = true → ∃ x ∈ (t.ctAt z.toNat).code, x = true) →
      ∃ u, exec .decode d = .next u ∧ u.err = none ∧ u.message = s.message)

/-! ## Frames, faults and independence -/

/-- The frame of SERHDR, PACK, PADB and ENCODE (30_encoding.md R93): only ES, ESLEN and the latch change (ENCODE: FREQ and CT too),
and of ES only the bits from the old ESLEN (ENCODE: from 0) up to the new one. -/
def Obligations.FrameOfStreamCommands : Prop :=
  ∀ s t : State,
    (∀ i, i = Instr.serhdr ∨ i = Instr.pack ∨ i = Instr.padb → exec i s = .next t →
      t = { s with es := t.es, esLen := t.esLen, err := t.err, errInfo := t.errInfo } ∧ s.esLen.toNat ≤ t.esLen.toNat ∧
      (∀ q, q < s.esLen.toNat ∨ t.esLen.toNat ≤ q → t.esBit q = s.esBit q) ∧ (t.err = none → t.errInfo = s.errInfo)) ∧
    (exec .encode s = .next t →
      t = { s with freq := t.freq, ct := t.ct, es := t.es, esLen := t.esLen, err := t.err, errInfo := t.errInfo } ∧
      (∀ q, t.esLen.toNat ≤ q → t.esBit q = s.esBit q) ∧ (t.err = none → t.errInfo = s.errInfo))

/-- The frame of REALIGN, SCAN and DECODE (30_encoding.md R93): only MSG, MSGLEN, RDPTR (not REALIGN), DT (DECODE only) and the
latch change, and of MSG only the elements the command stores to. -/
def Obligations.FrameOfMessageCommands : Prop :=
  ∀ s t : State, s.Inv →
    (exec .realign s = .next t → t = { s with msg := t.msg, msgLen := t.msgLen, err := t.err, errInfo := t.errInfo } ∧
      (∀ i, (s.esLen.toNat + 6) / 7 ≤ i → t.msgAt i = s.msgAt i) ∧ (t.err = none → t.errInfo = s.errInfo)) ∧
    (exec .scan s = .next t →
      t = { s with msg := t.msg, msgLen := t.msgLen, rdPtr := t.rdPtr, err := t.err, errInfo := t.errInfo } ∧
      s.msgLen.toNat ≤ t.msgLen.toNat ∧ s.rdPtr.toNat ≤ t.rdPtr.toNat ∧
      t.rdPtr.toNat ≤ max s.rdPtr.toNat s.esLen.toNat ∧
      (∀ i, i < s.msgLen.toNat ∨ t.msgLen.toNat ≤ i → t.msgAt i = s.msgAt i) ∧ (t.err = none → t.errInfo = s.errInfo)) ∧
    (exec .decode s = .next t →
      t = { s with dt := t.dt, msg := t.msg, msgLen := t.msgLen, rdPtr := t.rdPtr, err := t.err, errInfo := t.errInfo } ∧
      t.rdPtr.toNat ≤ s.esLen.toNat ∧ (∀ i, t.msgLen.toNat ≤ i → t.msgAt i = s.msgAt i) ∧
      (t.err = none → t.errInfo = s.errInfo))

/-- The frame of COUNT, BUILD and DESHDR (30_encoding.md R93): FREQ; CT and the latch; DT, RDPTR and the latch; nothing else. -/
def Obligations.FrameOfTableCommands : Prop :=
  ∀ s t : State,
    (exec .count s = .next t → t = { s with freq := t.freq } ∧ ∀ a, 256 ≤ a → t.freqAt a = 0#32) ∧
    (exec .build s = .next t → t = { s with ct := t.ct, err := t.err, errInfo := t.errInfo } ∧
      (∀ a, 256 ≤ a → t.ctAt a = CodeEntry.invalid) ∧ (t.err = none → t.errInfo = s.errInfo)) ∧
    (exec .deshdr s = .next t → t = { s with dt := t.dt, rdPtr := t.rdPtr, err := t.err, errInfo := t.errInfo } ∧
      (s.rdPtr.toNat ≤ s.esLen.toNat → s.rdPtr.toNat ≤ t.rdPtr.toNat ∧ t.rdPtr.toNat ≤ s.esLen.toNat) ∧
      (t.err = none → t.errInfo = s.errInfo))

/-- 60_exceptions.md R282, 30_encoding.md R93: each command raises only the faults listed for it; in particular ENCODE never raises
NoCode (45_macro_system.md R261) and NOP, SRESET, CLRERR, COUNT and PADB raise nothing. -/
def Obligations.CommandsRaiseOnlyTheirFaults : Prop :=
  ∀ (i : Instr) (s t : State) (f : FaultCode), s.Inv → s.err = none → exec i s = .next t → t.err = some f → f ∈ faultsOf i

/-- 42_prefix_guard.md R180, 45_macro_system.md R262, 70_reset_and_hazards.md R324: RP is read by BUILD only (and so by ENCODE), and
decoding uses none of the encoder's tables. -/
def Obligations.DecodingIgnoresTheEncoder : Prop :=
  (∀ (i : Instr) (s t : State) (l : BitVec 4) (v : BitVec 15),
    i = .serhdr ∨ i = .pack ∨ i = .padb ∨ i = .deshdr ∨ i = .scan ∨ i = .realign ∨ i = .count →
    exec i s = .next t → exec i { s with rpLen := l, rpVal := v } = .next { t with rpLen := l, rpVal := v }) ∧
  (∀ (s t : State) (l : BitVec 4) (v : BitVec 15) (pad : Bool) (freq : List (Nat × Word)) (ct : List (Nat × CodeEntry)),
    exec .decode s = .next t →
    exec .decode { s with rpLen := l, rpVal := v, pad := pad, freq := freq, ct := ct } =
      .next { t with rpLen := l, rpVal := v, pad := pad, freq := freq, ct := ct })

/-! ## Every step -/

/-- 70_reset_and_hazards.md R340, 10_state.md R35: every step and every command ends in a next state, and none changes MSG_MAX or
ES_MAX. -/
def Obligations.StepsEndAndKeepTheParameters : Prop :=
  (∀ s : State, ∃ t, step s = .next t ∧ t.config = s.config) ∧
  (∀ (i : Instr) (s : State), ∃ t, exec i s = .next t ∧ t.config = s.config)

/-- The invariant of Safety.lean (10_state.md R26, R28, R30 to R32, R37 to R42; the canonical form of the stores is the model's,
log entry 7) is kept by every step. -/
def Obligations.StepKeepsTheInvariant : Prop :=
  ∀ s t : State, s.Inv → step s = .next t → t.Inv

/-- The invariant holds of the reset state, for every choice of the parameters that 00_scope.md R7 allows, and of
`State.reset` (log entry 1). -/
def Obligations.ResetMeetsTheInvariant : Prop :=
  (∀ c : Config, c.wf → (State.resetFor c).Inv) ∧ State.reset.Inv

/-- 70_reset_and_hazards.md R322: what each of the thirteen commands does from the reset state (NOP, SRESET and CLRERR by
45_macro_system.md R264 to R266). -/
def Obligations.EveryCommandIsDefinedFromReset : Prop :=
  ∀ c : Config, c.wf →
    exec .nop (State.resetFor c) = .next (State.resetFor c) ∧
    exec .sreset (State.resetFor c) = .next (State.resetFor c) ∧
    exec .clrerr (State.resetFor c) = .next (State.resetFor c) ∧
    exec .count (State.resetFor c) = .next (State.resetFor c) ∧
    exec .build (State.resetFor c) = .next ((State.resetFor c).latch .emptyAlphabet 0#32) ∧
    exec .encode (State.resetFor c) = .next ((State.resetFor c).latch .emptyAlphabet 0#32) ∧
    (∃ t, exec .serhdr (State.resetFor c) = .next t ∧ Appended (List.replicate 16 false) (State.resetFor c) t) ∧
    exec .pack (State.resetFor c) = .next (State.resetFor c) ∧
    exec .padb (State.resetFor c) = .next (State.resetFor c) ∧
    exec .realign (State.resetFor c) = .next (State.resetFor c) ∧
    exec .deshdr (State.resetFor c) = .next ((State.resetFor c).latch .malformedHeader 0#32) ∧
    exec .decode (State.resetFor c) = .next ((State.resetFor c).latch .malformedHeader 0#32) ∧
    exec .scan (State.resetFor c) = .next (State.resetFor c)

end Statements
end

