-- ==== Sys2Proof/Laws/BitString.lean ====
section
/-! SUPPORT. The laws of bit strings and their numbers (00_scope.md R8, R9) and of the one bit of a byte (20_memory.md R62). -/

namespace Sys2Proof.Machine

/-! ## Values -/

@[simp] theorem val_nil : val [] = 0 := rfl

theorem val_foldl (b : Bits) (v : Nat) :
    b.foldl (fun v x => 2 * v + x.toNat) v = v * 2 ^ b.length + val b := by
  induction b generalizing v with
  | nil => simp
  | cons x b ih =>
    have hc : val (x :: b) = b.foldl (fun v x => 2 * v + x.toNat) (2 * 0 + x.toNat) := rfl
    rw [List.foldl_cons, ih, hc, ih, List.length_cons]
    ring

theorem val_cons (x : Bool) (b : Bits) : val (x :: b) = x.toNat * 2 ^ b.length + val b := by
  have hc : val (x :: b) = b.foldl (fun v x => 2 * v + x.toNat) (2 * 0 + x.toNat) := rfl
  rw [hc, val_foldl, Nat.mul_zero, Nat.zero_add]

theorem val_append (a b : Bits) : val (a ++ b) = val a * 2 ^ b.length + val b := by
  rw [val, List.foldl_append, val_foldl]
  rfl

theorem val_lt (b : Bits) : val b < 2 ^ b.length := by
  induction b with
  | nil => simp
  | cons x b ih =>
    rw [val_cons, List.length_cons, pow_succ]
    cases x <;> simp <;> omega

/-! ## `bits_n(v)` -/

@[simp] theorem length_bitsOf (n v : Nat) : (bitsOf n v).length = n := by
  induction n with
  | zero => rfl
  | succ n ih => simp [bitsOf, ih]

@[simp] theorem bitsOf_zero_left (v : Nat) : bitsOf 0 v = [] := rfl

theorem val_bitsOf_mod (n v : Nat) : val (bitsOf n v) = v % 2 ^ n := by
  induction n with
  | zero => simp [bitsOf, Nat.mod_one]
  | succ n ih =>
    rw [bitsOf, val_cons, ih, length_bitsOf, Nat.mod_pow_succ, Nat.testBit_eq_decide_div_mod_eq]
    rcases Nat.mod_two_eq_zero_or_one (v / 2 ^ n) with h | h
    · simp [h]
    · simp [h]; ring

theorem val_bitsOf {n v : Nat} (h : v < 2 ^ n) : val (bitsOf n v) = v := by
  rw [val_bitsOf_mod, Nat.mod_eq_of_lt h]

theorem val_injective {a b : Bits} (hl : a.length = b.length) (hv : val a = val b) : a = b := by
  induction a generalizing b with
  | nil => cases b with
    | nil => rfl
    | cons _ _ => simp at hl
  | cons x a ih =>
    cases b with
    | nil => simp at hl
    | cons y b =>
      simp only [List.length_cons, Nat.add_right_cancel_iff] at hl
      rw [val_cons, val_cons, hl] at hv
      have ha := val_lt a
      have hb := val_lt b
      rw [hl] at ha
      have hx : x = y := by
        cases x <;> cases y <;> simp at hv ⊢ <;> omega
      subst hx
      rw [ih hl (by omega)]

theorem bitsOf_val (b : Bits) : bitsOf b.length (val b) = b :=
  val_injective (length_bitsOf _ _) (val_bitsOf (val_lt b))

theorem bitsOf_eq_of_val {n : Nat} {b : Bits} (hl : b.length = n) : bitsOf n (val b) = b := by
  subst hl; exact bitsOf_val b

/-! ## The DT index -/

theorem idx_pos (c : Bits) : 0 < idx c := by
  have := Nat.two_pow_pos c.length
  unfold idx; omega

theorem idx_lt (c : Bits) : idx c < 2 ^ (c.length + 1) := by
  have := val_lt c
  unfold idx; rw [pow_succ]; omega

theorem idx_lt_dtSize {c : Bits} (h : c.length ≤ 15) : idx c < 65536 :=
  Nat.lt_of_lt_of_le (idx_lt c) (by
    calc 2 ^ (c.length + 1) ≤ 2 ^ 16 := Nat.pow_le_pow_right (by decide) (by omega)
      _ = 65536 := by decide)

/-- `idx` names each bit string once (00_scope.md R9). -/
theorem idx_injective {a b : Bits} (h : idx a = idx b) : a = b := by
  have hlog : ∀ c : Bits, Nat.log 2 (idx c) = c.length := fun c => by
    refine Nat.log_eq_of_pow_le_of_lt_pow ?_ (idx_lt c)
    unfold idx; omega
  have hl : a.length = b.length := by rw [← hlog a, ← hlog b, h]
  refine val_injective hl ?_
  unfold idx at h
  rw [hl] at h
  omega

/-! ## Prefixes -/

theorem startsWith_iff (c p : Bits) : startsWith c p = true ↔ p <+: c := by
  simp [startsWith]

@[simp] theorem length_flip0 (c : Bits) : (flip0 c).length = c.length := by
  cases c <;> rfl

/-! ## One bit of a byte -/

/-- What bit `j` of a byte is after bit `i` was put. -/
theorem getLsbD_putBit (x : Byte) (i j : Nat) (b : Bool) (hi : i < 8) :
    (putBit x i b).getLsbD j = if j = i then b else x.getLsbD j := by
  by_cases hj : j < 8
  · unfold putBit
    interval_cases i <;> interval_cases j <;> cases b <;> simp
  · have h1 : (putBit x i b).getLsbD j = false := BitVec.getLsbD_of_ge _ _ (by omega)
    have h2 : x.getLsbD j = false := BitVec.getLsbD_of_ge _ _ (by omega)
    rw [h1, h2, if_neg (by omega)]

end Sys2Proof.Machine
end

