-- ==== Sys2Proof/Laws/Memory.lean ====
section
/-! SUPPORT. The laws of one sparse store: a read after a write to the same index gives the value written, a write leaves every
other index alone, every write keeps the canonical form and the bound of the indices, and equal contents in canonical form
are equal lists. -/

namespace Sys2Proof.Machine

variable {α : Type}

@[simp] theorem Memory.read_nil (d : α) (i : Nat) : Memory.read d [] i = d := rfl

theorem Memory.read_eq_default {d : α} {m : List (Nat × α)} {i : Nat} (h : ∀ c ∈ m, c.1 ≠ i) :
    Memory.read d m i = d := by
  induction m with
  | nil => rfl
  | cons c m ih =>
    obtain ⟨k, v⟩ := c
    rw [Memory.read, if_neg (fun e => h (k, v) (by simp) e.symm), ih fun c hc => h c (by simp [hc])]

theorem Memory.read_filter_ne (d : α) (m : List (Nat × α)) (i j : Nat) :
    Memory.read d (m.filter (fun c => c.1 != i)) j = if j = i then d else Memory.read d m j := by
  induction m with
  | nil => simp
  | cons c m ih =>
    obtain ⟨k, v⟩ := c
    by_cases hk : k = i
    · subst hk
      by_cases hj : j = k
      · subst hj; simpa using ih
      · simpa [Memory.read, hj] using ih
    · by_cases hj : j = i
      · subst hj
        simp [hk, Memory.read, ih, Ne.symm hk]
      · simp [hk, Memory.read, ih, hj]

theorem Memory.read_insert (d : α) (m : List (Nat × α)) (i j : Nat) (v : α) (h : ∀ c ∈ m, c.1 ≠ i) :
    Memory.read d (Memory.insert m i v) j = if j = i then v else Memory.read d m j := by
  induction m with
  | nil => simp [Memory.insert, Memory.read]
  | cons c m ih =>
    obtain ⟨k, w⟩ := c
    have hk : k ≠ i := h (k, w) (by simp)
    have ih' := ih fun c hc => h c (by simp [hc])
    rw [Memory.insert]
    split
    · by_cases hj : j = i <;> simp [Memory.read, hj]
    · rw [Memory.read, ih', Memory.read]
      by_cases hj : j = i
      · subst hj; simp [Ne.symm hk]
      · simp [hj]

/-- Reading after writing, at every index. -/
theorem Memory.read_write [DecidableEq α] (d : α) (m : List (Nat × α)) (i j : Nat) (v : α) :
    Memory.read d (Memory.write d m i v) j = if j = i then v else Memory.read d m j := by
  unfold Memory.write
  split
  · next h => rw [Memory.read_filter_ne, h]
  · rw [Memory.read_insert _ _ _ _ _ (by intro c hc; simpa using (List.mem_filter.mp hc).2), Memory.read_filter_ne]
    split <;> rfl

@[simp] theorem Memory.read_write_same [DecidableEq α] (d : α) (m : List (Nat × α)) (i : Nat) (v : α) :
    Memory.read d (Memory.write d m i v) i = v := by simp [Memory.read_write]

theorem Memory.read_write_other [DecidableEq α] (d : α) (m : List (Nat × α)) {i j : Nat} (v : α) (h : j ≠ i) :
    Memory.read d (Memory.write d m i v) j = Memory.read d m j := by simp [Memory.read_write, h]

theorem Memory.mem_insert {m : List (Nat × α)} {i : Nat} {v : α} {c : Nat × α} :
    c ∈ Memory.insert m i v ↔ c = (i, v) ∨ c ∈ m := by
  induction m with
  | nil => simp [Memory.insert]
  | cons e m ih =>
    obtain ⟨k, w⟩ := e
    rw [Memory.insert]
    split
    · simp
    · simp only [List.mem_cons, ih]; tauto

theorem Memory.mem_write [DecidableEq α] {d : α} {m : List (Nat × α)} {i : Nat} {v : α} {c : Nat × α}
    (h : c ∈ Memory.write d m i v) : c = (i, v) ∨ c ∈ m := by
  unfold Memory.write at h
  split at h
  · exact .inr (List.mem_filter.mp h).1
  · rcases Memory.mem_insert.mp h with h | h
    · exact .inl h
    · exact .inr (List.mem_filter.mp h).1

theorem Memory.insert_sorted {m : List (Nat × α)} {i : Nat} (v : α) (hs : m.Pairwise (fun a b => a.1 < b.1))
    (h : ∀ c ∈ m, c.1 ≠ i) : (Memory.insert m i v).Pairwise (fun a b => a.1 < b.1) := by
  induction m with
  | nil => simp [Memory.insert]
  | cons e m ih =>
    obtain ⟨k, w⟩ := e
    have hs' := List.pairwise_cons.mp hs
    rw [Memory.insert]
    split
    · next hik =>
      refine List.pairwise_cons.mpr ⟨fun c hc => ?_, hs⟩
      rcases List.mem_cons.mp hc with rfl | hc
      · exact hik
      · exact Nat.lt_trans hik (hs'.1 c hc)
    · next hik =>
      refine List.pairwise_cons.mpr ⟨fun c hc => ?_, ih hs'.2 fun c hc => h c (by simp [hc])⟩
      rcases Memory.mem_insert.mp hc with rfl | hc
      · have : k ≠ i := h (k, w) (by simp)
        simp only at hik ⊢
        omega
      · exact hs'.1 c hc

/-- A write keeps the canonical form. -/
theorem Memory.wf_write [DecidableEq α] {d : α} {m : List (Nat × α)} (h : Memory.wf d m) (i : Nat) (v : α) :
    Memory.wf d (Memory.write d m i v) := by
  refine ⟨?_, fun c hc => ?_⟩
  · have hf : (m.filter (fun c => c.1 != i)).Pairwise (fun a b => a.1 < b.1) := h.1.filter _
    unfold Memory.write
    split
    · exact hf
    · exact Memory.insert_sorted v hf (by intro c hc; simpa using (List.mem_filter.mp hc).2)
  · unfold Memory.write at hc
    split at hc
    · exact h.2 c (List.mem_filter.mp hc).1
    · next hv =>
      rcases Memory.mem_insert.mp hc with rfl | hc
      · exact hv
      · exact h.2 c (List.mem_filter.mp hc).1

theorem Memory.wf_nil (d : α) : Memory.wf d [] := ⟨List.Pairwise.nil, by simp⟩

/-- A write inside the store keeps every listed index inside it. -/
theorem Memory.below_write [DecidableEq α] {d : α} {m : List (Nat × α)} {n i : Nat} (h : Memory.below n m) (hi : i < n)
    (v : α) : Memory.below n (Memory.write d m i v) := by
  intro c hc
  rcases Memory.mem_write hc with rfl | hc
  · exact hi
  · exact h c hc

theorem Memory.below_nil (n : Nat) : Memory.below n ([] : List (Nat × α)) := by simp [Memory.below]

/-- An index past the store reads as an unlisted one. -/
theorem Memory.read_of_below {d : α} {m : List (Nat × α)} {n i : Nat} (h : Memory.below n m) (hi : n ≤ i) :
    Memory.read d m i = d :=
  Memory.read_eq_default fun c hc => by have := h c hc; omega

theorem Memory.read_of_mem {d : α} {m : List (Nat × α)} (h : m.Pairwise (fun a b => a.1 < b.1)) {c : Nat × α}
    (hc : c ∈ m) : Memory.read d m c.1 = c.2 := by
  induction m with
  | nil => simp at hc
  | cons e m ih =>
    obtain ⟨k, v⟩ := e
    have h' := List.pairwise_cons.mp h
    rcases List.mem_cons.mp hc with rfl | hc
    · simp [Memory.read]
    · have : k < c.1 := h'.1 c hc
      rw [Memory.read, if_neg (by omega), ih h'.2 hc]

/-- What a canonical store reads as something else than the default is listed. -/
theorem Memory.mem_of_read_ne {d : α} {m : List (Nat × α)} {i : Nat} (h : Memory.read d m i ≠ d) :
    (i, Memory.read d m i) ∈ m := by
  induction m with
  | nil => exact absurd rfl h
  | cons e m ih =>
    obtain ⟨k, v⟩ := e
    rw [Memory.read] at h ⊢
    split at h
    · next hi => subst hi; simp
    · next hi => rw [if_neg hi]; exact List.mem_cons_of_mem _ (ih h)

/-- Canonical stores with the same contents are the same list. -/
theorem Memory.ext_of_read [DecidableEq α] {d : α} {m n : List (Nat × α)} (hm : Memory.wf d m) (hn : Memory.wf d n)
    (h : ∀ i, Memory.read d m i = Memory.read d n i) : m = n := by
  have sub : ∀ {a b : List (Nat × α)}, Memory.wf d a → (∀ i, Memory.read d a i = Memory.read d b i) → a ⊆ b := by
    intro a b ha hab c hc
    have hr := Memory.read_of_mem (d := d) ha.1 hc
    have hne : Memory.read d b c.1 ≠ d := by rw [← hab, hr]; exact ha.2 c hc
    have := Memory.mem_of_read_ne hne
    rwa [← hab, hr] at this
  have nodup : ∀ {a : List (Nat × α)}, Memory.wf d a → a.Nodup := fun ha =>
    ha.1.imp fun hlt he => by rw [he] at hlt; exact Nat.lt_irrefl _ hlt
  have hp : m.Perm n := (List.perm_ext_iff_of_nodup (nodup hm) (nodup hn)).mpr fun c =>
    ⟨fun hc => sub hm h hc, fun hc => sub hn (fun i => (h i).symm) hc⟩
  exact hp.eq_of_pairwise (fun a b _ _ hab hba => absurd hba (by omega)) hm.1 hn.1

end Sys2Proof.Machine
end

