-- ==== Sys2Proof/Laws/State.lean ====
section
/-! SUPPORT. The field laws of State: one lemma per field per update, so that no later proof unfolds a record update. -/

namespace Sys2Proof.Machine

/-! ## setMsg -/

@[simp] theorem State.setMsg_config (s : State) (i : Nat) (v : Byte) : (s.setMsg i v).config = s.config := rfl
@[simp] theorem State.setMsg_err (s : State) (i : Nat) (v : Byte) : (s.setMsg i v).err = s.err := rfl
@[simp] theorem State.setMsg_errInfo (s : State) (i : Nat) (v : Byte) : (s.setMsg i v).errInfo = s.errInfo := rfl
@[simp] theorem State.setMsg_pad (s : State) (i : Nat) (v : Byte) : (s.setMsg i v).pad = s.pad := rfl
@[simp] theorem State.setMsg_rpLen (s : State) (i : Nat) (v : Byte) : (s.setMsg i v).rpLen = s.rpLen := rfl
@[simp] theorem State.setMsg_rpVal (s : State) (i : Nat) (v : Byte) : (s.setMsg i v).rpVal = s.rpVal := rfl
@[simp] theorem State.setMsg_msgLen (s : State) (i : Nat) (v : Byte) : (s.setMsg i v).msgLen = s.msgLen := rfl
@[simp] theorem State.setMsg_esLen (s : State) (i : Nat) (v : Byte) : (s.setMsg i v).esLen = s.esLen := rfl
@[simp] theorem State.setMsg_rdPtr (s : State) (i : Nat) (v : Byte) : (s.setMsg i v).rdPtr = s.rdPtr := rfl
@[simp] theorem State.setMsg_symLim (s : State) (i : Nat) (v : Byte) : (s.setMsg i v).symLim = s.symLim := rfl
@[simp] theorem State.setMsg_es (s : State) (i : Nat) (v : Byte) : (s.setMsg i v).es = s.es := rfl
@[simp] theorem State.setMsg_freq (s : State) (i : Nat) (v : Byte) : (s.setMsg i v).freq = s.freq := rfl
@[simp] theorem State.setMsg_ct (s : State) (i : Nat) (v : Byte) : (s.setMsg i v).ct = s.ct := rfl
@[simp] theorem State.setMsg_dt (s : State) (i : Nat) (v : Byte) : (s.setMsg i v).dt = s.dt := rfl
@[simp] theorem State.setMsg_script (s : State) (i : Nat) (v : Byte) : (s.setMsg i v).script = s.script := rfl
@[simp] theorem State.setMsg_readings (s : State) (i : Nat) (v : Byte) : (s.setMsg i v).readings = s.readings := rfl

/-! ## setEsByte -/

@[simp] theorem State.setEsByte_config (s : State) (j : Nat) (v : Byte) : (s.setEsByte j v).config = s.config := rfl
@[simp] theorem State.setEsByte_err (s : State) (j : Nat) (v : Byte) : (s.setEsByte j v).err = s.err := rfl
@[simp] theorem State.setEsByte_errInfo (s : State) (j : Nat) (v : Byte) : (s.setEsByte j v).errInfo = s.errInfo := rfl
@[simp] theorem State.setEsByte_pad (s : State) (j : Nat) (v : Byte) : (s.setEsByte j v).pad = s.pad := rfl
@[simp] theorem State.setEsByte_rpLen (s : State) (j : Nat) (v : Byte) : (s.setEsByte j v).rpLen = s.rpLen := rfl
@[simp] theorem State.setEsByte_rpVal (s : State) (j : Nat) (v : Byte) : (s.setEsByte j v).rpVal = s.rpVal := rfl
@[simp] theorem State.setEsByte_msgLen (s : State) (j : Nat) (v : Byte) : (s.setEsByte j v).msgLen = s.msgLen := rfl
@[simp] theorem State.setEsByte_esLen (s : State) (j : Nat) (v : Byte) : (s.setEsByte j v).esLen = s.esLen := rfl
@[simp] theorem State.setEsByte_rdPtr (s : State) (j : Nat) (v : Byte) : (s.setEsByte j v).rdPtr = s.rdPtr := rfl
@[simp] theorem State.setEsByte_symLim (s : State) (j : Nat) (v : Byte) : (s.setEsByte j v).symLim = s.symLim := rfl
@[simp] theorem State.setEsByte_msg (s : State) (j : Nat) (v : Byte) : (s.setEsByte j v).msg = s.msg := rfl
@[simp] theorem State.setEsByte_freq (s : State) (j : Nat) (v : Byte) : (s.setEsByte j v).freq = s.freq := rfl
@[simp] theorem State.setEsByte_ct (s : State) (j : Nat) (v : Byte) : (s.setEsByte j v).ct = s.ct := rfl
@[simp] theorem State.setEsByte_dt (s : State) (j : Nat) (v : Byte) : (s.setEsByte j v).dt = s.dt := rfl
@[simp] theorem State.setEsByte_script (s : State) (j : Nat) (v : Byte) : (s.setEsByte j v).script = s.script := rfl
@[simp] theorem State.setEsByte_readings (s : State) (j : Nat) (v : Byte) : (s.setEsByte j v).readings = s.readings := rfl

/-! ## setEsBit -/

@[simp] theorem State.setEsBit_config (s : State) (p : Nat) (b : Bool) : (s.setEsBit p b).config = s.config := rfl
@[simp] theorem State.setEsBit_err (s : State) (p : Nat) (b : Bool) : (s.setEsBit p b).err = s.err := rfl
@[simp] theorem State.setEsBit_errInfo (s : State) (p : Nat) (b : Bool) : (s.setEsBit p b).errInfo = s.errInfo := rfl
@[simp] theorem State.setEsBit_pad (s : State) (p : Nat) (b : Bool) : (s.setEsBit p b).pad = s.pad := rfl
@[simp] theorem State.setEsBit_rpLen (s : State) (p : Nat) (b : Bool) : (s.setEsBit p b).rpLen = s.rpLen := rfl
@[simp] theorem State.setEsBit_rpVal (s : State) (p : Nat) (b : Bool) : (s.setEsBit p b).rpVal = s.rpVal := rfl
@[simp] theorem State.setEsBit_msgLen (s : State) (p : Nat) (b : Bool) : (s.setEsBit p b).msgLen = s.msgLen := rfl
@[simp] theorem State.setEsBit_esLen (s : State) (p : Nat) (b : Bool) : (s.setEsBit p b).esLen = s.esLen := rfl
@[simp] theorem State.setEsBit_rdPtr (s : State) (p : Nat) (b : Bool) : (s.setEsBit p b).rdPtr = s.rdPtr := rfl
@[simp] theorem State.setEsBit_symLim (s : State) (p : Nat) (b : Bool) : (s.setEsBit p b).symLim = s.symLim := rfl
@[simp] theorem State.setEsBit_msg (s : State) (p : Nat) (b : Bool) : (s.setEsBit p b).msg = s.msg := rfl
@[simp] theorem State.setEsBit_freq (s : State) (p : Nat) (b : Bool) : (s.setEsBit p b).freq = s.freq := rfl
@[simp] theorem State.setEsBit_ct (s : State) (p : Nat) (b : Bool) : (s.setEsBit p b).ct = s.ct := rfl
@[simp] theorem State.setEsBit_dt (s : State) (p : Nat) (b : Bool) : (s.setEsBit p b).dt = s.dt := rfl
@[simp] theorem State.setEsBit_script (s : State) (p : Nat) (b : Bool) : (s.setEsBit p b).script = s.script := rfl
@[simp] theorem State.setEsBit_readings (s : State) (p : Nat) (b : Bool) : (s.setEsBit p b).readings = s.readings := rfl

/-! ## setFreq -/

@[simp] theorem State.setFreq_config (s : State) (a : Nat) (w : Word) : (s.setFreq a w).config = s.config := rfl
@[simp] theorem State.setFreq_err (s : State) (a : Nat) (w : Word) : (s.setFreq a w).err = s.err := rfl
@[simp] theorem State.setFreq_errInfo (s : State) (a : Nat) (w : Word) : (s.setFreq a w).errInfo = s.errInfo := rfl
@[simp] theorem State.setFreq_pad (s : State) (a : Nat) (w : Word) : (s.setFreq a w).pad = s.pad := rfl
@[simp] theorem State.setFreq_rpLen (s : State) (a : Nat) (w : Word) : (s.setFreq a w).rpLen = s.rpLen := rfl
@[simp] theorem State.setFreq_rpVal (s : State) (a : Nat) (w : Word) : (s.setFreq a w).rpVal = s.rpVal := rfl
@[simp] theorem State.setFreq_msgLen (s : State) (a : Nat) (w : Word) : (s.setFreq a w).msgLen = s.msgLen := rfl
@[simp] theorem State.setFreq_esLen (s : State) (a : Nat) (w : Word) : (s.setFreq a w).esLen = s.esLen := rfl
@[simp] theorem State.setFreq_rdPtr (s : State) (a : Nat) (w : Word) : (s.setFreq a w).rdPtr = s.rdPtr := rfl
@[simp] theorem State.setFreq_symLim (s : State) (a : Nat) (w : Word) : (s.setFreq a w).symLim = s.symLim := rfl
@[simp] theorem State.setFreq_msg (s : State) (a : Nat) (w : Word) : (s.setFreq a w).msg = s.msg := rfl
@[simp] theorem State.setFreq_es (s : State) (a : Nat) (w : Word) : (s.setFreq a w).es = s.es := rfl
@[simp] theorem State.setFreq_ct (s : State) (a : Nat) (w : Word) : (s.setFreq a w).ct = s.ct := rfl
@[simp] theorem State.setFreq_dt (s : State) (a : Nat) (w : Word) : (s.setFreq a w).dt = s.dt := rfl
@[simp] theorem State.setFreq_script (s : State) (a : Nat) (w : Word) : (s.setFreq a w).script = s.script := rfl
@[simp] theorem State.setFreq_readings (s : State) (a : Nat) (w : Word) : (s.setFreq a w).readings = s.readings := rfl

/-! ## setCt -/

@[simp] theorem State.setCt_config (s : State) (a : Nat) (e : CodeEntry) : (s.setCt a e).config = s.config := rfl
@[simp] theorem State.setCt_err (s : State) (a : Nat) (e : CodeEntry) : (s.setCt a e).err = s.err := rfl
@[simp] theorem State.setCt_errInfo (s : State) (a : Nat) (e : CodeEntry) : (s.setCt a e).errInfo = s.errInfo := rfl
@[simp] theorem State.setCt_pad (s : State) (a : Nat) (e : CodeEntry) : (s.setCt a e).pad = s.pad := rfl
@[simp] theorem State.setCt_rpLen (s : State) (a : Nat) (e : CodeEntry) : (s.setCt a e).rpLen = s.rpLen := rfl
@[simp] theorem State.setCt_rpVal (s : State) (a : Nat) (e : CodeEntry) : (s.setCt a e).rpVal = s.rpVal := rfl
@[simp] theorem State.setCt_msgLen (s : State) (a : Nat) (e : CodeEntry) : (s.setCt a e).msgLen = s.msgLen := rfl
@[simp] theorem State.setCt_esLen (s : State) (a : Nat) (e : CodeEntry) : (s.setCt a e).esLen = s.esLen := rfl
@[simp] theorem State.setCt_rdPtr (s : State) (a : Nat) (e : CodeEntry) : (s.setCt a e).rdPtr = s.rdPtr := rfl
@[simp] theorem State.setCt_symLim (s : State) (a : Nat) (e : CodeEntry) : (s.setCt a e).symLim = s.symLim := rfl
@[simp] theorem State.setCt_msg (s : State) (a : Nat) (e : CodeEntry) : (s.setCt a e).msg = s.msg := rfl
@[simp] theorem State.setCt_es (s : State) (a : Nat) (e : CodeEntry) : (s.setCt a e).es = s.es := rfl
@[simp] theorem State.setCt_freq (s : State) (a : Nat) (e : CodeEntry) : (s.setCt a e).freq = s.freq := rfl
@[simp] theorem State.setCt_dt (s : State) (a : Nat) (e : CodeEntry) : (s.setCt a e).dt = s.dt := rfl
@[simp] theorem State.setCt_script (s : State) (a : Nat) (e : CodeEntry) : (s.setCt a e).script = s.script := rfl
@[simp] theorem State.setCt_readings (s : State) (a : Nat) (e : CodeEntry) : (s.setCt a e).readings = s.readings := rfl

/-! ## setDt -/

@[simp] theorem State.setDt_config (s : State) (k : Nat) (e : DecodeEntry) : (s.setDt k e).config = s.config := rfl
@[simp] theorem State.setDt_err (s : State) (k : Nat) (e : DecodeEntry) : (s.setDt k e).err = s.err := rfl
@[simp] theorem State.setDt_errInfo (s : State) (k : Nat) (e : DecodeEntry) : (s.setDt k e).errInfo = s.errInfo := rfl
@[simp] theorem State.setDt_pad (s : State) (k : Nat) (e : DecodeEntry) : (s.setDt k e).pad = s.pad := rfl
@[simp] theorem State.setDt_rpLen (s : State) (k : Nat) (e : DecodeEntry) : (s.setDt k e).rpLen = s.rpLen := rfl
@[simp] theorem State.setDt_rpVal (s : State) (k : Nat) (e : DecodeEntry) : (s.setDt k e).rpVal = s.rpVal := rfl
@[simp] theorem State.setDt_msgLen (s : State) (k : Nat) (e : DecodeEntry) : (s.setDt k e).msgLen = s.msgLen := rfl
@[simp] theorem State.setDt_esLen (s : State) (k : Nat) (e : DecodeEntry) : (s.setDt k e).esLen = s.esLen := rfl
@[simp] theorem State.setDt_rdPtr (s : State) (k : Nat) (e : DecodeEntry) : (s.setDt k e).rdPtr = s.rdPtr := rfl
@[simp] theorem State.setDt_symLim (s : State) (k : Nat) (e : DecodeEntry) : (s.setDt k e).symLim = s.symLim := rfl
@[simp] theorem State.setDt_msg (s : State) (k : Nat) (e : DecodeEntry) : (s.setDt k e).msg = s.msg := rfl
@[simp] theorem State.setDt_es (s : State) (k : Nat) (e : DecodeEntry) : (s.setDt k e).es = s.es := rfl
@[simp] theorem State.setDt_freq (s : State) (k : Nat) (e : DecodeEntry) : (s.setDt k e).freq = s.freq := rfl
@[simp] theorem State.setDt_ct (s : State) (k : Nat) (e : DecodeEntry) : (s.setDt k e).ct = s.ct := rfl
@[simp] theorem State.setDt_script (s : State) (k : Nat) (e : DecodeEntry) : (s.setDt k e).script = s.script := rfl
@[simp] theorem State.setDt_readings (s : State) (k : Nat) (e : DecodeEntry) : (s.setDt k e).readings = s.readings := rfl

/-! ## report -/

@[simp] theorem State.report_config (s : State) (v : Word) : (s.report v).config = s.config := rfl
@[simp] theorem State.report_err (s : State) (v : Word) : (s.report v).err = s.err := rfl
@[simp] theorem State.report_errInfo (s : State) (v : Word) : (s.report v).errInfo = s.errInfo := rfl
@[simp] theorem State.report_pad (s : State) (v : Word) : (s.report v).pad = s.pad := rfl
@[simp] theorem State.report_rpLen (s : State) (v : Word) : (s.report v).rpLen = s.rpLen := rfl
@[simp] theorem State.report_rpVal (s : State) (v : Word) : (s.report v).rpVal = s.rpVal := rfl
@[simp] theorem State.report_msgLen (s : State) (v : Word) : (s.report v).msgLen = s.msgLen := rfl
@[simp] theorem State.report_esLen (s : State) (v : Word) : (s.report v).esLen = s.esLen := rfl
@[simp] theorem State.report_rdPtr (s : State) (v : Word) : (s.report v).rdPtr = s.rdPtr := rfl
@[simp] theorem State.report_symLim (s : State) (v : Word) : (s.report v).symLim = s.symLim := rfl
@[simp] theorem State.report_msg (s : State) (v : Word) : (s.report v).msg = s.msg := rfl
@[simp] theorem State.report_es (s : State) (v : Word) : (s.report v).es = s.es := rfl
@[simp] theorem State.report_freq (s : State) (v : Word) : (s.report v).freq = s.freq := rfl
@[simp] theorem State.report_ct (s : State) (v : Word) : (s.report v).ct = s.ct := rfl
@[simp] theorem State.report_dt (s : State) (v : Word) : (s.report v).dt = s.dt := rfl
@[simp] theorem State.report_script (s : State) (v : Word) : (s.report v).script = s.script := rfl

/-! ## latch -/

@[simp] theorem State.latch_config (s : State) (f : FaultCode) (info : Word) : (s.latch f info).config = s.config := rfl
@[simp] theorem State.latch_pad (s : State) (f : FaultCode) (info : Word) : (s.latch f info).pad = s.pad := rfl
@[simp] theorem State.latch_rpLen (s : State) (f : FaultCode) (info : Word) : (s.latch f info).rpLen = s.rpLen := rfl
@[simp] theorem State.latch_rpVal (s : State) (f : FaultCode) (info : Word) : (s.latch f info).rpVal = s.rpVal := rfl
@[simp] theorem State.latch_msgLen (s : State) (f : FaultCode) (info : Word) : (s.latch f info).msgLen = s.msgLen := rfl
@[simp] theorem State.latch_esLen (s : State) (f : FaultCode) (info : Word) : (s.latch f info).esLen = s.esLen := rfl
@[simp] theorem State.latch_rdPtr (s : State) (f : FaultCode) (info : Word) : (s.latch f info).rdPtr = s.rdPtr := rfl
@[simp] theorem State.latch_symLim (s : State) (f : FaultCode) (info : Word) : (s.latch f info).symLim = s.symLim := rfl
@[simp] theorem State.latch_msg (s : State) (f : FaultCode) (info : Word) : (s.latch f info).msg = s.msg := rfl
@[simp] theorem State.latch_es (s : State) (f : FaultCode) (info : Word) : (s.latch f info).es = s.es := rfl
@[simp] theorem State.latch_freq (s : State) (f : FaultCode) (info : Word) : (s.latch f info).freq = s.freq := rfl
@[simp] theorem State.latch_ct (s : State) (f : FaultCode) (info : Word) : (s.latch f info).ct = s.ct := rfl
@[simp] theorem State.latch_dt (s : State) (f : FaultCode) (info : Word) : (s.latch f info).dt = s.dt := rfl
@[simp] theorem State.latch_script (s : State) (f : FaultCode) (info : Word) : (s.latch f info).script = s.script := rfl
@[simp] theorem State.latch_readings (s : State) (f : FaultCode) (info : Word) : (s.latch f info).readings = s.readings := rfl

/-! ## skip -/

@[simp] theorem State.skip_config (s : State) (n : Nat) : (s.skip n).config = s.config := rfl
@[simp] theorem State.skip_err (s : State) (n : Nat) : (s.skip n).err = s.err := rfl
@[simp] theorem State.skip_errInfo (s : State) (n : Nat) : (s.skip n).errInfo = s.errInfo := rfl
@[simp] theorem State.skip_pad (s : State) (n : Nat) : (s.skip n).pad = s.pad := rfl
@[simp] theorem State.skip_rpLen (s : State) (n : Nat) : (s.skip n).rpLen = s.rpLen := rfl
@[simp] theorem State.skip_rpVal (s : State) (n : Nat) : (s.skip n).rpVal = s.rpVal := rfl
@[simp] theorem State.skip_msgLen (s : State) (n : Nat) : (s.skip n).msgLen = s.msgLen := rfl
@[simp] theorem State.skip_esLen (s : State) (n : Nat) : (s.skip n).esLen = s.esLen := rfl
@[simp] theorem State.skip_symLim (s : State) (n : Nat) : (s.skip n).symLim = s.symLim := rfl
@[simp] theorem State.skip_msg (s : State) (n : Nat) : (s.skip n).msg = s.msg := rfl
@[simp] theorem State.skip_es (s : State) (n : Nat) : (s.skip n).es = s.es := rfl
@[simp] theorem State.skip_freq (s : State) (n : Nat) : (s.skip n).freq = s.freq := rfl
@[simp] theorem State.skip_ct (s : State) (n : Nat) : (s.skip n).ct = s.ct := rfl
@[simp] theorem State.skip_dt (s : State) (n : Nat) : (s.skip n).dt = s.dt := rfl
@[simp] theorem State.skip_script (s : State) (n : Nat) : (s.skip n).script = s.script := rfl
@[simp] theorem State.skip_readings (s : State) (n : Nat) : (s.skip n).readings = s.readings := rfl

theorem State.skip_rdPtr {s : State} {n : Nat} (h : s.rdPtr.toNat + n < 2 ^ 32) :
    (s.skip n).rdPtr.toNat = s.rdPtr.toNat + n := by
  show (BitVec.ofNat 32 (s.rdPtr.toNat + n)).toNat = _
  rw [BitVec.toNat_ofNat, Nat.mod_eq_of_lt h]

/-! ## What the updates write -/

@[simp] theorem State.setMsg_msg (s : State) (i : Nat) (v : Byte) : (s.setMsg i v).msg = Memory.write 0#8 s.msg i v := rfl
@[simp] theorem State.setEsByte_es (s : State) (j : Nat) (v : Byte) :
    (s.setEsByte j v).es = Memory.write 0#8 s.es j v := rfl
@[simp] theorem State.setFreq_freq (s : State) (a : Nat) (w : Word) :
    (s.setFreq a w).freq = Memory.write 0#32 s.freq a w := rfl
@[simp] theorem State.setCt_ct (s : State) (a : Nat) (e : CodeEntry) :
    (s.setCt a e).ct = Memory.write CodeEntry.invalid s.ct a e := rfl
@[simp] theorem State.setDt_dt (s : State) (k : Nat) (e : DecodeEntry) :
    (s.setDt k e).dt = Memory.write DecodeEntry.invalid s.dt k e := rfl
@[simp] theorem State.report_readings (s : State) (v : Word) : (s.report v).readings = s.readings ++ [v] := rfl
@[simp] theorem State.latch_err (s : State) (f : FaultCode) (info : Word) : (s.latch f info).err = some f := rfl
@[simp] theorem State.latch_errInfo (s : State) (f : FaultCode) (info : Word) : (s.latch f info).errInfo = info := rfl

/-! ## A run of bits -/

/-- Writing bits changes ES only. -/
theorem State.setEsBits_frame (s : State) (p : Nat) (b : Bits) :
    s.setEsBits p b = { s with es := (s.setEsBits p b).es } := by
  induction b generalizing s p with
  | nil => rfl
  | cons x b ih =>
    show (s.setEsBit p x).setEsBits (p + 1) b = { s with es := ((s.setEsBit p x).setEsBits (p + 1) b).es }
    rw [ih]
    rfl

@[simp] theorem State.setEsBits_config (s : State) (p : Nat) (b : Bits) : (s.setEsBits p b).config = s.config := by
  rw [State.setEsBits_frame]
@[simp] theorem State.setEsBits_err (s : State) (p : Nat) (b : Bits) : (s.setEsBits p b).err = s.err := by
  rw [State.setEsBits_frame]
@[simp] theorem State.setEsBits_errInfo (s : State) (p : Nat) (b : Bits) : (s.setEsBits p b).errInfo = s.errInfo := by
  rw [State.setEsBits_frame]
@[simp] theorem State.setEsBits_pad (s : State) (p : Nat) (b : Bits) : (s.setEsBits p b).pad = s.pad := by
  rw [State.setEsBits_frame]
@[simp] theorem State.setEsBits_rpLen (s : State) (p : Nat) (b : Bits) : (s.setEsBits p b).rpLen = s.rpLen := by
  rw [State.setEsBits_frame]
@[simp] theorem State.setEsBits_rpVal (s : State) (p : Nat) (b : Bits) : (s.setEsBits p b).rpVal = s.rpVal := by
  rw [State.setEsBits_frame]
@[simp] theorem State.setEsBits_msgLen (s : State) (p : Nat) (b : Bits) : (s.setEsBits p b).msgLen = s.msgLen := by
  rw [State.setEsBits_frame]
@[simp] theorem State.setEsBits_esLen (s : State) (p : Nat) (b : Bits) : (s.setEsBits p b).esLen = s.esLen := by
  rw [State.setEsBits_frame]
@[simp] theorem State.setEsBits_rdPtr (s : State) (p : Nat) (b : Bits) : (s.setEsBits p b).rdPtr = s.rdPtr := by
  rw [State.setEsBits_frame]
@[simp] theorem State.setEsBits_symLim (s : State) (p : Nat) (b : Bits) : (s.setEsBits p b).symLim = s.symLim := by
  rw [State.setEsBits_frame]
@[simp] theorem State.setEsBits_msg (s : State) (p : Nat) (b : Bits) : (s.setEsBits p b).msg = s.msg := by
  rw [State.setEsBits_frame]
@[simp] theorem State.setEsBits_freq (s : State) (p : Nat) (b : Bits) : (s.setEsBits p b).freq = s.freq := by
  rw [State.setEsBits_frame]
@[simp] theorem State.setEsBits_ct (s : State) (p : Nat) (b : Bits) : (s.setEsBits p b).ct = s.ct := by
  rw [State.setEsBits_frame]
@[simp] theorem State.setEsBits_dt (s : State) (p : Nat) (b : Bits) : (s.setEsBits p b).dt = s.dt := by
  rw [State.setEsBits_frame]
@[simp] theorem State.setEsBits_script (s : State) (p : Nat) (b : Bits) : (s.setEsBits p b).script = s.script := by
  rw [State.setEsBits_frame]
@[simp] theorem State.setEsBits_readings (s : State) (p : Nat) (b : Bits) : (s.setEsBits p b).readings = s.readings := by
  rw [State.setEsBits_frame]

/-! ## Fault entry and return -/

@[simp] theorem raise_eq (f : FaultCode) (info : Word) (s : State) : raise f info s = .raised (s.latch f info) := rfl
@[simp] theorem clearLatch_err (s : State) : (clearLatch s).err = none := rfl
@[simp] theorem clearLatch_errInfo (s : State) : (clearLatch s).errInfo = 0#32 := rfl

@[simp] theorem clearLatch_config (s : State) : (clearLatch s).config = s.config := rfl
@[simp] theorem clearLatch_pad (s : State) : (clearLatch s).pad = s.pad := rfl
@[simp] theorem clearLatch_rpLen (s : State) : (clearLatch s).rpLen = s.rpLen := rfl
@[simp] theorem clearLatch_rpVal (s : State) : (clearLatch s).rpVal = s.rpVal := rfl
@[simp] theorem clearLatch_msgLen (s : State) : (clearLatch s).msgLen = s.msgLen := rfl
@[simp] theorem clearLatch_esLen (s : State) : (clearLatch s).esLen = s.esLen := rfl
@[simp] theorem clearLatch_rdPtr (s : State) : (clearLatch s).rdPtr = s.rdPtr := rfl
@[simp] theorem clearLatch_symLim (s : State) : (clearLatch s).symLim = s.symLim := rfl
@[simp] theorem clearLatch_msg (s : State) : (clearLatch s).msg = s.msg := rfl
@[simp] theorem clearLatch_es (s : State) : (clearLatch s).es = s.es := rfl
@[simp] theorem clearLatch_freq (s : State) : (clearLatch s).freq = s.freq := rfl
@[simp] theorem clearLatch_ct (s : State) : (clearLatch s).ct = s.ct := rfl
@[simp] theorem clearLatch_dt (s : State) : (clearLatch s).dt = s.dt := rfl
@[simp] theorem clearLatch_script (s : State) : (clearLatch s).script = s.script := rfl
@[simp] theorem clearLatch_readings (s : State) : (clearLatch s).readings = s.readings := rfl

end Sys2Proof.Machine
end

