-- ==== Sys2Proof/Laws/Ops.lean ====
section
/-! SUPPORT. What each shared operation does, said once: reads after writes of the five stores, the append primitives of
00_scope.md R11, and the sequencing of results. -/

namespace Sys2Proof.Machine

/-! ## Reads after writes -/

theorem State.msgAt_setMsg (s : State) (i j : Nat) (v : Byte) :
    (s.setMsg i v).msgAt j = if j = i then v else s.msgAt j := Memory.read_write _ _ _ _ _

theorem State.esByte_setEsByte (s : State) (i j : Nat) (v : Byte) :
    (s.setEsByte i v).esByte j = if j = i then v else s.esByte j := Memory.read_write _ _ _ _ _

theorem State.freqAt_setFreq (s : State) (i j : Nat) (w : Word) :
    (s.setFreq i w).freqAt j = if j = i then w else s.freqAt j := Memory.read_write _ _ _ _ _

theorem State.ctAt_setCt (s : State) (i j : Nat) (e : CodeEntry) :
    (s.setCt i e).ctAt j = if j = i then e else s.ctAt j := Memory.read_write _ _ _ _ _

theorem State.dtAt_setDt (s : State) (i j : Nat) (e : DecodeEntry) :
    (s.setDt i e).dtAt j = if j = i then e else s.dtAt j := Memory.read_write _ _ _ _ _

/-- The one bit written, and every other bit (20_memory.md R62). -/
theorem State.esBit_setEsBit (s : State) (p q : Nat) (b : Bool) :
    (s.setEsBit p b).esBit q = if q = p then b else s.esBit q := by
  unfold State.esBit State.setEsBit
  rw [State.esByte_setEsByte]
  by_cases h : q / 8 = p / 8
  · rw [if_pos h, getLsbD_putBit _ _ _ _ (by omega), ← h]
    by_cases hq : q = p
    · subst hq; simp
    · rw [if_neg (by omega), if_neg hq]
  · rw [if_neg h, if_neg (by rintro rfl; exact h rfl)]

theorem State.esBit_setEsBits (s : State) (p : Nat) (b : Bits) (q : Nat) :
    (s.setEsBits p b).esBit q = if p ≤ q then (b[q - p]?).getD (s.esBit q) else s.esBit q := by
  induction b generalizing s p with
  | nil => simp [State.setEsBits]
  | cons x b ih =>
    rw [State.setEsBits, ih, State.esBit_setEsBit]
    by_cases hq : q = p
    · subst hq; simp
    · by_cases hpq : p ≤ q
      · have : q - p = (q - (p + 1)) + 1 := by omega
        rw [if_pos (by omega), if_pos hpq, if_neg hq, this, List.getElem?_cons_succ]
      · rw [if_neg (by omega), if_neg hpq, if_neg hq]

/-! ## Runs of bits -/

@[simp] theorem State.length_esBits (s : State) (p n : Nat) : (s.esBits p n).length = n := by simp [State.esBits]

@[simp] theorem State.esBits_zero (s : State) (p : Nat) : s.esBits p 0 = [] := rfl

theorem State.getElem_esBits (s : State) (p n k : Nat) (h : k < (s.esBits p n).length) :
    (s.esBits p n)[k] = s.esBit (p + k) := by simp [State.esBits]

theorem State.esBits_add (s : State) (p n m : Nat) : s.esBits p (n + m) = s.esBits p n ++ s.esBits (p + n) m := by
  simp [State.esBits, List.range_add, Nat.add_assoc]

theorem State.esBits_succ (s : State) (p n : Nat) : s.esBits p (n + 1) = s.esBit p :: s.esBits (p + 1) n := by
  rw [Nat.add_comm n 1, State.esBits_add]
  simp [State.esBits]

theorem State.esBits_congr {s t : State} {p n : Nat} (h : ∀ q, p ≤ q → q < p + n → t.esBit q = s.esBit q) :
    t.esBits p n = s.esBits p n :=
  List.map_congr_left fun k hk => h (p + k) (by omega) (by have := List.mem_range.mp hk; omega)

/-- Two states with the same ES have the same bits. -/
theorem State.esBit_of_es {s t : State} (h : t.es = s.es) (q : Nat) : t.esBit q = s.esBit q := by
  unfold State.esBit State.esByte; rw [h]

theorem State.esBits_of_es {s t : State} (h : t.es = s.es) (p n : Nat) : t.esBits p n = s.esBits p n :=
  State.esBits_congr fun q _ _ => State.esBit_of_es h q

theorem State.esBits_setEsBits_same (s : State) (p : Nat) (b : Bits) : (s.setEsBits p b).esBits p b.length = b := by
  refine List.ext_getElem (by simp) fun k h1 h2 => ?_
  rw [State.getElem_esBits, State.esBit_setEsBits, if_pos (by omega)]
  simp [h2]

/-- Two runs of bits that agree as strings agree bit by bit. -/
theorem State.esBits_inj {s t : State} {p q n : Nat} (h : t.esBits p n = s.esBits q n) {k : Nat} (hk : k < n) :
    t.esBit (p + k) = s.esBit (q + k) := by
  have := congrArg (fun l => l[k]?) h
  simpa [State.esBits, hk] using this

/-- A part of a run of bits that is known. -/
theorem State.esBits_part {s : State} {p n : Nat} {a b c : Bits} (h : s.esBits p n = a ++ b ++ c) :
    s.esBits (p + a.length) b.length = b := by
  have hn : n = a.length + b.length + c.length := by
    have := congrArg List.length h; simpa [Nat.add_assoc] using this
  rw [hn, State.esBits_add, State.esBits_add] at h
  have h1 := (List.append_inj h (by simp)).1
  exact (List.append_inj h1 (by simp)).2

/-! ## Appends to the stream -/

theorem Appended.refl (s : State) : Appended [] s s :=
  ⟨rfl, by simp, by simp, fun _ _ => rfl⟩

theorem Appended.trans {a b : Bits} {s t u : State} (h : Appended a s t) (k : Appended b t u) : Appended (a ++ b) s u where
  rest := by rw [k.rest, h.rest]
  esLen := by rw [k.esLen, h.esLen, List.length_append]; omega
  bits := by
    rw [List.length_append, State.esBits_add, ← h.esLen, k.bits]
    congr 1
    rw [State.esBits_congr fun q h1 h2 => k.others q (.inl (by rw [h.esLen]; exact h2)), h.bits]
  others q hq := by
    rw [List.length_append] at hq
    rw [k.others q (by rw [h.esLen]; omega), h.others q (by omega)]

/-- The fields an append leaves. -/
theorem Appended.keeps {b : Bits} {s t : State} (h : Appended b s t) :
    t.config = s.config ∧ t.err = s.err ∧ t.errInfo = s.errInfo ∧ t.pad = s.pad ∧ t.rpLen = s.rpLen ∧ t.rpVal = s.rpVal ∧
      t.msgLen = s.msgLen ∧ t.rdPtr = s.rdPtr ∧ t.symLim = s.symLim ∧ t.msg = s.msg ∧ t.freq = s.freq ∧ t.ct = s.ct ∧
      t.dt = s.dt ∧ t.script = s.script ∧ t.readings = s.readings := by
  rw [h.rest]; simp

/-- All that `EsAppend` can do: the append, or Capacity with the state unchanged but for the latch (00_scope.md R11). -/
theorem esAppend_cases (b : Bits) (s : State) :
    (s.esLen.toNat + b.length ≤ s.config.esMax.toNat ∧ ∃ t, esAppend b s = .ended t ∧ Appended b s t) ∨
      (s.config.esMax.toNat < s.esLen.toNat + b.length ∧ esAppend b s = .raised (s.latch .capacity s.esLen)) := by
  unfold esAppend
  split
  · next h => exact .inr ⟨h, rfl⟩
  · next h =>
    refine .inl ⟨by omega, _, rfl, ?_, ?_, ?_, fun q hq => ?_⟩
    · rw [State.setEsBits_frame]
    · have := s.config.esMax.isLt
      simp only [BitVec.toNat_ofNat]
      exact Nat.mod_eq_of_lt (by omega)
    · exact State.esBits_setEsBits_same _ _ _
    · show (s.setEsBits s.esLen.toNat b).esBit q = s.esBit q
      rw [State.esBit_setEsBits]
      split
      · rw [List.getElem?_eq_none (by omega)]; rfl
      · rfl

/-- `EsAppend` of a string that fits. -/
theorem esAppend_fits {b : Bits} {s : State} (h : s.esLen.toNat + b.length ≤ s.config.esMax.toNat) :
    ∃ t, esAppend b s = .ended t ∧ Appended b s t := by
  rcases esAppend_cases b s with ⟨-, h⟩ | ⟨h', -⟩
  · exact h
  · omega

/-- Appending several strings that fit appends their concatenation. -/
theorem esAppendAll_fits {bs : List Bits} {s : State} (h : s.esLen.toNat + bs.flatten.length ≤ s.config.esMax.toNat) :
    ∃ t, esAppendAll bs s = .ended t ∧ Appended bs.flatten s t := by
  induction bs generalizing s with
  | nil => exact ⟨s, rfl, Appended.refl s⟩
  | cons b bs ih =>
    rw [List.flatten_cons, List.length_append] at h
    obtain ⟨t, ht, ha⟩ := esAppend_fits (b := b) (s := s) (by omega)
    obtain ⟨u, hu, hb⟩ := ih (s := t) (by rw [ha.esLen, ha.keeps.1]; omega)
    exact ⟨u, by rw [esAppendAll, ht]; exact hu, ha.trans hb⟩

/-! ## Appends to the message -/

/-- All that `MsgAppend` can do (00_scope.md R11). -/
theorem msgAppend_cases (v : Byte) (s : State) :
    (s.msgLen ≠ s.config.msgMax ∧
        msgAppend v s = .ended { s.setMsg s.msgLen.toNat v with msgLen := BitVec.ofNat 32 (s.msgLen.toNat + 1) }) ∨
      (s.msgLen = s.config.msgMax ∧ msgAppend v s = .raised (s.latch .capacity s.msgLen)) := by
  unfold msgAppend
  split
  · next h => exact .inr ⟨h, rfl⟩
  · next h => exact .inl ⟨h, rfl⟩

/-! ## Sequencing -/

@[simp] theorem CommandResult.ended_andThen (s : State) (f : State → CommandResult) :
    (CommandResult.ended s).andThen f = f s := rfl
@[simp] theorem CommandResult.raised_andThen (s : State) (f : State → CommandResult) :
    (CommandResult.raised s).andThen f = .raised s := rfl
@[simp] theorem CommandResult.state_ended (s : State) : (CommandResult.ended s).state = s := rfl
@[simp] theorem CommandResult.state_raised (s : State) : (CommandResult.raised s).state = s := rfl
@[simp] theorem CommandResult.outcome_ended (s : State) : (CommandResult.ended s).outcome = .next s := rfl
@[simp] theorem CommandResult.outcome_raised (s : State) : (CommandResult.raised s).outcome = .next s := rfl

/-- What holds of every result of the first part and is kept by the second holds of the whole. -/
theorem CommandResult.andThen_state {P : State → Prop} {r : CommandResult} {f : State → CommandResult}
    (h : P r.state) (hf : ∀ s, P s → P (f s).state) : P (r.andThen f).state := by
  cases r with
  | ended s => exact hf s h
  | raised s => exact h

/-! ## Bits available -/

theorem State.avail_eq (s : State) : s.avail = s.esLen.toNat - s.rdPtr.toNat := by
  unfold State.avail; split <;> omega

/-! ## The stream -/

theorem Appended.stream {b : Bits} {s t : State} (h : Appended b s t) : t.stream = s.stream ++ b := by
  unfold State.stream
  rw [h.esLen, State.esBits_add, Nat.zero_add, h.bits]
  congr 1
  exact State.esBits_congr fun q _ hq => h.others q (.inl (by omega))

theorem State.stream_split {d : State} {a b : Bits} (h : d.stream = a ++ b) : d.esBits 0 a.length = a ∧
    d.esBits a.length b.length = b ∧ d.esLen.toNat = a.length + b.length := by
  have hl : d.esLen.toNat = a.length + b.length := by
    have := congrArg List.length h; simpa [State.stream] using this
  unfold State.stream at h
  rw [hl, State.esBits_add] at h
  obtain ⟨h1, h2⟩ := List.append_inj h (by simp)
  exact ⟨h1, by simpa using h2, hl⟩

end Sys2Proof.Machine
end

