-- ==== Sys2Proof/Laws/FrequencyModel.lean ====
section
/-! SUPPORT. What the loops of REALIGN and COUNT do (40_frequency_model.md R131, R135). -/

namespace Sys2Proof.Machine

/-! ## REALIGN -/

theorem writeChunks_frame (js : List Nat) (s : State) : writeChunks js s = { s with msg := (writeChunks js s).msg } := by
  induction js generalizing s with
  | nil => rfl
  | cons j js ih =>
    have h : writeChunks (j :: js) s = writeChunks js (s.setMsg j (BitVec.ofNat 8 (val (s.chunk j)))) := rfl
    rw [h, ih]; rfl

theorem State.chunk_congr {s t : State} (he : t.es = s.es) (hl : t.esLen = s.esLen) (j : Nat) : t.chunk j = s.chunk j := by
  unfold State.chunk
  rw [hl, State.esBits_of_es he]

/-- A chunk has at most 7 bits (40_frequency_model.md R132). -/
theorem State.length_chunk_le (s : State) (j : Nat) : (s.chunk j).length ≤ 7 := by
  simp only [State.chunk, State.length_esBits, realignW]; omega

theorem State.val_chunk_lt (s : State) (j : Nat) : val (s.chunk j) < 128 :=
  Nat.lt_of_lt_of_le (val_lt _) (Nat.pow_le_pow_right (n := 2) (by decide) (s.length_chunk_le j))

/-- The chunks written, and every other element of MSG. -/
theorem msgAt_writeChunks (js : List Nat) (s : State) (i : Nat) :
    (writeChunks js s).msgAt i = if i ∈ js then BitVec.ofNat 8 (val (s.chunk i)) else s.msgAt i := by
  induction js generalizing s with
  | nil => simp [writeChunks]
  | cons j js ih =>
    have h : writeChunks (j :: js) s = writeChunks js (s.setMsg j (BitVec.ofNat 8 (val (s.chunk j)))) := rfl
    have hc : ∀ k, (s.setMsg j (BitVec.ofNat 8 (val (s.chunk j)))).chunk k = s.chunk k := State.chunk_congr rfl rfl
    rw [h, ih, State.msgAt_setMsg, hc]
    by_cases hi : i ∈ js
    · simp [hi]
    · by_cases hij : i = j
      · subst hij; simp [hi]
      · simp [hi, hij]

/-! ## COUNT -/

theorem countSymbols_frame (syms : List Byte) (s : State) :
    countSymbols syms s = { s with freq := (countSymbols syms s).freq } := by
  induction syms generalizing s with
  | nil => rfl
  | cons a syms ih =>
    have h : countSymbols (a :: syms) s = countSymbols syms (s.setFreq a.toNat (s.freqAt a.toNat + 1#32)) := rfl
    rw [h, ih]; rfl

/-- Each symbol's count is added to its element. -/
theorem freqAt_countSymbols (syms : List Byte) (s : State) (a : Byte) :
    (countSymbols syms s).freqAt a.toNat = s.freqAt a.toNat + BitVec.ofNat 32 (syms.count a) := by
  induction syms generalizing s with
  | nil => simp [countSymbols]
  | cons b syms ih =>
    have h : countSymbols (b :: syms) s = countSymbols syms (s.setFreq b.toNat (s.freqAt b.toNat + 1#32)) := rfl
    rw [h, ih, State.freqAt_setFreq, List.count_cons]
    by_cases hab : a = b
    · subst hab
      simp only [if_true, beq_self_eq_true, BitVec.ofNat_add]
      ac_rfl
    · have : a.toNat ≠ b.toNat := fun e => hab (BitVec.eq_of_toNat_eq e)
      simp [this, Ne.symm hab]

@[simp] theorem State.length_message (s : State) : s.message.length = s.msgLen.toNat := by simp [State.message]

theorem State.message_congr {s t : State} (h : t.msg = s.msg) (hl : t.msgLen = s.msgLen) : t.message = s.message := by
  unfold State.message
  rw [hl]
  exact List.map_congr_left fun i _ => by unfold State.msgAt; rw [h]

theorem sum_indicator (l : List Nat) (x : Nat) : (l.map (fun a => if a = x then 1 else 0)).sum = l.count x := by
  induction l with
  | nil => rfl
  | cons a l ih =>
    rw [List.map_cons, List.sum_cons, ih, List.count_cons]
    by_cases h : a = x <;> simp [h]; omega

/-- The sum of the counts of all symbol values is the number of symbols (40_frequency_model.md R137). -/
theorem sum_count_eq_length (syms : List Byte) :
    ((List.range nSym).map (fun a => syms.count (BitVec.ofNat 8 a))).sum = syms.length := by
  induction syms with
  | nil => simp
  | cons b syms ih =>
    have hsplit : (List.range nSym).map (fun a => (b :: syms).count (BitVec.ofNat 8 a)) =
        (List.range nSym).map (fun a => syms.count (BitVec.ofNat 8 a) + if a = b.toNat then 1 else 0) := by
      refine List.map_congr_left fun a ha => ?_
      have ha : a < 256 := List.mem_range.mp ha
      rw [List.count_cons]
      by_cases hab : a = b.toNat
      · subst hab; simp
      · have : ¬ b = BitVec.ofNat 8 a := by
          rintro rfl; simp only [BitVec.toNat_ofNat] at hab; omega
        simp [hab, this]
    have hb : b.toNat < nSym := b.isLt
    rw [hsplit, List.sum_map_add, ih, List.length_cons, sum_indicator,
      List.count_eq_one_of_mem List.nodup_range (List.mem_range.mpr hb)]

end Sys2Proof.Machine
end

