-- ==== Sys2Proof/Laws/BitPacker.lean ====
section
/-! SUPPORT. What the loops of PACK and PADB do (44_bitpacker_decoder.md R230, R236). -/

namespace Sys2Proof.Machine

theorem State.ctAt_of_ct {s t : State} (h : t.ct = s.ct) (a : Nat) : t.ctAt a = s.ctAt a := by unfold State.ctAt; rw [h]

theorem State.payload_of_ct {s t : State} (h : t.ct = s.ct) (m : List Byte) : t.payload m = s.payload m := by
  unfold State.payload
  simp only [State.ctAt_of_ct h]

theorem State.payload_cons (s : State) (a : Byte) (m : List Byte) :
    s.payload (a :: m) = (s.ctAt a.toNat).code ++ s.payload m := rfl

theorem State.payload_append (s : State) (m n : List Byte) : s.payload (m ++ n) = s.payload m ++ s.payload n := by
  simp [State.payload]

@[simp] theorem CodeEntry.length_code (e : CodeEntry) : e.code.length = e.len.toNat := by simp [CodeEntry.code]

/-- PACK of symbols that all have a code and whose codes fit appends the codes (44_bitpacker_decoder.md R230). -/
theorem packFrom_fits {syms : List Byte} {s : State} (i : Nat) (hv : ∀ a ∈ syms, (s.ctAt a.toNat).valid = true)
    (hf : s.esLen.toNat + (s.payload syms).length ≤ s.config.esMax.toNat) :
    ∃ t, packFrom i syms s = .ended t ∧ Appended (s.payload syms) s t := by
  induction syms generalizing s i with
  | nil => exact ⟨s, rfl, Appended.refl s⟩
  | cons a syms ih =>
    rw [State.payload_cons, List.length_append] at hf
    obtain ⟨t, ht, ha⟩ := esAppend_fits (b := (s.ctAt a.toNat).code) (s := s) (by omega)
    have hct : t.ct = s.ct := by rw [ha.rest]
    obtain ⟨u, hu, hb⟩ := ih (s := t) (i + 1)
      (fun b hb => by rw [State.ctAt_of_ct hct]; exact hv b (List.mem_cons_of_mem _ hb))
      (by rw [State.payload_of_ct hct, ha.esLen, ha.keeps.1]; omega)
    refine ⟨u, ?_, ?_⟩
    · rw [packFrom, if_pos (hv a (by simp)), ht]; exact hu
    · rw [State.payload_cons, ← State.payload_of_ct hct]; exact ha.trans hb

/-- PACK goes on from the symbols that fit: what it does with the rest is said from the state it reached. -/
theorem packFrom_append {done rest : List Byte} {s : State} (i : Nat) (hv : ∀ a ∈ done, (s.ctAt a.toNat).valid = true)
    (hf : s.esLen.toNat + (s.payload done).length ≤ s.config.esMax.toNat) :
    ∃ t, packFrom i (done ++ rest) s = packFrom (i + done.length) rest t ∧ Appended (s.payload done) s t := by
  induction done generalizing s i with
  | nil => exact ⟨s, rfl, Appended.refl s⟩
  | cons a syms ih =>
    rw [State.payload_cons, List.length_append] at hf
    obtain ⟨t, ht, ha⟩ := esAppend_fits (b := (s.ctAt a.toNat).code) (s := s) (by omega)
    have hct : t.ct = s.ct := by rw [ha.rest]
    obtain ⟨u, hu, hb⟩ := ih (s := t) (i + 1)
      (fun b hb => by rw [State.ctAt_of_ct hct]; exact hv b (List.mem_cons_of_mem _ hb))
      (by rw [State.payload_of_ct hct, ha.esLen, ha.keeps.1]; omega)
    refine ⟨u, ?_, ?_⟩
    · rw [List.cons_append, packFrom, if_pos (hv a (by simp)), ht, CommandResult.ended_andThen, hu, List.length_cons]
      congr 1; omega
    · rw [State.payload_cons, ← State.payload_of_ct hct]; exact ha.trans hb

theorem padding_eq (n : Nat) : padding n = List.replicate ((8 - n % 8) % 8) false := rfl

/-- PADB with enough passes appends the padding, when ES_MAX is a multiple of 8 (44_bitpacker_decoder.md R236). -/
theorem padLoop_pads {s : State} (k : Nat) (hk : (8 - s.esLen.toNat % 8) % 8 ≤ k) (h8 : s.config.esMax.toNat % 8 = 0)
    (hf : s.esLen.toNat ≤ s.config.esMax.toNat) :
    ∃ t, padLoop k s = .ended t ∧ Appended (padding s.esLen.toNat) s t := by
  induction k generalizing s with
  | zero =>
    have : padding s.esLen.toNat = [] := by simp [padding_eq]; omega
    exact ⟨s, rfl, this ▸ Appended.refl s⟩
  | succ k ih =>
    rw [padLoop]
    split
    · next h =>
      have h : s.esLen.toNat % 8 = 0 := h
      have : padding s.esLen.toNat = [] := by simp [padding_eq, h]
      exact ⟨s, rfl, this ▸ Appended.refl s⟩
    · next h =>
      have h : ¬ s.esLen.toNat % 8 = 0 := h
      obtain ⟨t, ht, ha⟩ := esAppend_fits (b := [false]) (s := s) (by simp; omega)
      have hl : t.esLen.toNat = s.esLen.toNat + 1 := ha.esLen
      obtain ⟨u, hu, hb⟩ := ih (s := t) (by omega) (by rw [ha.keeps.1]; exact h8) (by rw [ha.keeps.1]; omega)
      refine ⟨u, by rw [ht]; exact hu, ?_⟩
      have hp : padding s.esLen.toNat = [false] ++ padding t.esLen.toNat := by
        have : (8 - s.esLen.toNat % 8) % 8 = (8 - t.esLen.toNat % 8) % 8 + 1 := by omega
        simp [padding_eq, this, List.replicate_succ]
      rw [hp]; exact ha.trans hb

/-! ## Whole commands -/

/-- The message around its symbol `i`. -/
theorem State.message_split {s : State} {i : Nat} (hi : i < s.msgLen.toNat) : s.message = s.message.take i ++ s.msgAt i :: s.message.drop (i+1) := by
  have hl : i < s.message.length := by simpa using hi
  have : s.message[i] = s.msgAt i := by simp [State.message]
  rw [← this, List.cons_getElem_drop_succ, List.take_append_drop]

theorem State.take_succ_message {s : State} {i : Nat} (hi : i < s.msgLen.toNat) : s.message.take
    (i+1) = s.message.take i ++ [s.msgAt i] := by
  have hl : i < s.message.length := by simpa using hi
  have : s.message[i] = s.msgAt i := by simp [State.message]
  rw [← this]; exact (List.take_concat_get' _ _ hl).symm

/-- PADB of a stream in range (44_bitpacker_decoder.md R236). -/
theorem padb_pads {s : State} (h8 : s.config.esMax.toNat % 8 = 0) (hf : s.esLen.toNat ≤ s.config.esMax.toNat) :
   ∃ t, padb s = .ended t ∧ Appended (padding s.esLen.toNat) s t := padLoop_pads 7 (by omega) h8 hf

/-- What PACK has done when it ends without fault (44_bitpacker_decoder.md R230). -/
theorem packFrom_ended {m : List Byte} {i : Nat} {s t : State} (h : packFrom i m s = .ended t) :
    (∀ a ∈ m, (s.ctAt a.toNat).valid = true) ∧ Appended (s.payload m) s t ∧ s.esLen.toNat +
        (s.payload m).length ≤ max s.esLen.toNat s.config.esMax.toNat := by
  induction m generalizing s i with
  | nil => injection h with h; subst h; exact ⟨by simp, Appended.refl s, by simp [State.payload]⟩
  | cons a m ih =>
    rw [packFrom] at h
    split at h
    · next hv =>
      rcases esAppend_cases (s.ctAt a.toNat).code s with ⟨hf, u, hu, ha⟩ | ⟨-, hr⟩
      · rw [hu] at h
        obtain ⟨g1, g2, g3⟩ := ih h
        have hct : u.ct = s.ct := by rw [ha.rest]
        rw [State.payload_of_ct hct] at g2 g3
        refine ⟨fun b hb => ?_, ?_, ?_⟩
        · rcases List.mem_cons.mp hb with rfl | hb
          · exact hv
          · rw [← State.ctAt_of_ct hct]; exact g1 b hb
        · rw [State.payload_cons]; exact ha.trans g2
        · rw [State.payload_cons, List.length_append]
          rw [ha.esLen, ha.keeps.1] at g3; omega
      · rw [hr] at h; cases h
    · cases h

/-- What PADB has done when it ends without fault (44_bitpacker_decoder.md R236). -/
theorem padLoop_ended {k : Nat} {s t : State} (hk : (8 - s.esLen.toNat % 8) % 8 ≤ k) (h : padLoop k s = .ended t) :
    Appended (padding s.esLen.toNat) s t := by
  induction k generalizing s with
  | zero =>
    have : padding s.esLen.toNat = [] := by simp [padding_eq]; omega
    injection h with h; subst h; rw [this]; exact Appended.refl s
  | succ k ih =>
    rw [padLoop] at h
    split at h
    · next h0 =>
      have h0 : s.esLen.toNat % 8 = 0 := h0
      have : padding s.esLen.toNat = [] := by simp [padding_eq, h0]
      injection h with h; subst h; rw [this]; exact Appended.refl s
    · next h0 =>
      have h0 : ¬ s.esLen.toNat % 8 = 0 := h0
      rcases esAppend_cases [false] s with ⟨hf, u, hu, ha⟩ | ⟨-, hr⟩
      · rw [hu] at h
        have hl : u.esLen.toNat = s.esLen.toNat + 1 := ha.esLen
        have := ih (s := u) (by omega) h
        have hp : padding s.esLen.toNat = [false] ++ padding u.esLen.toNat := by
          have : (8 - s.esLen.toNat % 8) % 8 = (8 - u.esLen.toNat % 8) % 8 + 1 := by omega
          simp [padding_eq, this, List.replicate_succ]
        rw [hp]; exact ha.trans this
      · rw [hr] at h; cases h

/-- How PACK raises Capacity: the codes before symbol `j` are appended and the next does not fit (44_bitpacker_decoder.md R231). -/
theorem packFrom_capacity {m : List Byte} {i : Nat} {s t : State} (he : s.err = none) (h : packFrom i m s = .raised t)
    (hc : t.err = some .capacity) :
    ∃ j u, j < m.length ∧ t = u.latch .capacity u.esLen ∧ Appended (s.payload (m.take j)) s u ∧
      s.config.esMax.toNat < s.esLen.toNat + (s.payload (m.take (j + 1))).length := by
  induction m generalizing s i with
  | nil => cases h
  | cons a m ih =>
    rw [packFrom] at h
    split at h
    · rcases esAppend_cases (s.ctAt a.toNat).code s with ⟨-, u, hu, ha⟩ | ⟨hlt, hr⟩
      · rw [hu] at h
        have hct : u.ct = s.ct := by rw [ha.rest]
        obtain ⟨j, v, hj, ht, hv, hx⟩ := ih (by rw [ha.rest]; exact he) h
        refine ⟨j + 1, v, by simpa using hj, ht, ?_, ?_⟩
        · rw [List.take_succ_cons, State.payload_cons]
          rw [State.payload_of_ct hct] at hv
          exact ha.trans hv
        · rw [List.take_succ_cons, State.payload_cons, List.length_append]
          rw [State.payload_of_ct hct, ha.esLen] at hx
          have : u.config = s.config := by rw [ha.rest]
          rw [this] at hx; omega
      · rw [hr] at h; injection h with h; subst h
        exact ⟨0, s, by simp, rfl, by simpa [State.payload] using Appended.refl s, by simpa [State.payload] using hlt⟩
    · injection h with h; subst h; cases hc

/-- PACK changes only ES, ESLEN and the latch, and raises NoCode or Capacity (44_bitpacker_decoder.md R230). -/
theorem packFrom_frame (i : Nat) (m : List Byte) (s : State) :
    (packFrom i m s).state = { s with
      es := (packFrom i m s).state.es, esLen := (packFrom i m s).state.esLen
      err := (packFrom i m s).state.err, errInfo := (packFrom i m s).state.errInfo } ∧
    ((packFrom i m s).state.err = s.err ∨ (packFrom i m s).state.err = some .noCode ∨
      (packFrom i m s).state.err = some .capacity) := by
  induction m generalizing s i with
  | nil => exact ⟨rfl, .inl rfl⟩
  | cons a m ih =>
    rw [packFrom]
    split
    · rcases esAppend_cases (s.ctAt a.toNat).code s with ⟨-, u, hu, ha⟩ | ⟨-, hr⟩
      · rw [hu, CommandResult.ended_andThen]
        obtain ⟨hf, he⟩ := ih (i + 1) u
        refine ⟨?_, ?_⟩
        · rw [hf, ha.rest]
        · rwa [show u.err = s.err by rw [ha.rest]] at he
      · rw [hr]; exact ⟨rfl, .inr (.inr rfl)⟩
    · exact ⟨rfl, .inr (.inl rfl)⟩

/-- PADB changes only ES, ESLEN and the latch, and raises nothing but Capacity (44_bitpacker_decoder.md R236). -/
theorem padLoop_frame (k : Nat) (s : State) :
    (padLoop k s).state = { s with
      es := (padLoop k s).state.es, esLen := (padLoop k s).state.esLen
      err := (padLoop k s).state.err, errInfo := (padLoop k s).state.errInfo } ∧
    ((padLoop k s).state.err = s.err ∨ (padLoop k s).state.err = some .capacity) := by
  induction k generalizing s with
  | zero => exact ⟨rfl, .inl rfl⟩
  | succ k ih =>
    rw [padLoop]
    split
    · exact ⟨rfl, .inl rfl⟩
    · rcases esAppend_cases [false] s with ⟨-, u, hu, ha⟩ | ⟨-, hr⟩
      · rw [hu, CommandResult.ended_andThen]
        obtain ⟨hf, he⟩ := ih u
        refine ⟨?_, ?_⟩
        · rw [hf, ha.rest]
        · rwa [show u.err = s.err by rw [ha.rest]] at he
      · rw [hr]; exact ⟨rfl, .inr rfl⟩

end Sys2Proof.Machine
end

