-- ==== Sys2Proof/Laws/TreeBuilder.lean ====
section
/-! SUPPORT. What the queue and the merge loop of the TreeBuilder do (41_tree_builder.md R152 to R157): `extractMin` takes the
node with the smallest key; an induction principle for the merge loop; and, from it, that the loop keeps the symbols, their
prefix-freeness, the bounds of the code lengths and the sum of the weights. -/

namespace Sys2Proof.Machine

/-! ## The queue -/

theorem Node.keyLt_iff (a b : Node) :
    a.keyLt b = true ↔ a.weight < b.weight ∨ (a.weight = b.weight ∧ a.id < b.id) := by
  simp [Node.keyLt]

theorem extractMin_eq_none {q : List Node} : extractMin q = none ↔ q = [] := by
  cases q with
  | nil => simp [extractMin]
  | cons x xs =>
    rw [extractMin]
    split
    · simp
    · split <;> simp

/-- `extract_min(Q)`: the rest is the queue without the node, and no node of it has a smaller key (41_tree_builder.md R154). -/
theorem extractMin_spec {q : List Node} {m : Node} {rest : List Node} (h : extractMin q = some (m, rest)) :
    q.Perm (m :: rest) ∧ ∀ n ∈ rest, n.keyLt m = false := by
  induction q generalizing m rest with
  | nil => simp [extractMin] at h
  | cons x xs ih =>
    rw [extractMin] at h
    split at h
    · next hn =>
      rw [extractMin_eq_none] at hn
      subst hn
      obtain ⟨rfl, rfl⟩ := Prod.mk.inj (Option.some.inj h)
      exact ⟨List.Perm.refl _, by simp⟩
    · next m' r' hm =>
      obtain ⟨hp, hmin⟩ := ih hm
      split at h
      · next hlt =>
        obtain ⟨rfl, rfl⟩ := Prod.mk.inj (Option.some.inj h)
        refine ⟨List.Perm.refl _, fun n hn => ?_⟩
        rw [Node.keyLt_iff] at hlt
        rw [Bool.eq_false_iff, ne_eq, Node.keyLt_iff]
        rcases List.mem_cons.mp (hp.mem_iff.mp hn) with rfl | hn
        · omega
        · have := hmin n hn
          rw [Bool.eq_false_iff, ne_eq, Node.keyLt_iff] at this
          omega
      · next hlt =>
        obtain ⟨rfl, rfl⟩ := Prod.mk.inj (Option.some.inj h)
        refine ⟨(List.Perm.cons x hp).trans (List.Perm.swap _ _ _), fun n hn => ?_⟩
        rcases List.mem_cons.mp hn with rfl | hn
        · simpa using hlt
        · exact hmin n hn

theorem extractMin_length {q : List Node} {m : Node} {rest : List Node} (h : extractMin q = some (m, rest)) :
    q.length = rest.length + 1 := by simpa using (extractMin_spec h).1.length_eq

theorem extractMin_weight_le {q : List Node} {m : Node} {rest : List Node} (h : extractMin q = some (m, rest)) {n : Node}
    (hn : n ∈ q) : m.weight ≤ n.weight := by
  obtain ⟨hp, hmin⟩ := extractMin_spec h
  rcases List.mem_cons.mp (hp.mem_iff.mp hn) with rfl | hn
  · exact le_rfl
  · have := hmin n hn
    rw [Bool.eq_false_iff, ne_eq, Node.keyLt_iff] at this
    omega

/-! ## The merge loop -/

/-- One pass, when two nodes are there to merge (41_tree_builder.md R155). -/
theorem mergeLoop_succ {q : List Node} (h : 2 ≤ q.length) (k id : Nat) :
    ∃ lo hi q1 q2, extractMin q = some (lo, q1) ∧ extractMin q1 = some (hi, q2) ∧ q.Perm (lo :: hi :: q2) ∧
      mergeLoop (k + 1) id q = mergeLoop k (id + 1) (mergeNodes id lo hi :: q2) := by
  rcases h1 : extractMin q with _ | ⟨lo, q1⟩
  · rw [extractMin_eq_none] at h1; subst h1; simp at h
  rcases h2 : extractMin q1 with _ | ⟨hi, q2⟩
  · rw [extractMin_eq_none] at h2; subst h2
    have := extractMin_length h1; simp at this; omega
  refine ⟨lo, hi, q1, q2, rfl, h2, (extractMin_spec h1).1.trans ((extractMin_spec h2).1.cons lo), ?_⟩
  rw [mergeLoop, h1]
  simp only [h2]

/-- What holds of the queue before the loop and is kept by each merge holds after it. -/
theorem mergeLoop_induct {I : Nat → List Node → Prop}
    (hstep : ∀ id q lo hi q1 q2, I id q → extractMin q = some (lo, q1) → extractMin q1 = some (hi, q2) →
      q.Perm (lo :: hi :: q2) → I (id + 1) (mergeNodes id lo hi :: q2))
    (k id : Nat) (q : List Node) (h : I id q) : ∃ id', I id' (mergeLoop k id q) := by
  induction k generalizing id q with
  | zero => exact ⟨id, h⟩
  | succ k ih =>
    by_cases hq : 2 ≤ q.length
    · obtain ⟨lo, hi, q1, q2, h1, h2, hp, he⟩ := mergeLoop_succ hq k id
      rw [he]
      exact ih _ _ (hstep id q lo hi q1 q2 h h1 h2 hp)
    · refine ⟨id, ?_⟩
      rw [mergeLoop]
      split
      · exact h
      · next lo q1 h1 =>
        have hl := extractMin_length h1
        obtain rfl : q1 = [] := List.eq_nil_of_length_eq_zero (by omega)
        simpa [extractMin] using h

/-- The loop leaves one node (41_tree_builder.md R156). -/
theorem mergeLoop_length (k id : Nat) (q : List Node) (h : q.length = k + 1) : (mergeLoop k id q).length = 1 := by
  induction k generalizing id q with
  | zero => exact h
  | succ k ih =>
    obtain ⟨lo, hi, q1, q2, h1, h2, hp, he⟩ := mergeLoop_succ (q := q) (by omega) k id
    rw [he]
    refine ih _ _ ?_
    have := hp.length_eq
    simp only [List.length_cons] at this ⊢
    omega

theorem treeCodes_node {q : List Node} (h : q ≠ []) :
    ∃ n, mergeLoop (q.length - 1) q.length q = [n] ∧ treeCodes q = n.members := by
  have hl := mergeLoop_length (q.length - 1) q.length q (by have := List.length_pos_of_ne_nil h; omega)
  obtain ⟨n, hn⟩ := List.length_eq_one_iff.mp hl
  exact ⟨n, hn, by rw [treeCodes, hn]⟩

/-- An invariant of the merge loop that holds of the leaves holds of the one node left. -/
theorem treeCodes_induct {P : List Node → Prop}
    (hstep : ∀ id q lo hi q2, P q → q.Perm (lo :: hi :: q2) → P (mergeNodes id lo hi :: q2))
    {q : List Node} (hq : q ≠ []) (h : P q) : ∃ n, P [n] ∧ treeCodes q = n.members := by
  obtain ⟨n, hn, he⟩ := treeCodes_node hq
  obtain ⟨-, hP⟩ := mergeLoop_induct (I := fun _ => P) (fun id q lo hi _ q2 h _ _ hp => hstep id q lo hi q2 h hp)
    (q.length - 1) q.length q h
  rw [hn] at hP
  exact ⟨n, hP, he⟩

/-! ## What the loop keeps -/

/-- The symbols under the nodes of a queue. -/
def queueSymbols (q : List Node) : List Nat := q.flatMap (fun n => n.members.map (·.1))

theorem mergeNodes_members (id : Nat) (lo hi : Node) :
    (mergeNodes id lo hi).members = lo.under false ++ hi.under true := rfl

theorem map_fst_under (b : Bool) (n : Node) : (n.under b).map (·.1) = n.members.map (·.1) := by
  simp [Node.under]

theorem queueSymbols_merge {id : Nat} {q q2 : List Node} {lo hi : Node} (hp : q.Perm (lo :: hi :: q2)) :
    (queueSymbols (mergeNodes id lo hi :: q2)).Perm (queueSymbols q) := by
  refine List.Perm.trans ?_ (hp.flatMap_right (fun n => n.members.map (·.1))).symm
  simp [queueSymbols, mergeNodes_members, map_fst_under]

theorem mem_under {b : Bool} {n : Node} {a : Nat} {c : Bits} (h : (a, c) ∈ n.under b) :
    ∃ d, (a, d) ∈ n.members ∧ c = b :: d := by
  obtain ⟨⟨a', d⟩, hm, he⟩ := List.mem_map.mp h
  obtain ⟨rfl, rfl⟩ := Prod.mk.inj he
  exact ⟨d, hm, rfl⟩

theorem unrelated_cons {b : Bool} {c d : Bits} (h : Unrelated c d) : Unrelated (b :: c) (b :: d) :=
  ⟨fun hp => h.1 (List.cons_prefix_cons.mp hp).2, fun hp => h.2 (List.cons_prefix_cons.mp hp).2⟩

theorem unrelated_heads {b b' : Bool} (h : b ≠ b') (c d : Bits) : Unrelated (b :: c) (b' :: d) :=
  ⟨fun hp => h (List.cons_prefix_cons.mp hp).1, fun hp => h (List.cons_prefix_cons.mp hp).1.symm⟩

theorem prefixFree_merge {id : Nat} {lo hi : Node} (h1 : PrefixFreeCodes lo.members) (h2 : PrefixFreeCodes hi.members) :
    PrefixFreeCodes (mergeNodes id lo hi).members := by
  intro a c b d hc hd hab
  rw [mergeNodes_members, List.mem_append] at hc hd
  rcases hc with hc | hc <;> rcases hd with hd | hd <;> obtain ⟨c', hc', rfl⟩ := mem_under hc <;>
    obtain ⟨d', hd', rfl⟩ := mem_under hd
  · exact unrelated_cons (h1 a c' b d' hc' hd' hab)
  · exact unrelated_heads (by decide) _ _
  · exact unrelated_heads (by decide) _ _
  · exact unrelated_cons (h2 a c' b d' hc' hd' hab)

/-- The loop keeps the symbols and makes prefix-free codes (41_tree_builder.md R156, R168). -/
theorem treeCodes_prefixFree {q : List Node} (hq : q ≠ []) (h : ∀ n ∈ q, PrefixFreeCodes n.members) :
    PrefixFreeCodes (treeCodes q) := by
  obtain ⟨n, hn, he⟩ := treeCodes_induct (P := fun q => ∀ n ∈ q, PrefixFreeCodes n.members)
    (fun id q lo hi q2 h hp n hn => by
      rcases List.mem_cons.mp hn with rfl | hn
      · exact prefixFree_merge (h lo (hp.mem_iff.mpr (by simp))) (h hi (hp.mem_iff.mpr (by simp)))
      · exact h n (hp.mem_iff.mpr (by simp [hn]))) hq h
  rw [he]
  exact hn n (by simp)

theorem treeCodes_symbols {q : List Node} (hq : q ≠ []) : ((treeCodes q).map (·.1)).Perm (queueSymbols q) := by
  obtain ⟨n, hn, he⟩ := treeCodes_induct (P := fun r => (queueSymbols r).Perm (queueSymbols q))
    (fun id r lo hi q2 h hp => (queueSymbols_merge hp).trans h) hq (List.Perm.refl _)
  rw [he]
  simpa [queueSymbols] using hn

/-- With two leaves or more no code is empty (41_tree_builder.md R156). -/
theorem treeCodes_nonempty {q : List Node} (hq : 2 ≤ q.length) {a : Nat} {c : Bits} (h : (a, c) ∈ treeCodes q) : c ≠ [] := by
  obtain ⟨n, hn, he⟩ := treeCodes_induct
    (P := fun r => r.length = 1 → ∀ n ∈ r, ∀ m ∈ n.members, m.2 ≠ [])
    (fun id r lo hi q2 _ _ hl n hn m hm => by
      rcases List.mem_cons.mp hn with rfl | hn
      · rw [mergeNodes_members, List.mem_append] at hm
        rcases hm with hm | hm <;> obtain ⟨d, -, hd⟩ := mem_under (a := m.1) (c := m.2) hm <;> simp [hd]
      · simp at hl; simp [hl] at hn)
    (q := q) (by rintro rfl; simp at hq) (fun hl => by omega)
  rw [he] at h
  exact hn rfl n (by simp) _ h

/-- A code is shorter than the number of symbols (41_tree_builder.md R164). -/
theorem treeCodes_length_lt {q : List Node} (hq : q ≠ []) (h : ∀ n ∈ q, ∃ a, n.members = [(a, [])]) {a : Nat} {c : Bits}
    (hc : (a, c) ∈ treeCodes q) : c.length < q.length := by
  obtain ⟨n, hn, he⟩ := treeCodes_induct
    (P := fun r => (∀ n ∈ r, 0 < n.members.length ∧ ∀ m ∈ n.members, m.2.length < n.members.length) ∧
      (queueSymbols r).Perm (queueSymbols q))
    (fun id r lo hi q2 ⟨h, hs⟩ hp => ⟨fun n hn => by
      have hlo := h lo (hp.mem_iff.mpr (by simp))
      have hhi := h hi (hp.mem_iff.mpr (by simp))
      rcases List.mem_cons.mp hn with rfl | hn
      · have hl : (mergeNodes id lo hi).members.length = lo.members.length + hi.members.length := by
          simp [mergeNodes_members, Node.under]
        refine ⟨by omega, fun m hm => ?_⟩
        rw [mergeNodes_members, List.mem_append] at hm
        rcases hm with hm | hm <;> obtain ⟨d, hd, he⟩ := mem_under (a := m.1) (c := m.2) hm
        · have := hlo.2 _ hd
          simp only [he, List.length_cons] at this ⊢
          omega
        · have := hhi.2 _ hd
          simp only [he, List.length_cons] at this ⊢
          omega
      · exact h n (hp.mem_iff.mpr (by simp [hn])), (queueSymbols_merge hp).trans hs⟩)
    hq ⟨fun n hn => by obtain ⟨b, hb⟩ := h n hn; simp [hb], List.Perm.refl _⟩
  rw [he] at hc
  have h1 := (hn.1 n (by simp)).2 _ hc
  have h2 := hn.2.length_eq
  have h3 : (queueSymbols q).length = q.length := by
    rw [queueSymbols, List.length_flatMap]
    rw [List.map_congr_left (g := fun _ => 1) fun n hn => by obtain ⟨b, hb⟩ := h n hn; simp [hb]]
    simp
  rw [h3] at h2
  simp only [queueSymbols, List.flatMap_cons, List.flatMap_nil, List.append_nil, List.length_map] at h1 h2
  omega

/-- The weights of the nodes in the queue always have the same sum (41_tree_builder.md R156, R157). -/
theorem mergeLoop_weight (k id : Nat) (q : List Node) :
    ((mergeLoop k id q).map (·.weight)).sum = (q.map (·.weight)).sum := by
  obtain ⟨-, h⟩ := mergeLoop_induct (I := fun _ r => (r.map (·.weight)).sum = (q.map (·.weight)).sum)
    (fun id r lo hi _ q2 h _ _ hp => by
      rw [← h, (hp.map (·.weight)).sum_eq]
      simp [mergeNodes, Nat.add_assoc]) k id q rfl
  exact h

end Sys2Proof.Machine
end

