-- ==== Sys2Proof/Laws/PrefixGuard.lean ====
section
/-! SUPPORT. Where the dummy ends up (42_prefix_guard.md R182): the merge with the dummy is the merge without it, one bit deeper
under "0", and the dummy's code is "1". Then the collision rewrite (R184, R186, R187). -/

namespace Sys2Proof.Machine

/-! ## The queue has one smallest node -/

theorem extractMin_strict {q : List Node} {m : Node} {rest : List Node} (h : extractMin q = some (m, rest))
    (hn : (q.map (·.id)).Nodup) : ∀ n ∈ rest, m.keyLt n = true := by
  intro n hr
  obtain ⟨hp, hmin⟩ := extractMin_spec h
  have h1 := hmin n hr
  have h2 : m.id ≠ n.id := by
    have := (hp.map (·.id)).nodup_iff.mp hn
    rw [List.map_cons, List.nodup_cons] at this
    intro he
    exact this.1 (by rw [he]; exact List.mem_map_of_mem hr)
  rw [Bool.eq_false_iff, ne_eq, Node.keyLt_iff] at h1
  rw [Node.keyLt_iff]
  omega

/-- A node smaller than all others is the one taken, whatever the order of the list. -/
theorem extractMin_unique {q r : List Node} {m : Node} (hp : q.Perm (m :: r)) (hs : ∀ n ∈ r, m.keyLt n = true) :
    ∃ r', extractMin q = some (m, r') ∧ r'.Perm r := by
  rcases h : extractMin q with _ | ⟨m', r'⟩
  · rw [extractMin_eq_none] at h; subst h; simpa using hp.length_eq
  obtain ⟨hp', hmin⟩ := extractMin_spec h
  have hm : m' = m := by
    by_contra hne
    have h1 : m' ∈ r := by
      have := hp.mem_iff.mp (hp'.mem_iff.mpr (List.mem_cons_self (a := m')))
      rcases List.mem_cons.mp this with h | h
      · exact absurd h hne
      · exact h
    have h2 : m ∈ r' := by
      have := hp'.mem_iff.mp (hp.mem_iff.mpr (List.mem_cons_self (a := m)))
      rcases List.mem_cons.mp this with h | h
      · exact absurd h.symm hne
      · exact h
    have := hmin m h2
    rw [hs m' h1] at this
    cases this
  subst hm
  exact ⟨r', rfl, (hp'.symm.trans hp).cons_inv⟩

/-! ## The same merges with the dummy present -/

/-- The id a node has in the guarded run: the dummy took id `k`, so every merged node's id is one more. -/
def Node.shift (k : Nat) (n : Node) : Node := if n.id < k then n else { n with id := n.id + 1 }

theorem Node.shift_weight (k : Nat) (n : Node) : (n.shift k).weight = n.weight := by unfold Node.shift; split <;> rfl
theorem Node.shift_members (k : Nat) (n : Node) : (n.shift k).members = n.members := by unfold Node.shift; split <;> rfl
theorem Node.shift_id (k : Nat) (n : Node) : (n.shift k).id = if n.id < k then n.id else n.id + 1 := by
  unfold Node.shift; split <;> rfl

theorem Node.keyLt_shift {k : Nat} {a b : Node} (h : a.keyLt b = true) : (a.shift k).keyLt (b.shift k) = true := by
  rw [Node.keyLt_iff] at h ⊢
  rw [Node.shift_weight, Node.shift_weight, Node.shift_id, Node.shift_id]
  split <;> split <;> omega

theorem mergeNodes_shift {k id : Nat} (h : k ≤ id) (lo hi : Node) :
    mergeNodes (id + 1) (lo.shift k) (hi.shift k) = (mergeNodes id lo hi).shift k := by
  have : (mergeNodes id lo hi).shift k = { mergeNodes id lo hi with id := id + 1 } := by
    unfold Node.shift
    rw [if_neg (by show ¬ id < k; omega)]
    rfl
  rw [this]
  simp [mergeNodes, Node.under, Node.shift_weight, Node.shift_members]

/-- The guarded merge follows the unguarded one until one real node is left, then puts it under "0" and the dummy under "1". -/
theorem guarded_merge {k kk id : Nat} {q q' : List Node} {d : Node} (hlen : q.length = k + 1) (hk : kk ≤ id)
    (hid : ∀ n ∈ q, n.id < id) (hnd : (q.map (·.id)).Nodup) (hw : (q.map (·.weight)).sum < d.weight)
    (hp : q'.Perm (d :: q.map (Node.shift kk))) :
    ∃ n n', mergeLoop k id q = [n] ∧ mergeLoop (k + 1) (id + 1) q' = [n'] ∧ n'.members = n.under false ++ d.under true := by
  induction k generalizing id q q' with
  | zero =>
    obtain ⟨n, rfl⟩ := List.length_eq_one_iff.mp hlen
    have hlt : (n.shift kk).keyLt d = true := by
      rw [Node.keyLt_iff, Node.shift_weight]
      simp only [List.map_cons, List.map_nil, List.sum_cons, List.sum_nil] at hw
      omega
    obtain ⟨r1, h1, hp1⟩ := extractMin_unique (q := q') (m := n.shift kk) (r := [d])
      (hp.trans (List.Perm.swap _ _ _)) (by simpa using hlt)
    obtain rfl : r1 = [d] := List.perm_singleton.mp hp1
    refine ⟨n, mergeNodes (id + 1) (n.shift kk) d, rfl, ?_, ?_⟩
    · rw [mergeLoop, h1]
      simp only [extractMin, mergeLoop]
    · simp [mergeNodes, Node.under, Node.shift_members]
  | succ k ih =>
    obtain ⟨lo, hi, q1, q2, h1, h2, hpq, he⟩ := mergeLoop_succ (q := q) (by omega) k id
    have hs1 := extractMin_strict h1 hnd
    have hp1 := (extractMin_spec h1).1
    have hnd1 : (q1.map (·.id)).Nodup := by
      have := (hp1.map (·.id)).nodup_iff.mp hnd
      rw [List.map_cons, List.nodup_cons] at this
      exact this.2
    have hs2 := extractMin_strict h2 hnd1
    have hp2 := (extractMin_spec h2).1
    have hsum := (hpq.map (·.weight)).sum_eq
    simp only [List.map_cons, List.sum_cons] at hsum
    obtain ⟨r1, hr1, hpr1⟩ := extractMin_unique (q := q') (m := lo.shift kk) (r := d :: q1.map (Node.shift kk))
      (hp.trans ((((hp1.map (Node.shift kk)).cons d)).trans (List.Perm.swap _ _ _)))
      (fun n hn => by
        rcases List.mem_cons.mp hn with rfl | hn
        · rw [Node.keyLt_iff, Node.shift_weight]; omega
        · obtain ⟨m, hm, rfl⟩ := List.mem_map.mp hn
          exact Node.keyLt_shift (hs1 m hm))
    obtain ⟨r2, hr2, hpr2⟩ := extractMin_unique (q := r1) (m := hi.shift kk) (r := d :: q2.map (Node.shift kk))
      (hpr1.trans (((hp2.map (Node.shift kk)).cons d).trans (List.Perm.swap _ _ _)))
      (fun n hn => by
        rcases List.mem_cons.mp hn with rfl | hn
        · rw [Node.keyLt_iff, Node.shift_weight]; omega
        · obtain ⟨m, hm, rfl⟩ := List.mem_map.mp hn
          exact Node.keyLt_shift (hs2 m hm))
    have hidq : ∀ n ∈ q2, n.id < id := fun n hn => hid n (hpq.mem_iff.mpr (by simp [hn]))
    have hnd2 : (q2.map (·.id)).Nodup := by
      have := (hp2.map (·.id)).nodup_iff.mp hnd1
      rw [List.map_cons, List.nodup_cons] at this
      exact this.2
    obtain ⟨n, n', hn, hn', hmem⟩ := ih (id := id + 1) (q := mergeNodes id lo hi :: q2)
      (q' := mergeNodes (id + 1) (lo.shift kk) (hi.shift kk) :: r2)
      (by have := hpq.length_eq; simp only [List.length_cons] at this ⊢; omega) (by omega)
      (fun n hn => by
        rcases List.mem_cons.mp hn with rfl | hn
        · show id < id + 1; omega
        · have := hidq n hn; omega)
      (by
        rw [List.map_cons, List.nodup_cons]
        refine ⟨fun hm => ?_, hnd2⟩
        obtain ⟨n, hn, he⟩ := List.mem_map.mp hm
        have := hidq n hn
        have he : n.id = id := he
        omega)
      (by
        simp only [List.map_cons, List.sum_cons, mergeNodes]
        omega)
      (by
        rw [mergeNodes_shift hk, List.map_cons]
        exact (hpr2.cons _).trans (List.Perm.swap _ _ _))
    refine ⟨n, n', by rw [he]; exact hn, ?_, hmem⟩
    rw [mergeLoop, hr1]
    simp only [hr2]
    exact hn'

/-! ## The leaves -/

theorem length_leaves (ws : List (Nat × Nat)) : (leaves ws).length = ws.length := by simp [leaves]

theorem leaves_ids (ws : List (Nat × Nat)) : (leaves ws).map (·.id) = List.range ws.length := by
  simp only [leaves, List.map_map]
  have : ((fun n : Node => n.id) ∘ fun p : (Nat × Nat) × Nat => { weight := p.1.2, id := p.2, members := [(p.1.1, [])] })
      = Prod.snd := rfl
  rw [this, List.zipIdx_map_snd, List.range_eq_range']

theorem leaves_weights (ws : List (Nat × Nat)) : (leaves ws).map (·.weight) = ws.map (·.2) := by
  simp only [leaves, List.map_map]
  have : ((fun n : Node => n.weight) ∘ fun p : (Nat × Nat) × Nat => { weight := p.1.2, id := p.2, members := [(p.1.1, [])] })
      = Prod.snd ∘ Prod.fst := rfl
  rw [this, ← List.map_map, List.zipIdx_map_fst]

theorem leaves_symbols (ws : List (Nat × Nat)) : queueSymbols (leaves ws) = ws.map (·.1) := by
  have h : ∀ l : List ((Nat × Nat) × Nat), queueSymbols (l.map fun p : (Nat × Nat) × Nat =>
      ({ weight := p.1.2, id := p.2, members := [(p.1.1, [])] } : Node)) = (l.map Prod.fst).map (·.1) := by
    intro l
    induction l with
    | nil => rfl
    | cons a l ih =>
      rw [List.map_cons, List.map_cons, List.map_cons, ← ih]
      rfl
  rw [leaves, h, List.zipIdx_map_fst]

theorem leaves_members {ws : List (Nat × Nat)} {n : Node} (h : n ∈ leaves ws) : ∃ a, n.members = [(a, [])] := by
  obtain ⟨p, -, rfl⟩ := List.mem_map.mp h
  exact ⟨p.1.1, rfl⟩

theorem leaves_prefixFree {ws : List (Nat × Nat)} {n : Node} (h : n ∈ leaves ws) : PrefixFreeCodes n.members := by
  obtain ⟨x, hx⟩ := leaves_members h
  intro a c b d hc hd hab
  rw [hx, List.mem_singleton] at hc hd
  exact absurd ((Prod.mk.inj hc).1.trans (Prod.mk.inj hd).1.symm) hab

/-- The codes of the guarded merge (42_prefix_guard.md R182): "0" in front of each unguarded code, and "1" for the dummy. -/
theorem treeCodes_guarded {ws : List (Nat × Nat)} (hws : ws ≠ []) :
    treeCodes (leaves ws ++ [dummyLeaf ws]) =
      (treeCodes (leaves ws)).map (fun m => (m.1, false :: m.2)) ++ [(dummySymbol, [true])] := by
  have hpos : 0 < ws.length := List.length_pos_iff.mpr hws
  have hsh : (leaves ws).map (Node.shift ws.length) = leaves ws := by
    rw [List.map_congr_left (g := id) fun n hn => ?_, List.map_id]
    have : n.id ∈ (leaves ws).map (·.id) := List.mem_map_of_mem hn
    rw [leaves_ids, List.mem_range] at this
    unfold Node.shift
    rw [if_pos this]; rfl
  obtain ⟨n, n', hn, hn', hm⟩ := guarded_merge (k := ws.length - 1) (kk := ws.length) (id := ws.length) (q := leaves ws)
    (q' := leaves ws ++ [dummyLeaf ws]) (d := dummyLeaf ws) (by rw [length_leaves]; omega) le_rfl
    (fun n hn => by
      have : n.id ∈ (leaves ws).map (·.id) := List.mem_map_of_mem hn
      rwa [leaves_ids, List.mem_range] at this)
    (by rw [leaves_ids]; exact List.nodup_range)
    (by rw [leaves_weights]; show _ < (ws.map (·.2)).sum + 1; omega)
    (by rw [hsh]; exact List.perm_append_singleton _ _)
  have h1 : treeCodes (leaves ws) = n.members := by
    rw [treeCodes, length_leaves, hn]
  have h2 : treeCodes (leaves ws ++ [dummyLeaf ws]) = n'.members := by
    have hl : (leaves ws ++ [dummyLeaf ws]).length = ws.length + 1 := by simp [length_leaves]
    rw [treeCodes, hl, Nat.add_sub_cancel]
    rw [Nat.sub_add_cancel hpos] at hn'
    rw [hn']
  rw [h1, h2, hm]
  rfl

/-! ## The rewrite -/

theorem mem_rewriteCollisions {rp : Bits} {codes : Codes} {a : Nat} {c : Bits} :
    (a, c) ∈ rewriteCollisions rp codes ↔ ∃ d, (a, d) ∈ codes ∧ c = if startsWith d rp then flip0 d else d := by
  unfold rewriteCollisions
  rw [List.mem_map]
  constructor
  · rintro ⟨⟨a', d⟩, hd, he⟩
    dsimp only at he
    split at he
    · next h => obtain ⟨rfl, rfl⟩ := Prod.mk.inj he; exact ⟨d, hd, by rw [if_pos h]⟩
    · next h => obtain ⟨rfl, rfl⟩ := Prod.mk.inj he; exact ⟨d, hd, by rw [if_neg h]⟩
  · rintro ⟨d, hd, rfl⟩
    refine ⟨(a, d), hd, ?_⟩
    dsimp only
    split <;> rfl

theorem rewriteCollisions_symbols (rp : Bits) (codes : Codes) :
    (rewriteCollisions rp codes).map (·.1) = codes.map (·.1) := by
  unfold rewriteCollisions
  rw [List.map_map]
  refine List.map_congr_left fun c _ => ?_
  simp only [Function.comp]
  split <;> rfl

/-- No rewritten code starts with the reserved prefix (42_prefix_guard.md R186). -/
theorem rewriteCollisions_avoid {rp : Bits} (hrp : rp ≠ []) {codes : Codes} {a : Nat} {c : Bits}
    (h : (a, c) ∈ rewriteCollisions rp codes) : ¬ rp <+: c := by
  obtain ⟨d, -, rfl⟩ := mem_rewriteCollisions.mp h
  split
  · next hs =>
    rw [startsWith_iff] at hs
    cases rp with
    | nil => exact absurd rfl hrp
    | cons x rp =>
      cases d with
      | nil => simp at hs
      | cons y d =>
        intro hp
        have h1 := (List.cons_prefix_cons.mp hs).1
        have h2 := (List.cons_prefix_cons.mp hp).1
        rw [h1] at h2
        cases y <;> cases h2
  · next hs => rwa [startsWith_iff] at hs

/-- Codes that all begin with "0" and are prefix-free stay so (42_prefix_guard.md R187). -/
theorem rewriteCollisions_prefixFree {rp : Bits} {codes : Codes} (h0 : ∀ a c, (a, c) ∈ codes → ∃ d, c = false :: d)
    (hf : PrefixFreeCodes codes) : PrefixFreeCodes (rewriteCollisions rp codes) := by
  intro a c b d hc hd hab
  obtain ⟨c', hc', rfl⟩ := mem_rewriteCollisions.mp hc
  obtain ⟨d', hd', rfl⟩ := mem_rewriteCollisions.mp hd
  have hu := hf a c' b d' hc' hd' hab
  obtain ⟨x, rfl⟩ := h0 _ _ hc'
  obtain ⟨y, rfl⟩ := h0 _ _ hd'
  have hxy : Unrelated x y :=
    ⟨fun h => hu.1 (List.cons_prefix_cons.mpr ⟨rfl, h⟩), fun h => hu.2 (List.cons_prefix_cons.mpr ⟨rfl, h⟩)⟩
  split <;> split
  · exact unrelated_cons hxy
  · exact unrelated_heads (by decide) _ _
  · exact unrelated_heads (by decide) _ _
  · exact hu

end Sys2Proof.Machine
end

