-- ==== Sys2Proof/Laws/Build.lean ====
section
/-! SUPPORT. What the parts of BUILD do (41_tree_builder.md R150): the alphabet it reads, the codes it makes for any alphabet and
any reserved prefix, the length check, and the entries it writes. -/

namespace Sys2Proof.Machine

/-! ## The alphabet -/

theorem State.mem_weights {s : State} {p : Nat × Nat} :
    p ∈ s.weights ↔ p.1 < nSym ∧ p.2 = (s.freqAt p.1).toNat ∧ p.2 ≠ 0 := by
  obtain ⟨a, w⟩ := p
  simp only [State.weights, List.mem_filter, List.mem_map, List.mem_range, Prod.mk.injEq, bne_iff_ne]
  constructor
  · rintro ⟨⟨b, hb, rfl, rfl⟩, hw⟩; exact ⟨hb, rfl, hw⟩
  · rintro ⟨hb, rfl, hw⟩; exact ⟨⟨a, hb, rfl, rfl⟩, hw⟩

/-- What BUILD finds in FREQ is an alphabet: symbols rising, weights not 0 and below 2^32 (41_tree_builder.md R150 line 2). -/
theorem State.weights_alphabet (s : State) : Alphabet s.weights where
  sorted := by
    refine List.Pairwise.filter _ (List.pairwise_map.mpr ?_)
    exact List.pairwise_lt_range
  symbols p hp := (State.mem_weights.mp hp).1
  weights p hp := by
    obtain ⟨-, h, h0⟩ := State.mem_weights.mp hp
    have := (s.freqAt p.1).isLt
    omega

theorem State.weights_of_freq {s t : State} (h : t.freq = s.freq) : t.weights = s.weights := by
  unfold State.weights State.freqAt; rw [h]

theorem State.rp_of_rpcfg {s t : State} (hl : t.rpLen = s.rpLen) (hv : t.rpVal = s.rpVal) : t.rp = s.rp := by
  unfold State.rp; rw [hl, hv]

theorem Alphabet.nodup {ws : List (Nat × Nat)} (h : Alphabet ws) : (ws.map (·.1)).Nodup := by
  refine List.Pairwise.imp (R := fun a b => a < b) (fun hab => Nat.ne_of_lt hab) ?_
  exact List.pairwise_map.mpr h.sorted

/-! ## The codes -/

/-- With the guard off and two symbols or more the codes are the tree's (41_tree_builder.md R150 lines 8 to 11). -/
theorem buildCodes_off {ws : List (Nat × Nat)} (h : ws.length ≠ 1) : buildCodes ws [] = treeCodes (leaves ws) := by
  unfold buildCodes
  rw [if_pos rfl]
  split
  · simp at h
  · rfl

theorem buildCodes_single (w : Nat × Nat) : buildCodes [w] [] = [(w.1, [false])] := rfl

theorem treeCodes_single (w : Nat × Nat) : treeCodes (leaves [w]) = [(w.1, [])] := rfl

theorem treeCodes_leaves_symbols {ws : List (Nat × Nat)} (h : ws ≠ []) :
    ((treeCodes (leaves ws)).map (·.1)).Perm (ws.map (·.1)) := by
  have := treeCodes_symbols (q := leaves ws) (by
    intro he; have := length_leaves ws; rw [he] at this; simp at this; exact h (List.eq_nil_of_length_eq_zero this.symm))
  rwa [leaves_symbols] at this

/-- The codes of the guarded merge once the dummy is removed: "0" in front of the unguarded tree's (42_prefix_guard.md R182,
R183). -/
theorem removeDummy_treeCodes {ws : List (Nat × Nat)} (hws : ws ≠ []) (hs : ∀ p ∈ ws, p.1 < nSym) :
    removeDummy (treeCodes (leaves ws ++ [dummyLeaf ws])) =
      (treeCodes (leaves ws)).map (fun m => (m.1, false :: m.2)) := by
  rw [treeCodes_guarded hws, removeDummy, List.filter_append]
  have h1 : [((dummySymbol, [true]) : Nat × Bits)].filter (fun c => c.1 != dummySymbol) = [] := rfl
  rw [h1, List.append_nil, List.filter_eq_self]
  intro m hm
  obtain ⟨x, hx, rfl⟩ := List.mem_map.mp hm
  have := (treeCodes_leaves_symbols hws).mem_iff.mp (List.mem_map_of_mem hx)
  obtain ⟨p, hp, hpx⟩ := List.mem_map.mp this
  have h2 : p.1 < 256 := hs p hp
  have h3 : x.1 ≠ 256 := by
    intro he
    have h4 : p.1 = x.1 := hpx
    omega
  simpa using h3

/-- The codes with the guard on: the rewrite of "0" in front of each code of the tree (42_prefix_guard.md R182 to R184). -/
theorem buildCodes_on {ws : List (Nat × Nat)} {rp : Bits} (hws : ws ≠ []) (hs : ∀ p ∈ ws, p.1 < nSym) (hrp : rp ≠ []) :
    buildCodes ws rp = rewriteCollisions rp ((treeCodes (leaves ws)).map (fun m => (m.1, false :: m.2))) := by
  unfold buildCodes
  rw [if_neg hrp, removeDummy_treeCodes hws hs]

/-- Exactly one code for each symbol of the alphabet (41_tree_builder.md R156, R161). -/
theorem buildCodes_symbols {ws : List (Nat × Nat)} {rp : Bits} (hws : ws ≠ []) (hs : ∀ p ∈ ws, p.1 < nSym) :
    ((buildCodes ws rp).map (·.1)).Perm (ws.map (·.1)) := by
  by_cases hrp : rp = []
  · subst hrp
    by_cases h1 : ws.length = 1
    · obtain ⟨w, rfl⟩ := List.length_eq_one_iff.mp h1
      exact List.Perm.refl _
    · rw [buildCodes_off h1]; exact treeCodes_leaves_symbols hws
  · rw [buildCodes_on hws hs hrp, rewriteCollisions_symbols, List.map_map]
    exact treeCodes_leaves_symbols hws

theorem buildCodes_nodup {ws : List (Nat × Nat)} {rp : Bits} (hws : ws ≠ []) (ha : Alphabet ws) :
    ((buildCodes ws rp).map (·.1)).Nodup := (buildCodes_symbols hws ha.symbols).nodup_iff.mpr ha.nodup

/-- The bounds of 41_tree_builder.md R164: with the guard off, 1 to K - 1 bits for K >= 2, and 1 bit for K = 1. -/
theorem buildCodes_length_off {ws : List (Nat × Nat)} {a : Nat} {c : Bits} (hws : ws ≠ []) (h : (a, c) ∈ buildCodes ws []) :
    1 ≤ c.length ∧ c.length ≤ max 1 (ws.length - 1) := by
  by_cases h1 : ws.length = 1
  · obtain ⟨w, rfl⟩ := List.length_eq_one_iff.mp h1
    rw [buildCodes_single, List.mem_singleton] at h
    obtain ⟨rfl, rfl⟩ := Prod.mk.inj h
    simp
  · rw [buildCodes_off h1] at h
    have hpos := List.length_pos_iff.mpr hws
    have hl := treeCodes_length_lt (q := leaves ws) (by
      intro he; have := length_leaves ws; rw [he] at this; simp at this; omega) (fun n hn => leaves_members hn) h
    have hn := treeCodes_nonempty (q := leaves ws) (by rw [length_leaves]; omega) h
    rw [length_leaves] at hl
    have := List.length_pos_iff.mpr hn
    omega

/-- The bounds of 41_tree_builder.md R164: with the guard on, 2 to K bits for K >= 2, and 1 bit for K = 1. -/
theorem buildCodes_length_on {ws : List (Nat × Nat)} {rp : Bits} {a : Nat} {c : Bits} (hws : ws ≠ [])
    (hs : ∀ p ∈ ws, p.1 < nSym) (hrp : rp ≠ []) (h : (a, c) ∈ buildCodes ws rp) :
    min 2 ws.length ≤ c.length ∧ c.length ≤ ws.length := by
  rw [buildCodes_on hws hs hrp] at h
  obtain ⟨d, hd, rfl⟩ := mem_rewriteCollisions.mp h
  obtain ⟨⟨x, e⟩, he, hm⟩ := List.mem_map.mp hd
  obtain ⟨rfl, rfl⟩ := Prod.mk.inj hm
  have hlen : (if startsWith (false :: e) rp then flip0 (false :: e) else false :: e).length = e.length + 1 := by
    split <;> simp
  dsimp only
  rw [hlen]
  have hpos := List.length_pos_iff.mpr hws
  have hl := treeCodes_length_lt (q := leaves ws) (by
    intro he; have := length_leaves ws; rw [he] at this; simp at this; omega) (fun n hn => leaves_members hn) he
  rw [length_leaves] at hl
  by_cases h1 : ws.length = 1
  · omega
  · have := List.length_pos_iff.mpr (treeCodes_nonempty (q := leaves ws) (by rw [length_leaves]; omega) he)
    omega

theorem buildCodes_nonempty {ws : List (Nat × Nat)} {rp : Bits} {a : Nat} {c : Bits} (hws : ws ≠ [])
    (hs : ∀ p ∈ ws, p.1 < nSym) (h : (a, c) ∈ buildCodes ws rp) : c ≠ [] := by
  refine List.length_pos_iff.mp ?_
  have hpos := List.length_pos_iff.mpr hws
  by_cases hrp : rp = []
  · subst hrp; have := buildCodes_length_off hws h; omega
  · have := buildCodes_length_on hws hs hrp h; omega

/-- The codes are prefix-free, guard off or on (41_tree_builder.md R168, 42_prefix_guard.md R187). -/
theorem buildCodes_prefixFree {ws : List (Nat × Nat)} {rp : Bits} (hws : ws ≠ []) (hs : ∀ p ∈ ws, p.1 < nSym) :
    PrefixFreeCodes (buildCodes ws rp) := by
  have hne : leaves ws ≠ [] := by
    intro he; have := length_leaves ws; rw [he] at this; simp at this; exact hws (List.eq_nil_of_length_eq_zero this.symm)
  have htree : PrefixFreeCodes (treeCodes (leaves ws)) := treeCodes_prefixFree hne fun n hn => leaves_prefixFree hn
  by_cases hrp : rp = []
  · subst hrp
    by_cases h1 : ws.length = 1
    · obtain ⟨w, rfl⟩ := List.length_eq_one_iff.mp h1
      intro a c b d hc hd hab
      rw [buildCodes_single, List.mem_singleton] at hc hd
      exact absurd ((Prod.mk.inj hc).1.trans (Prod.mk.inj hd).1.symm) hab
    · rw [buildCodes_off h1]; exact htree
  · rw [buildCodes_on hws hs hrp]
    refine rewriteCollisions_prefixFree (fun a c h => ?_) fun a c b d hc hd hab => ?_
    · obtain ⟨m, -, hm⟩ := List.mem_map.mp h
      exact ⟨m.2, (Prod.mk.inj hm).2.symm⟩
    · obtain ⟨m, hm, he⟩ := List.mem_map.mp hc
      obtain ⟨m', hm', he'⟩ := List.mem_map.mp hd
      obtain ⟨rfl, rfl⟩ := Prod.mk.inj he
      obtain ⟨rfl, rfl⟩ := Prod.mk.inj he'
      exact unrelated_cons (htree _ _ _ _ hm hm' hab)

/-- No code starts with the reserved prefix (42_prefix_guard.md R186). -/
theorem buildCodes_avoid {ws : List (Nat × Nat)} {rp : Bits} (hrp : rp ≠ []) {a : Nat} {c : Bits}
    (h : (a, c) ∈ buildCodes ws rp) : ¬ rp <+: c := by
  unfold buildCodes at h
  rw [if_neg hrp] at h
  exact rewriteCollisions_avoid hrp h

/-! ## The length check -/

theorem lookup_of_mem {codes : Codes} (hn : (codes.map (·.1)).Nodup) {a : Nat} {c : Bits} (h : (a, c) ∈ codes) :
    codes.lookup a = some c := by
  induction codes with
  | nil => cases h
  | cons x xs ih =>
    obtain ⟨b, d⟩ := x
    rw [List.map_cons, List.nodup_cons] at hn
    rcases List.mem_cons.mp h with he | hx
    · obtain ⟨rfl, rfl⟩ := Prod.mk.inj he; simp
    · have hm : a ∈ xs.map (·.1) := List.mem_map_of_mem (f := (·.1)) hx
      have : (a == b) = false := by
        rw [beq_eq_false_iff_ne]; rintro rfl; exact hn.1 hm
      rw [List.lookup_cons, this]
      exact ih hn.2 hx

theorem mem_of_lookup {codes : Codes} {a : Nat} {c : Bits} (h : codes.lookup a = some c) : (a, c) ∈ codes := by
  induction codes with
  | nil => cases h
  | cons x xs ih =>
    obtain ⟨b, d⟩ := x
    rw [List.lookup_cons] at h
    by_cases hab : a = b
    · subst hab
      simp only [beq_self_eq_true] at h
      obtain rfl := Option.some.inj h
      simp
    · have : (a == b) = false := by simpa using hab
      rw [this] at h
      exact List.mem_cons_of_mem _ (ih h)

theorem mem_tooLong {codes : Codes} (hn : (codes.map (·.1)).Nodup) {a l : Nat} :
    (a, l) ∈ tooLong codes ↔ a < nSym ∧ ∃ c, (a, c) ∈ codes ∧ codeMax < c.length ∧ l = c.length := by
  unfold tooLong
  rw [List.mem_filterMap]
  constructor
  · rintro ⟨b, hb, he⟩
    split at he
    · next c hc =>
      split at he
      · next hlt =>
        obtain ⟨rfl, rfl⟩ := Prod.mk.inj (Option.some.inj he)
        exact ⟨List.mem_range.mp hb, c, mem_of_lookup hc, hlt, rfl⟩
      · cases he
    · cases he
  · rintro ⟨ha, c, hc, hlt, rfl⟩
    refine ⟨a, List.mem_range.mpr ha, ?_⟩
    rw [lookup_of_mem hn hc]
    simp only [if_pos hlt]

/-- The symbols the check lists rise, so the first one is the smallest (41_tree_builder.md R160). -/
theorem tooLong_sorted (codes : Codes) : (tooLong codes).Pairwise (fun a b => a.1 < b.1) := by
  unfold tooLong
  rw [List.pairwise_filterMap]
  refine List.pairwise_lt_range.imp fun {a b} hab x hx y hy => ?_
  have key : ∀ (n : Nat) (z : Nat × Nat), (match codes.lookup n with
      | some c => if codeMax < c.length then some (n, c.length) else none
      | none => none) = some z → z.1 = n := by
    intro n z hz
    split at hz
    · split at hz
      · rw [← Option.some.inj hz]
      · cases hz
    · cases hz
  rw [key a x hx, key b y hy]
  exact hab

theorem tooLong_eq_nil {codes : Codes} (hn : (codes.map (·.1)).Nodup) (hs : ∀ a c, (a, c) ∈ codes → a < nSym) :
    tooLong codes = [] ↔ ∀ a c, (a, c) ∈ codes → c.length ≤ codeMax := by
  constructor
  · intro h a c hc
    by_contra hlt
    have : (a, c.length) ∈ tooLong codes := (mem_tooLong hn).mpr ⟨hs a c hc, c, hc, by omega, rfl⟩
    rw [h] at this; cases this
  · intro h
    rw [List.eq_nil_iff_forall_not_mem]
    rintro ⟨a, l⟩ hm
    obtain ⟨-, c, hc, hlt, -⟩ := (mem_tooLong hn).mp hm
    have := h a c hc
    omega

/-! ## The entries written -/

theorem CodeEntry.code_ofCode {c : Bits} (h : c.length ≤ codeMax) : (CodeEntry.ofCode c).code = c := by
  have h1 : (BitVec.ofNat 4 c.length).toNat = c.length := by
    rw [BitVec.toNat_ofNat]; exact Nat.mod_eq_of_lt (by have : c.length ≤ 15 := h; omega)
  have h2 : (BitVec.ofNat 15 (val c)).toNat = val c := by
    rw [BitVec.toNat_ofNat]
    refine Nat.mod_eq_of_lt (Nat.lt_of_lt_of_le (val_lt c) (Nat.pow_le_pow_right (by decide) h))
  show bitsOf (BitVec.ofNat 4 c.length).toNat (BitVec.ofNat 15 (val c)).toNat = c
  rw [h1, h2, bitsOf_val]

theorem CodeEntry.len_ofCode {c : Bits} (h : c.length ≤ codeMax) : (CodeEntry.ofCode c).len.toNat = c.length := by
  show (BitVec.ofNat 4 c.length).toNat = c.length
  rw [BitVec.toNat_ofNat]; exact Nat.mod_eq_of_lt (by have : c.length ≤ 15 := h; omega)

/-- BUILD's entries meet the invariant of 10_state.md R40. -/
theorem CodeEntry.canonical_ofCode {c : Bits} (hc : c ≠ []) (h : c.length ≤ codeMax) : (CodeEntry.ofCode c).Canonical := by
  unfold CodeEntry.Canonical
  rw [if_pos (by rfl), CodeEntry.len_ofCode h]
  refine ⟨List.length_pos_iff.mpr hc, ?_⟩
  show (BitVec.ofNat 15 (val c)).toNat < _
  rw [BitVec.toNat_ofNat]
  exact Nat.lt_of_le_of_lt (Nat.mod_le _ _) (val_lt c)

theorem writeCodes_frame (codes : Codes) (s : State) : writeCodes codes s = { s with ct := (writeCodes codes s).ct } := by
  induction codes generalizing s with
  | nil => rfl
  | cons c codes ih =>
    have h : writeCodes (c :: codes) s = writeCodes codes (s.setCt c.1 (CodeEntry.ofCode c.2)) := rfl
    rw [h, ih]; rfl

/-- One entry a code, and every other entry as it was (41_tree_builder.md R161). -/
theorem ctAt_writeCodes {codes : Codes} (hn : (codes.map (·.1)).Nodup) (s : State) (a : Nat) :
    (writeCodes codes s).ctAt a = match codes.lookup a with
      | some c => CodeEntry.ofCode c
      | none => s.ctAt a := by
  induction codes generalizing s with
  | nil => rfl
  | cons x codes ih =>
    obtain ⟨b, d⟩ := x
    rw [List.map_cons, List.nodup_cons] at hn
    have h : writeCodes ((b, d) :: codes) s = writeCodes codes (s.setCt b (CodeEntry.ofCode d)) := rfl
    rw [h, ih hn.2, List.lookup_cons, State.ctAt_setCt]
    by_cases hab : a = b
    · subst hab
      have hl : codes.lookup a = none := by
        rcases he : codes.lookup a with _ | c
        · rfl
        · exact absurd (List.mem_map_of_mem (f := (·.1)) (mem_of_lookup he)) hn.1
      rw [hl]
      simp
    · have : (a == b) = false := by simpa using hab
      rw [this]
      simp only [if_neg hab]

/-! ## The whole command -/

/-- All that BUILD can do (41_tree_builder.md R150): it latches EmptyAlphabet or CodeTooLong with CT invalid, or it writes CT. -/
theorem build_cases (s : State) :
    (s.weights = [] ∧ build s = .raised (({ s with ct := [] } : State).latch .emptyAlphabet 0#32)) ∨
      (s.weights ≠ [] ∧ ∃ a l rest, tooLong (buildCodes s.weights s.rp) = (a, l) :: rest ∧
        build s = .raised (({ s with ct := [] } : State).latch .codeTooLong
          ((BitVec.ofNat 32 l <<< 16) ||| BitVec.ofNat 32 a))) ∨
      (s.weights ≠ [] ∧ tooLong (buildCodes s.weights s.rp) = [] ∧
        build s = .ended (writeCodes (buildCodes s.weights s.rp) { s with ct := [] })) := by
  have hw : ({ s with ct := [] } : State).weights = s.weights := State.weights_of_freq rfl
  have hr : ({ s with ct := [] } : State).rp = s.rp := rfl
  unfold build
  simp only [hw, hr]
  by_cases h : s.weights = []
  · rw [if_pos h]; exact .inl ⟨h, rfl⟩
  · rw [if_neg h]
    right
    rcases ht : tooLong (buildCodes s.weights s.rp) with _ | ⟨⟨a, l⟩, rest⟩
    · exact .inr ⟨h, rfl, rfl⟩
    · exact .inl ⟨h, a, l, rest, rfl, rfl⟩

/-- BUILD with codes of at most 15 bits (41_tree_builder.md R161). -/
theorem build_fits {s : State} (hw : s.weights ≠ []) (hl : ∀ a c, (a, c) ∈ buildCodes s.weights s.rp → c.length ≤ 15) :
    ∃ t, build s = .ended t ∧ t = { s with ct := t.ct } ∧
      (∀ a, t.ctAt a = match (buildCodes s.weights s.rp).lookup a with | some c => CodeEntry.ofCode c | none => CodeEntry.invalid) := by
  have ha := s.weights_alphabet
  have hn := buildCodes_nodup (rp := s.rp) hw ha
  have hs : ∀ a c, (a, c) ∈ buildCodes s.weights s.rp → a < nSym := fun a c hc => by
    have := (buildCodes_symbols (rp := s.rp) hw ha.symbols).mem_iff.mp (List.mem_map_of_mem (f := (·.1)) hc)
    obtain ⟨p, hp, he⟩ := List.mem_map.mp this
    have := ha.symbols p hp
    have he : p.1 = a := he
    omega
  rcases build_cases s with ⟨h, -⟩ | ⟨-, a, l, r, h, -⟩ | ⟨-, -, he⟩
  · exact absurd h hw
  · rw [(tooLong_eq_nil hn hs).mpr hl] at h; cases h
  · refine ⟨_, he, ?_, fun a => ?_⟩
    · rw [writeCodes_frame]
    · rw [ctAt_writeCodes hn]; rfl

/-- What a BUILD without fault says of its alphabet and codes (41_tree_builder.md R151, R160). -/
theorem build_ended {s t : State} (h : build s = .ended t) : s.weights ≠ [] ∧ (∀ a c,
    (a, c) ∈ buildCodes s.weights s.rp → c.length ≤ 15) := by
  have ha := s.weights_alphabet
  rcases build_cases s with ⟨-, he⟩ | ⟨-, a, l, r, -, he⟩ | ⟨hw, ht, -⟩
  · rw [he] at h; cases h
  · rw [he] at h; cases h
  · have hn := buildCodes_nodup (rp := s.rp) hw ha
    have hs : ∀ a c, (a, c) ∈ buildCodes s.weights s.rp → a < nSym := fun a c hc => by
      have := (buildCodes_symbols (rp := s.rp) hw ha.symbols).mem_iff.mp (List.mem_map_of_mem (f := (·.1)) hc)
      obtain ⟨p, hp, he⟩ := List.mem_map.mp this
      have := ha.symbols p hp
      have he : p.1 = a := he
      omega
    exact ⟨hw, (tooLong_eq_nil hn hs).mp ht⟩

/-- What CT holds after a BUILD without fault (41_tree_builder.md R161). -/
structure BuiltCodes (s t : State) : Prop where
  mem : ∀ a, (t.ctAt a).valid = true → (a, (t.ctAt a).code) ∈ buildCodes s.weights s.rp
  code : ∀ a c, (a, c) ∈ buildCodes s.weights s.rp → (t.ctAt a).valid = true ∧ (t.ctAt a).code = c ∧
      (t.ctAt a).len.toNat = c.length
  inval : ∀ a, (t.ctAt a).valid = false → t.ctAt a = CodeEntry.invalid
  alpha : ∀ a, (t.ctAt a).valid = true ↔ ∃ w, (a, w) ∈ s.weights

theorem build_builtCodes {s t : State} (h : build s = .ended t) : t = { s with ct := t.ct } ∧ BuiltCodes s t := by
  obtain ⟨hw, hl⟩ := build_ended h
  obtain ⟨t', ht, hf, hc⟩ := build_fits hw hl
  rw [h] at ht; obtain rfl : t = t' := by injection ht
  have ha := s.weights_alphabet
  have hn := buildCodes_nodup (rp := s.rp) hw ha
  have hcode : ∀ a c, (a, c) ∈ buildCodes s.weights s.rp → (t.ctAt a).valid = true ∧ (t.ctAt a).code = c ∧
      (t.ctAt a).len.toNat = c.length := by
    intro a c hm
    have h1 : t.ctAt a = CodeEntry.ofCode c := by rw [hc, lookup_of_mem hn hm]
    rw [h1]
    exact ⟨rfl, CodeEntry.code_ofCode (hl a c hm), CodeEntry.len_ofCode (hl a c hm)⟩
  have hmem : ∀ a, (t.ctAt a).valid = true → ∃ c, (a, c) ∈ buildCodes s.weights s.rp := by
    intro a hv
    rcases hlk : (buildCodes s.weights s.rp).lookup a with _ | c
    · rw [hc, hlk] at hv; cases hv
    · exact ⟨c, mem_of_lookup hlk⟩
  refine ⟨hf, ⟨fun a hv => ?_, hcode, fun a hv => ?_, fun a => ?_⟩⟩
  · obtain ⟨c, hm⟩ := hmem a hv
    rw [(hcode a c hm).2.1]; exact hm
  · rcases hlk : (buildCodes s.weights s.rp).lookup a with _ | c
    · rw [hc, hlk]
    · rw [hc, hlk] at hv; cases hv
  · have hp := buildCodes_symbols (rp := s.rp) hw ha.symbols
    constructor
    · intro hv
      obtain ⟨c, hm⟩ := hmem a hv
      obtain ⟨p, hp1, hp2⟩ := List.mem_map.mp (hp.mem_iff.mp (List.mem_map_of_mem (f := (·.1)) hm))
      have hp2 : p.1 = a := hp2
      exact ⟨p.2, by rw [← hp2]; exact hp1⟩
    · rintro ⟨w, hm⟩
      obtain ⟨p, hp1, hp2⟩ := List.mem_map.mp (hp.mem_iff.mpr (List.mem_map_of_mem (f := (·.1)) hm))
      have := (hcode p.1 p.2 hp1).1
      rwa [hp2] at this

theorem build_of_exec {s t : State} (hx : exec .build s = .next t) (hn : t.err = none) : build s = .ended t ∧ s.err = none := by
  have h : (build s).outcome = .next t := hx
  rcases build_cases s with ⟨-, he⟩ | ⟨-, a, l, r, -, he⟩ | ⟨-, -, he⟩
  · rw [he] at h; injection h with h; subst h; cases hn
  · rw [he] at h; injection h with h; subst h; cases hn
  · rw [he] at h ⊢; injection h with h
    have h : writeCodes (buildCodes s.weights s.rp) { s with ct := [] } = t := h
    refine ⟨by rw [h], ?_⟩
    rw [← h, writeCodes_frame] at hn; exact hn

/-- The guard is on exactly when the reserved prefix is not empty (42_prefix_guard.md R180). -/
theorem State.rp_ne_nil {s : State} : s.rpLen ≠ 0#4 ↔ s.rp ≠ [] := by
  rw [not_iff_not]
  constructor
  · intro h; simp [State.rp, h]
  · intro h
    have := congrArg List.length h
    simp only [State.rp, length_bitsOf, List.length_nil] at this
    exact BitVec.eq_of_toNat_eq (by simpa using this)

/-- The symbols of the alphabet. -/
theorem State.exists_mem_weights {s : State} {a : Nat} : (∃ w, (a, w) ∈ s.weights) ↔ a < 256 ∧ s.freqAt a ≠ 0#32 := by
  constructor
  · rintro ⟨w, h⟩
    obtain ⟨h1, h2, h3⟩ := State.mem_weights.mp h
    refine ⟨h1, fun h => h3 ?_⟩
    dsimp only at h2
    rw [h2, h]; rfl
  · rintro ⟨h1, h2⟩
    exact ⟨(s.freqAt a).toNat, State.mem_weights.mpr ⟨h1, rfl, fun h => h2 (BitVec.eq_of_toNat_eq (by simpa using h))⟩⟩

end Sys2Proof.Machine
end

