-- ==== Sys2Proof/Laws/HeaderCodec.lean ====
section
/-! SUPPORT. The canonical order and the length of a header (41_tree_builder.md R165, 30_encoding.md R100), and what the entry
loop of DESHDR does (43_header_codec.md R210). -/

namespace Sys2Proof.Machine

/-! ## The canonical order -/

theorem State.canonicalOrder_perm (s : State) : s.canonicalOrder.Perm s.codedSymbols := List.perm_insertionSort _ _

theorem State.mem_codedSymbols {s : State} {a : Nat} : a ∈ s.codedSymbols ↔ a < nSym ∧ (s.ctAt a).valid = true := by
  simp [State.codedSymbols]

theorem State.mem_canonicalOrder {s : State} {a : Nat} : a ∈ s.canonicalOrder ↔ a < nSym ∧ (s.ctAt a).valid = true := by
  rw [s.canonicalOrder_perm.mem_iff, State.mem_codedSymbols]

theorem State.canonicalOrder_nodup (s : State) : s.canonicalOrder.Nodup :=
  s.canonicalOrder_perm.nodup_iff.mpr (List.nodup_range.filter _)

theorem State.canonicalOrder_of_ct {s t : State} (h : t.ct = s.ct) : t.canonicalOrder = s.canonicalOrder := by
  have hc : t.ctAt = s.ctAt := funext (State.ctAt_of_ct h)
  unfold State.canonicalOrder State.codedSymbols State.canonicalLe
  simp only [hc]

theorem State.canonicalOrder_sorted (s : State) : s.canonicalOrder.Pairwise s.canonicalLe := by
  have : Std.Total s.canonicalLe := ⟨fun a b => by unfold State.canonicalLe; omega⟩
  have : IsTrans Nat s.canonicalLe := ⟨fun a b c => by unfold State.canonicalLe; omega⟩
  exact List.pairwise_insertionSort _ _

/-! ## Lengths -/

@[simp] theorem State.length_entryBits (s : State) (a : Nat) : (s.entryBits a).length = 12 + (s.ctAt a).len.toNat := by
  simp only [State.entryBits, List.length_append, length_bitsOf, CodeEntry.length_code]

theorem State.length_flatMap_entryBits (s : State) (l : List Nat) :
    (l.flatMap s.entryBits).length = (l.map (fun a => 12 + (s.ctAt a).len.toNat)).sum := by
  simp [List.length_flatMap]

theorem State.hlen_eq (s : State) : s.hlen = (s.canonicalOrder.flatMap s.entryBits).length :=
  (s.length_flatMap_entryBits _).symm

theorem State.length_header (s : State) : s.header.length = 16 + s.hlen := by
  simp [State.header, State.hlen_eq]

/-- HLEN is at most 6912 (30_encoding.md R100). -/
theorem State.hlen_le (s : State) : s.hlen ≤ 6912 := by
  have hlen : s.canonicalOrder.length ≤ 256 := by
    rw [s.canonicalOrder_perm.length_eq]
    exact (List.length_filter_le _ _).trans (by simp)
  have hsum : s.hlen ≤ s.canonicalOrder.length * 27 := by
    refine (List.sum_le_card_nsmul _ 27 fun x hx => ?_).trans (by simp)
    obtain ⟨a, -, rfl⟩ := List.mem_map.mp hx
    have := (s.ctAt a).len.isLt
    omega
  omega

/-! ## The entries a receiver parses -/

theorem length_headerEntry (e : Byte × Bits) : (headerEntry e).length = 12 + e.2.length := by
  simp only [headerEntry, List.length_append, length_bitsOf]

theorem decodeEntryOf_append_single (es : List (Byte × Bits)) (e : Byte × Bits) (k : Nat) :
    decodeEntryOf (es ++ [e]) k = if idx e.2 = k then { valid := true, sym := e.1 } else decodeEntryOf es k := by
  unfold decodeEntryOf
  rw [List.reverse_append, List.reverse_singleton, List.singleton_append, List.find?_cons]
  by_cases h : idx e.2 = k
  · simp [h]
  · simp only [beq_eq_false_iff_ne.mpr h, if_neg h]

/-- A whole entry at RDPTR is consumed and written to DT. -/
theorem parseEntries_entry {s : State} {k fin : Nat} {e : Byte × Bits} (he : e.2.length ≤ 15)
    (hb : s.esBits s.rdPtr.toNat (headerEntry e).length = headerEntry e)
    (hfin : s.rdPtr.toNat + (headerEntry e).length ≤ fin) :
    parseEntries (k + 1) fin s =
      parseEntries k fin ((s.setDt (idx e.2) { valid := true, sym := e.1 }).skip (headerEntry e).length) := by
  have hl := length_headerEntry e
  have h1 : s.esBits s.rdPtr.toNat 8 = bitsOf 8 e.1.toNat := by
    have := State.esBits_part (a := []) (b := bitsOf 8 e.1.toNat) (c := bitsOf 4 e.2.length ++ e.2) (s := s)
      (hb.trans (by simp [headerEntry]))
    simpa using this
  have h2 : s.esBits (s.rdPtr.toNat + 8) 4 = bitsOf 4 e.2.length := by
    have := State.esBits_part (a := bitsOf 8 e.1.toNat) (b := bitsOf 4 e.2.length) (c := e.2) (s := s) hb
    simpa using this
  have h3 : s.esBits (s.rdPtr.toNat + 12) e.2.length = e.2 := by
    have := State.esBits_part (a := bitsOf 8 e.1.toNat ++ bitsOf 4 e.2.length) (b := e.2) (c := []) (s := s)
      (hb.trans (by simp [headerEntry]))
    simpa using this
  have hv1 : val (bitsOf 8 e.1.toNat) = e.1.toNat := val_bitsOf e.1.isLt
  have hv2 : val (bitsOf 4 e.2.length) = e.2.length := val_bitsOf (by omega)
  rw [parseEntries, if_neg (by omega), if_neg (by omega)]
  simp only [h1, h2, hv1, hv2, h3]
  rw [if_neg (by omega), hl]
  simp

/-- The entry loop over whole entries that end exactly at `fin`: DT takes the entries in order, the later of two with the same
code winning, and RDPTR stands at `fin` (43_header_codec.md R210, R212). -/
theorem parseEntries_whole {es : List (Byte × Bits)} {s : State} {k fin : Nat} (done : List (Byte × Bits))
    (hdt : ∀ j, s.dtAt j = decodeEntryOf done j)
    (hlen : ∀ e ∈ es, e.2.length ≤ 15) (hb : s.esBits s.rdPtr.toNat (es.flatMap headerEntry).length = es.flatMap headerEntry)
    (hfin : fin = s.rdPtr.toNat + (es.flatMap headerEntry).length) (hmax : fin < 2 ^ 32) (hk : es.length < k) :
    ∃ t, parseEntries k fin s = .ended t ∧ t = { s with dt := t.dt, rdPtr := t.rdPtr } ∧ t.rdPtr.toNat = fin ∧
      ∀ j, t.dtAt j = decodeEntryOf (done ++ es) j := by
  induction es generalizing s k done with
  | nil =>
    obtain ⟨k, rfl⟩ : ∃ n, k = n + 1 := ⟨k - 1, by simp at hk; omega⟩
    refine ⟨s, ?_, rfl, by simpa using hfin.symm, by simpa using hdt⟩
    rw [parseEntries, if_pos (by simp at hfin; omega)]
  | cons e es ih =>
    obtain ⟨k, rfl⟩ : ∃ n, k = n + 1 := ⟨k - 1, by simp at hk; omega⟩
    rw [List.flatMap_cons, List.length_append] at hb hfin
    have hb' := hb
    rw [State.esBits_add] at hb'
    obtain ⟨hb1, hb2⟩ := List.append_inj hb' (by simp)
    rw [parseEntries_entry (hlen e (by simp)) hb1 (by omega)]
    have hr : ((s.setDt (idx e.2) { valid := true, sym := e.1 }).skip (headerEntry e).length).rdPtr.toNat =
        s.rdPtr.toNat + (headerEntry e).length := State.skip_rdPtr (by rw [State.setDt_rdPtr]; omega)
    obtain ⟨t, ht, hrest, hrd, hall⟩ := ih
      (s := (s.setDt (idx e.2) { valid := true, sym := e.1 }).skip (headerEntry e).length) (k := k) (done ++ [e])
      (fun j => by
        rw [decodeEntryOf_append_single]
        show (s.setDt (idx e.2) { valid := true, sym := e.1 }).dtAt j = _
        rw [State.dtAt_setDt, hdt]
        by_cases h : j = idx e.2
        · rw [if_pos h, if_pos h.symm]
        · rw [if_neg h, if_neg (Ne.symm h)])
      (fun x hx => hlen x (by simp [hx]))
      (by rw [hr]; refine Eq.trans (State.esBits_of_es ?_ _ _) hb2; rfl)
      (by rw [hr]; omega)
      (by simp at hk; omega)
    exact ⟨t, ht, by rw [hrest]; rfl, hrd, fun j => by rw [hall, List.append_assoc]; rfl⟩

/-! ## Whole commands -/

/-- `State.canonicalOrder` is the canonical order of CT (41_tree_builder.md R165). -/
theorem State.isCanonicalOrder (s : State) : s.IsCanonicalOrder s.canonicalOrder where
  symbols a := State.mem_canonicalOrder
  sorted := by
    have h1 := s.canonicalOrder_sorted
    have h2 := s.canonicalOrder_nodup
    refine (h1.and h2).imp ?_
    rintro a b ⟨h, hne⟩
    unfold State.canonicalLe at h
    omega

/-- CT has one canonical order. -/
theorem State.IsCanonicalOrder.unique {s : State} {o o' : List Nat} (h : s.IsCanonicalOrder o)
    (h' : s.IsCanonicalOrder o') : o' = o := by
  have nd : ∀ {o}, s.IsCanonicalOrder o → o.Nodup := fun h => h.sorted.imp (fun {a b} hab => by rintro rfl; omega)
  have hp : o'.Perm o := (List.perm_ext_iff_of_nodup (nd h') (nd h)).mpr fun a => by rw [h.symbols, h'.symbols]
  refine hp.eq_of_pairwise (le := fun a b =>
    (s.ctAt a).len.toNat < (s.ctAt b).len.toNat ∨ ((s.ctAt a).len.toNat = (s.ctAt b).len.toNat ∧ a < b)) ?_ h'.sorted h.sorted
  intro a b _ _ h1 h2
  omega

/-- The header entries of CT, in canonical order (30_encoding.md R95). -/
def State.entries (s : State) : List (Byte × Bits) := s.canonicalOrder.map (fun a => (BitVec.ofNat 8 a, (s.ctAt a).code))

theorem State.flatMap_entries (s : State) : (State.entries s).flatMap headerEntry = s.canonicalOrder.flatMap s.entryBits := by
  unfold State.entries
  rw [List.flatMap_map]
  refine List.flatMap_congr fun a ha => ?_
  have : a < 256 := (State.mem_canonicalOrder.mp ha).1
  simp [headerEntry, State.entryBits, Nat.mod_eq_of_lt this]

/-- The header SERHDR writes, as a receiver sees it. -/
theorem State.header_eq_headerOf (s : State) : s.header = headerOf (State.entries s) := by
  rw [State.header, headerOf, State.flatMap_entries, State.hlen_eq]

/-- All that SERHDR can do (43_header_codec.md R200). -/
theorem serhdr_cases (s : State) :
    (s.esLen.toNat + 16 + s.hlen ≤ s.config.esMax.toNat ∧ ∃ t, serhdr s = .ended t ∧ Appended s.header s t) ∨
    (s.config.esMax.toNat < s.esLen.toNat + 16 + s.hlen ∧ serhdr s = .raised (s.latch .capacity s.esLen)) := by
  unfold serhdr
  split
  · next h => exact .inr ⟨h, rfl⟩
  · next h =>
    left
    have hh : (bitsOf 16 s.hlen :: s.canonicalOrder.map s.entryBits).flatten = s.header := by
      simp [State.header, List.flatMap]
    obtain ⟨t, ht, ha⟩ := esAppendAll_fits (bs := bitsOf 16 s.hlen :: s.canonicalOrder.map s.entryBits) (s := s)
        (by rw [hh, State.length_header]; omega)
    exact ⟨by omega, t, ht, hh ▸ ha⟩

theorem length_headerOf (es : List (Byte × Bits)) : (headerOf es).length = 16 + (es.flatMap headerEntry).length := by
  simp [headerOf]

/-- An entry has at least 12 bits, so `H div 12 + 1` passes suffice (70_reset_and_hazards.md R340). -/
theorem length_le_flatMap_headerEntry (es : List (Byte × Bits)) : 12 * es.length ≤ (es.flatMap headerEntry).length := by
  induction es with
  | nil => simp
  | cons e es ih => rw [List.flatMap_cons, List.length_append, length_headerEntry, List.length_cons]; omega

/-- DESHDR of a header of whole entries (43_header_codec.md R210). -/
theorem deshdr_whole {s : State} {es : List (Byte × Bits)} (hl : ∀ e ∈ es, e.2.length ≤ 15) (hh :
    (es.flatMap headerEntry).length < 2 ^ 16)
    (hr : s.rdPtr.toNat + (headerOf es).length ≤ s.esLen.toNat) (hb : s.esBits s.rdPtr.toNat
        (headerOf es).length = headerOf es) :
    ∃ t, deshdr s = .ended t ∧ t = { s with dt := t.dt, rdPtr := t.rdPtr } ∧
      t.rdPtr.toNat = s.rdPtr.toNat + (headerOf es).length ∧ ∀ k, t.dtAt k = decodeEntryOf es k := by
  have hlt := s.esLen.isLt
  rw [length_headerOf] at hr hb ⊢
  have hb' := hb
  rw [State.esBits_add, headerOf] at hb'
  obtain ⟨hb1, hb2⟩ := List.append_inj hb' (by simp)
  unfold deshdr
  have ha : ({ s with dt := [] } : State).avail = s.esLen.toNat - s.rdPtr.toNat := State.avail_eq _
  have hsk : (({ s with dt := [] } : State).skip 16).rdPtr.toNat = s.rdPtr.toNat + 16 := State.skip_rdPtr
      (by show s.rdPtr.toNat + 16 < _; omega)
  have ha2 : (({ s with dt := [] } : State).skip 16).avail = s.esLen.toNat - (s.rdPtr.toNat + 16) := by
    rw [State.avail_eq, hsk]; rfl
  have hv : val (({ s with dt := [] } : State).esBits s.rdPtr.toNat 16) = (es.flatMap headerEntry).length := by
    have : ({ s with dt := [] } : State).esBits s.rdPtr.toNat 16 = s.esBits s.rdPtr.toNat 16 := rfl
    rw [this, hb1, val_bitsOf hh]
  dsimp only
  rw [if_neg (by rw [ha]; omega)]
  rw [hv, if_neg (by rw [ha2]; omega), hsk]
  have hc := length_le_flatMap_headerEntry es
  obtain ⟨t, ht, h1, h2, h3⟩ := parseEntries_whole (es := es) (s := ({ s with dt := [] } : State).skip 16)
    (k := (es.flatMap headerEntry).length / 12 + 1) (fin := s.rdPtr.toNat + 16 + (es.flatMap headerEntry).length) []
    (fun j => rfl) hl (by rw [hsk]; exact hb2) (by rw [hsk]) (by omega) (by omega)
  refine ⟨t, ht, ?_, by rw [h2]; omega, h3⟩
  rw [h1]; rfl

/-- An index that one entry has is decoded to its symbol. -/
theorem decodeEntryOf_eq {l : List (Byte × Bits)} {k : Nat} {v : Byte} {c : Bits} (hm : (v, c) ∈ l) (hk : idx c = k)
    (hu : ∀ e ∈ l, idx e.2 = k → e = (v, c)) : decodeEntryOf l k = { valid := true, sym := v } := by
  unfold decodeEntryOf
  rcases h : l.reverse.find? (fun e => idx e.2 == k) with _ | e
  · rw [List.find?_eq_none] at h
    have := h (v, c) (List.mem_reverse.mpr hm)
    simp [hk] at this
  · have h1 := List.mem_reverse.mp (List.mem_of_find?_eq_some h)
    have h2 := List.find?_some h
    have := hu e h1 (by simpa using h2)
    subst this
    rw [h]

/-- An index that no entry has is not valid. -/
theorem decodeEntryOf_none {l : List (Byte × Bits)} {k : Nat}
    (hu : ∀ e ∈ l, idx e.2 ≠ k) : decodeEntryOf l k = DecodeEntry.invalid := by
  unfold decodeEntryOf
  rcases h : l.reverse.find? (fun e => idx e.2 == k) with _ | e
  · rw [h]
  · have h1 := List.mem_reverse.mp (List.mem_of_find?_eq_some h)
    have h2 := List.find?_some h
    exact absurd (by simpa using h2) (hu e h1)

theorem State.length_entries_le (s : State) : ∀ e ∈ State.entries s, e.2.length ≤ 15 := by
  intro e he
  obtain ⟨a, -, rfl⟩ := List.mem_map.mp he
  have := (s.ctAt a).len.isLt
  simp only [CodeEntry.length_code]; omega

theorem State.length_flatMap_entries (s : State) : ((State.entries s).flatMap headerEntry).length = s.hlen := by rw [State.flatMap_entries, State.hlen_eq]

/-- With distinct codes, the entries of CT decode each code to its symbol (43_header_codec.md R214). -/
theorem decodeEntryOf_entries {s : State} (hd : s.DistinctCodes) {a : Nat} (ha : a < nSym) (hv : (s.ctAt a).valid = true) :
    decodeEntryOf (State.entries s) (idx (s.ctAt a).code) = { valid := true, sym := BitVec.ofNat 8 a } := by
  refine decodeEntryOf_eq (c := (s.ctAt a).code) (List.mem_map.mpr ⟨a, State.mem_canonicalOrder.mpr ⟨ha, hv⟩, rfl⟩) rfl ?_
  intro e he hi
  obtain ⟨b, hb, rfl⟩ := List.mem_map.mp he
  obtain ⟨hb1, hb2⟩ := State.mem_canonicalOrder.mp hb
  have := hd b a hb1 ha hb2 hv (idx_injective hi)
  rw [this]

/-- No other index is valid (43_header_codec.md R214). -/
theorem decodeEntryOf_entries_none {s : State} {k : Nat} (h : ∀ a, a < 256 → (s.ctAt a).valid = true → k ≠ idx
    (s.ctAt a).code) :
    decodeEntryOf (State.entries s) k = DecodeEntry.invalid := by
  refine decodeEntryOf_none fun e he => ?_
  obtain ⟨b, hb, rfl⟩ := List.mem_map.mp he
  obtain ⟨hb1, hb2⟩ := State.mem_canonicalOrder.mp hb
  exact (h b hb1 hb2).symm

theorem State.header_of_ct {s t : State} (h : t.ct = s.ct) : t.header = s.header ∧ t.hlen = s.hlen := by
  have ho := State.canonicalOrder_of_ct h
  have hc : t.ctAt = s.ctAt := funext (State.ctAt_of_ct h)
  have hh : t.hlen = s.hlen := by unfold State.hlen; rw [ho]; simp only [hc]
  refine ⟨?_, hh⟩
  unfold State.header
  rw [hh, ho]
  have : t.entryBits = s.entryBits := by funext a; unfold State.entryBits; rw [hc]
  rw [this]

end Sys2Proof.Machine
end

