-- ==== Sys2Proof/Laws/Huffman.lean ====
section
/-! SUPPORT. Why merging the two smallest nodes makes the shortest prefix-free code (41_tree_builder.md R163): an exchange
argument on code lengths that meet Kraft's inequality, carried through the merge loop, and Kraft's inequality itself for codes
none of which is a prefix of another. -/

namespace Sys2Proof.Machine

/-! ## Code lengths -/

/-- The sum of `2^-l` over the lengths of a list of pairs (weight, length). -/
def kraft (P : List (Nat × Nat)) : ℚ := (P.map (fun p => (1 / 2 : ℚ) ^ p.2)).sum

/-- The sum of weight times length. -/
def lengthCost (P : List (Nat × Nat)) : Nat := (P.map (fun p => p.1 * p.2)).sum

@[simp] theorem kraft_nil : kraft [] = 0 := rfl
@[simp] theorem kraft_cons (p : Nat × Nat) (P : List (Nat × Nat)) : kraft (p :: P) = (1 / 2 : ℚ) ^ p.2 + kraft P := by
  simp [kraft]
@[simp] theorem lengthCost_nil : lengthCost [] = 0 := rfl
@[simp] theorem lengthCost_cons (p : Nat × Nat) (P : List (Nat × Nat)) :
    lengthCost (p :: P) = p.1 * p.2 + lengthCost P := by
  simp [lengthCost]

theorem kraft_perm {P Q : List (Nat × Nat)} (h : P.Perm Q) : kraft P = kraft Q := (h.map _).sum_eq
theorem lengthCost_perm {P Q : List (Nat × Nat)} (h : P.Perm Q) : lengthCost P = lengthCost Q := (h.map _).sum_eq

theorem kraft_nonneg (P : List (Nat × Nat)) : 0 ≤ kraft P := by
  induction P with
  | nil => simp
  | cons p P ih => rw [kraft_cons]; positivity

/-- Lengths of at most `m` make a whole number of units `2^-m`. -/
theorem kraft_units {P : List (Nat × Nat)} {m : Nat} (h : ∀ p ∈ P, p.2 ≤ m) : ∃ n : Nat, kraft P = n * (1 / 2 : ℚ) ^ m := by
  induction P with
  | nil => exact ⟨0, by simp⟩
  | cons p P ih =>
    obtain ⟨n, hn⟩ := ih fun q hq => h q (by simp [hq])
    obtain ⟨d, hd⟩ := Nat.exists_eq_add_of_le (h p (by simp))
    refine ⟨2 ^ d + n, ?_⟩
    have h2 : (2 : ℚ) ^ d * (1 / 2) ^ d = 1 := by rw [← mul_pow]; norm_num
    rw [kraft_cons, hn, hd, pow_add]
    push_cast
    linear_combination (-(1 / 2 : ℚ) ^ p.2) * h2

/-- The exchange: a smallest weight can be given the greatest length, and no sum of weight times length grows. -/
theorem exists_min_longest {P : List (Nat × Nat)} {w : Nat} (hw : w ∈ P.map (·.1)) (hmin : ∀ p ∈ P, w ≤ p.1) :
    ∃ l Q, (∃ p ∈ P, p.2 = l) ∧ (∀ p ∈ Q, p.2 ≤ l) ∧ (w :: Q.map (·.1)).Perm (P.map (·.1)) ∧ kraft ((w, l) :: Q) = kraft P ∧
      lengthCost ((w, l) :: Q) ≤ lengthCost P := by
  obtain ⟨⟨w', lw⟩, hp, he⟩ := List.mem_map.mp hw
  have he : w' = w := he
  subst he
  obtain ⟨⟨x, l⟩, hm, hmax⟩ : ∃ m ∈ P, ∀ p ∈ P, p.2 ≤ m.2 := by
    obtain ⟨m, hm, h⟩ := P.toFinset.exists_max_image (·.2) ⟨(w', lw), by simpa using hp⟩
    exact ⟨m, by simpa using hm, fun p hp => h p (by simpa using hp)⟩
  obtain ⟨R, hR⟩ : ∃ R, P.Perm ((x, l) :: R) := ⟨_, List.perm_cons_erase hm⟩
  rcases List.mem_cons.mp (hR.mem_iff.mp hp) with he | hp'
  · obtain ⟨rfl, rfl⟩ := Prod.mk.inj he
    exact ⟨lw, R, ⟨_, hm, rfl⟩, fun p hp => hmax p (hR.mem_iff.mpr (by simp [hp])), by simpa using (hR.map (·.1)).symm,
      kraft_perm hR.symm, (lengthCost_perm hR.symm).le⟩
  · obtain ⟨S, hS⟩ : ∃ S, R.Perm ((w', lw) :: S) := ⟨_, List.perm_cons_erase hp'⟩
    have hP : P.Perm ((x, l) :: (w', lw) :: S) := hR.trans (hS.cons _)
    refine ⟨l, (x, lw) :: S, ⟨_, hm, rfl⟩, fun p hp => ?_, ?_, ?_, ?_⟩
    · rcases List.mem_cons.mp hp with rfl | hp
      · exact hmax (w', lw) (hP.mem_iff.mpr (by simp))
      · exact hmax p (hP.mem_iff.mpr (by simp [hp]))
    · have := (hP.map (·.1)).symm
      exact (List.Perm.swap _ _ _).trans (by simpa using this)
    · rw [kraft_perm hP]; simp
    · rw [lengthCost_perm hP]
      have h1 : w' ≤ x := hmin (x, l) (hP.mem_iff.mpr (by simp))
      have h2 : lw ≤ l := hmax (w', lw) (hP.mem_iff.mpr (by simp))
      simp only [lengthCost_cons]
      nlinarith

/-- One merge: lengths for `a`, `b` and the rest, `a` and `b` the two smallest weights, give lengths for `a + b` and the rest
that cost less by `a + b` at least. -/
theorem exists_merged_lengths {P : List (Nat × Nat)} {a b : Nat} {r : List Nat} (hp : (P.map (·.1)).Perm (a :: b :: r))
    (hab : a ≤ b) (hb : ∀ x ∈ r, b ≤ x) (hk : kraft P ≤ 1) :
    ∃ Q, (Q.map (·.1)).Perm ((a + b) :: r) ∧ kraft Q ≤ 1 ∧ lengthCost Q + (a + b) ≤ lengthCost P := by
  obtain ⟨l1, P1, -, hm1, hp1, hk1, hc1⟩ := exists_min_longest (P := P) (w := a) (hp.mem_iff.mpr (by simp)) fun p h => by
    have := hp.mem_iff.mp (List.mem_map_of_mem (f := (·.1)) h)
    simp only [List.mem_cons] at this
    rcases this with h | h | h
    · omega
    · omega
    · exact hab.trans (hb _ h)
  have hp1' : (P1.map (·.1)).Perm (b :: r) := (hp1.trans hp).cons_inv
  obtain ⟨l2, P2, ⟨p2, hpm, hpl⟩, hm2, hp2, hk2, hc2⟩ := exists_min_longest (P := P1) (w := b) (hp1'.mem_iff.mpr
      (by simp)) fun p h => by
    have := hp1'.mem_iff.mp (List.mem_map_of_mem (f := (·.1)) h)
    simp only [List.mem_cons] at this
    rcases this with h | h
    · omega
    · exact hb _ h
  have hp2' : (P2.map (·.1)).Perm r := (hp2.trans hp1').cons_inv
  have hl : l2 ≤ l1 := hpl ▸ hm1 p2 hpm
  rw [← hk1, kraft_cons, ← hk2, kraft_cons] at hk
  obtain ⟨n, hn⟩ := kraft_units (P := (b, l2) :: P2) (m := l2) fun p hp => by
    rcases List.mem_cons.mp hp with rfl | hp
    · exact le_rfl
    · exact hm2 p hp
  rw [kraft_cons] at hn
  have h2 : (2 : ℚ) ^ l2 * (1 / 2) ^ l2 = 1 := by rw [← mul_pow]; norm_num
  have hpos : (0 : ℚ) < (1 / 2) ^ l1 := by positivity
  have hpos2 : (0 : ℚ) < (1 / 2) ^ l2 := by positivity
  have hn2 : n + 1 ≤ 2 ^ l2 := by
    have : (n : ℚ) < 2 ^ l2 := by
      simp only at hk hn
      rw [hn] at hk
      by_contra hc
      push Not at hc
      nlinarith
    exact_mod_cast this
  have hk' : (1 / 2 : ℚ) ^ l2 + ((1 / 2) ^ l2 + kraft P2) ≤ 1 := by
    have : ((n : ℚ) + 1) ≤ 2 ^ l2 := by exact_mod_cast hn2
    simp only at hn
    rw [hn]
    nlinarith
  obtain ⟨m, rfl⟩ : ∃ m, l2 = m + 1 := by
    refine Nat.exists_eq_succ_of_ne_zero fun h => ?_
    have := kraft_nonneg P2
    rw [h, pow_zero] at hk'
    linarith
  refine ⟨(a + b, m) :: P2, by simpa using hp2', ?_, ?_⟩
  · rw [kraft_cons]
    have : (1 / 2 : ℚ) ^ (m + 1) + (1 / 2) ^ (m + 1) = (1 / 2) ^ m := by rw [pow_succ]; ring
    simp only
    linarith
  · simp only [lengthCost_cons] at hc1 hc2 ⊢
    nlinarith

/-! ## The merge loop -/

/-- The sum over the members of a node, each weighing `W`, of weight times partial code length. -/
def Node.cost (W : Nat → Nat) (n : Node) : Nat := (n.members.map (fun m => W m.1 * m.2.length)).sum

/-- A node weighs what its members weigh. -/
def Node.Weighs (W : Nat → Nat) (n : Node) : Prop := n.weight = (n.members.map (fun m => W m.1)).sum

theorem sum_under (W : Nat → Nat) (b : Bool) (n : Node) :
    ((n.under b).map (fun m => W m.1 * m.2.length)).sum = n.cost W + (n.members.map (fun m => W m.1)).sum := by
  unfold Node.under Node.cost
  induction n.members with
  | nil => rfl
  | cons m l ih => simp only [List.map_cons, List.sum_cons, List.length_cons] at ih ⊢; rw [ih]; ring

/-- The merged node costs its weight more than the two it is made of. -/
theorem cost_mergeNodes {W : Nat → Nat} {id : Nat} {lo hi : Node} (h1 : lo.Weighs W) (h2 : hi.Weighs W) :
    (mergeNodes id lo hi).Weighs W ∧ (mergeNodes id lo hi).cost W = lo.cost W + hi.cost W + (lo.weight + hi.weight) := by
  constructor
  · unfold Node.Weighs at *
    rw [mergeNodes_members, List.map_append, List.sum_append]
    have hu : ∀ (b : Bool) (n : Node), (n.under b).map (fun m => W m.1) = n.members.map (fun m => W m.1) := fun b n => by
      simp [Node.under]
    rw [hu, hu, ← h1, ← h2]
    rfl
  · rw [Node.cost, mergeNodes_members, List.map_append, List.sum_append, sum_under, sum_under, ← h1, ← h2]
    ring

/-- The loop costs no more than any lengths for the weights of the queue that meet Kraft's inequality. -/
theorem mergeLoop_cost_le (W : Nat → Nat) (k id : Nat) (q : List Node) (hk : q.length = k + 1)
    (hw : ∀ n ∈ q, n.Weighs W) {n : Node} (hn : mergeLoop k id q = [n]) {P : List (Nat × Nat)}
    (hp : (P.map (·.1)).Perm (q.map (·.weight))) (h1 : kraft P ≤ 1) :
    n.cost W ≤ (q.map (·.cost W)).sum + lengthCost P := by
  induction k generalizing id q P with
  | zero => rw [mergeLoop] at hn; subst hn; simp
  | succ k ih =>
    obtain ⟨lo, hi, q1, q2, e1, e2, hq, he⟩ := mergeLoop_succ (q := q) (by omega) k id
    rw [he] at hn
    have hq1 := (extractMin_spec e1).1
    have hq2 := (extractMin_spec e2).1
    have hlo := hw lo (hq.mem_iff.mpr (by simp))
    have hhi := hw hi (hq.mem_iff.mpr (by simp))
    obtain ⟨hm, hc⟩ := cost_mergeNodes (id := id) hlo hhi
    obtain ⟨Q, hQp, hQk, hQc⟩ := exists_merged_lengths (hp.trans (hq.map (·.weight)))
      (extractMin_weight_le e1 (hq1.mem_iff.mpr (List.mem_cons_of_mem _ (hq2.mem_iff.mpr (by simp)))))
      (fun x hx => by
        obtain ⟨y, hy, rfl⟩ := List.mem_map.mp hx
        exact extractMin_weight_le e2 (hq2.mem_iff.mpr (by simp [hy]))) h1
    have := ih (id + 1) (mergeNodes id lo hi :: q2) (by have := hq.length_eq; simp at this ⊢; omega)
      (fun m hm' => by
        rcases List.mem_cons.mp hm' with rfl | hm'
        · exact hm
        · exact hw m (hq.mem_iff.mpr (by simp [hm']))) hn hQp hQk
    rw [List.map_cons, List.sum_cons, hc] at this
    rw [(hq.map (·.cost W)).sum_eq]
    simp only [List.map_cons, List.sum_cons]
    omega

/-! ## Kraft's inequality -/

/-- The codes that start with `b`, without that bit. -/
def tails (b : Bool) (C : List Bits) : List Bits :=
  C.filterMap (fun c => match c with | [] => none | x :: r => if x = b then some r else none)

theorem mem_tails {b : Bool} {C : List Bits} {r : Bits} (h : r ∈ tails b C) : b :: r ∈ C := by
  obtain ⟨c, hc, he⟩ := List.mem_filterMap.mp h
  cases c with
  | nil => cases he
  | cons x t =>
    simp only [Option.ite_none_right_eq_some, Option.some.injEq] at he
    obtain ⟨rfl, rfl⟩ := he
    exact hc

theorem tails_unrelated (b : Bool) {C : List Bits} (h : C.Pairwise Unrelated) : (tails b C).Pairwise Unrelated := by
  refine List.Pairwise.filterMap _ (fun c d hcd r hr t ht => ?_) h
  cases c with
  | nil => cases hr
  | cons x c =>
    cases d with
    | nil => cases ht
    | cons y d =>
      simp only [Option.ite_none_right_eq_some, Option.some.injEq] at hr ht
      obtain ⟨rfl, rfl⟩ := hr
      obtain ⟨rfl, rfl⟩ := ht
      exact ⟨fun hp => hcd.1 (List.cons_prefix_cons.mpr ⟨rfl, hp⟩), fun hp => hcd.2 (List.cons_prefix_cons.mpr ⟨rfl, hp⟩)⟩

/-- The sum of `2^-|c|` over a list of codes. -/
def kraftSum (C : List Bits) : ℚ := (C.map (fun c => (1 / 2 : ℚ) ^ c.length)).sum

theorem kraftSum_split {C : List Bits} (h : [] ∉ C) :
    kraftSum C = 1 / 2 * (kraftSum (tails false C) + kraftSum (tails true C)) := by
  induction C with
  | nil => simp [kraftSum, tails]
  | cons c C ih =>
    have ih := ih fun hc => h (by simp [hc])
    cases c with
    | nil => simp at h
    | cons x r =>
      unfold kraftSum tails at ih ⊢
      cases x
      · simp only [List.map_cons, List.sum_cons, List.filterMap_cons, if_true, List.length_cons, ih, pow_succ,
          Bool.false_eq_true, if_false]
        ring
      · simp only [List.map_cons, List.sum_cons, List.filterMap_cons, if_true, List.length_cons, ih, pow_succ,
          Bool.true_eq_false, if_false]
        ring

/-- Kraft's inequality: codes none of which is a prefix of another. -/
theorem kraftSum_le_one (N : Nat) {C : List Bits} (hN : ∀ c ∈ C, c.length ≤ N) (h : C.Pairwise Unrelated) :
    kraftSum C ≤ 1 := by
  induction N generalizing C with
  | zero =>
    cases C with
    | nil => simp [kraftSum]
    | cons c C =>
      obtain rfl : C = [] := List.eq_nil_iff_forall_not_mem.mpr fun d hd =>
        ((List.pairwise_cons.mp h).1 d hd).1
          (List.eq_nil_of_length_eq_zero (Nat.le_zero.mp (hN c (by simp))) ▸ List.nil_prefix)
      have := hN c (by simp)
      simp [kraftSum, Nat.le_zero.mp this]
  | succ N ih =>
    by_cases he : [] ∈ C
    · obtain ⟨l, r, rfl⟩ := List.append_of_mem he
      rw [List.pairwise_append] at h
      obtain ⟨-, hr, hlr⟩ := h
      obtain rfl : l = [] := List.eq_nil_iff_forall_not_mem.mpr fun c hc => (hlr c hc [] (by simp)).2 List.nil_prefix
      obtain rfl : r = [] := List.eq_nil_iff_forall_not_mem.mpr fun c hc =>
        ((List.pairwise_cons.mp hr).1 c hc).1 List.nil_prefix
      simp [kraftSum]
    · have ht : ∀ b, kraftSum (tails b C) ≤ 1 := fun b =>
        ih (fun c hc => by simpa using hN _ (mem_tails hc)) (tails_unrelated b h)
      rw [kraftSum_split he]
      linarith [ht false, ht true]

/-! ## The codes of an alphabet -/

/-- The codes of the tree over `ws` cost no more than any lengths that meet Kraft's inequality. -/
theorem treeCodes_cost_le {ws : List (Nat × Nat)} (h : ws ≠ []) {W : Nat → Nat} (hW : ∀ p ∈ ws, W p.1 = p.2)
    {P : List (Nat × Nat)} (hp : (P.map (·.1)).Perm (ws.map (·.2))) (hk : kraft P ≤ 1) :
    ((treeCodes (leaves ws)).map (fun m => W m.1 * m.2.length)).sum ≤ lengthCost P := by
  have hlen : (leaves ws).length = ws.length := by simp [leaves]
  have hpos := List.length_pos_of_ne_nil h
  obtain ⟨n, hn, he⟩ := treeCodes_node (q := leaves ws) (fun e => by rw [e] at hlen; simp at hlen; omega)
  have hmem : ∀ x ∈ leaves ws, ∃ p ∈ ws, x.weight = p.2 ∧ x.members = [(p.1, [])] := by
    intro x hx
    obtain ⟨⟨p, i⟩, hpi, rfl⟩ := List.mem_map.mp hx
    exact ⟨p, List.fst_mem_of_mem_zipIdx hpi, rfl, rfl⟩
  have hle := mergeLoop_cost_le W ((leaves ws).length - 1) (leaves ws).length (leaves ws) (by omega)
    (fun x hx => by
      obtain ⟨p, hp, h1, h2⟩ := hmem x hx
      simp [Node.Weighs, h1, h2, hW p hp]) hn (P := P)
    (by
      have : (leaves ws).map (·.weight) = ws.map (·.2) := by
        rw [leaves, List.map_map]
        conv_rhs => rw [← List.zipIdx_map_fst 0 ws, List.map_map]
        rfl
      rw [this]; exact hp) hk
  have hz : ((leaves ws).map (·.cost W)).sum = 0 := by
    refine List.sum_eq_zero fun c hc => ?_
    obtain ⟨x, hx, rfl⟩ := List.mem_map.mp hc
    obtain ⟨p, -, -, h2⟩ := hmem x hx
    simp [Node.cost, h2]
  rw [he]
  rw [hz, Nat.zero_add] at hle
  exact hle

end Sys2Proof.Machine
end

