-- ==== Sys2Proof/Laws/Invariant.lean ====
section
/-! SUPPORT. Every store operation keeps the invariant of Safety.lean, the canonical form of the stores included, and so do the
latch operations. -/

namespace Sys2Proof.Machine

theorem State.Inv.setMsg {s : State} (h : s.Inv) {i : Nat} (hi : i < s.config.msgMax.toNat) (v : Byte) : (s.setMsg i v).Inv :=
  { h with
    msgWf := Memory.wf_write h.msgWf i v
    msgBelow := Memory.below_write h.msgBelow hi v }

theorem State.Inv.setEsByte {s : State} (h : s.Inv) {j : Nat} (hj : j < s.config.esMax.toNat / 8) (v : Byte) :
    (s.setEsByte j v).Inv :=
  { h with
    esWf := Memory.wf_write h.esWf j v
    esBelow := Memory.below_write h.esBelow hj v }

theorem State.Inv.setEsBit {s : State} (h : s.Inv) {p : Nat} (hp : p < s.config.esMax.toNat) (b : Bool) :
    (s.setEsBit p b).Inv :=
  h.setEsByte (by have := h.config.2.2.2; omega) _

theorem State.Inv.setEsBits {s : State} (h : s.Inv) {p : Nat} {b : Bits} (hp : p + b.length ≤ s.config.esMax.toNat) :
    (s.setEsBits p b).Inv := by
  induction b generalizing s p with
  | nil => exact h
  | cons x b ih =>
    rw [List.length_cons] at hp
    exact ih (h.setEsBit (by omega) x) (by rw [State.setEsBit_config]; omega)

theorem State.Inv.setFreq {s : State} (h : s.Inv) {a : Nat} (ha : a < nSym) (w : Word) : (s.setFreq a w).Inv :=
  { h with
    freqWf := Memory.wf_write h.freqWf a w
    freqBelow := Memory.below_write h.freqBelow ha w }

theorem State.Inv.setCt {s : State} (h : s.Inv) {a : Nat} (ha : a < nSym) {e : CodeEntry} (he : e.Canonical) :
    (s.setCt a e).Inv :=
  { h with
    ctWf := Memory.wf_write h.ctWf a e
    ctBelow := Memory.below_write h.ctBelow ha e
    ctCanonical := fun b => by
      rw [State.ctAt_setCt]
      split
      · exact he
      · exact h.ctCanonical b }

theorem State.Inv.setDt {s : State} (h : s.Inv) {k : Nat} (h0 : k ≠ 0) (hk : k < dtSize) {e : DecodeEntry} (he : e.Canonical) :
    (s.setDt k e).Inv :=
  { h with
    dtWf := Memory.wf_write h.dtWf k e
    dtBelow := Memory.below_write h.dtBelow hk e
    dtCanonical := fun j => by
      rw [State.dtAt_setDt]
      split
      · exact he
      · exact h.dtCanonical j
    dtZero := by
      rw [State.dtAt_setDt, if_neg (Ne.symm h0)]
      exact h.dtZero }

/-- Taking a fault keeps the invariant (60_exceptions.md R283). -/
theorem State.Inv.latch {s : State} (h : s.Inv) (f : FaultCode) (info : Word) : (s.latch f info).Inv :=
  { h with errInfo := nofun }

/-- Clearing the latch keeps it (45_macro_system.md R266). -/
theorem State.Inv.clearLatch {s : State} (h : s.Inv) : (clearLatch s).Inv :=
  { h with errInfo := fun _ => rfl }

/-- The invalid CT entry and the entries that host writes make are canonical (10_state.md R40, R41). -/
theorem CodeEntry.canonical_invalid : CodeEntry.invalid.Canonical := rfl

theorem CodeEntry.canonical_ofHostWord (w : Word) : (CodeEntry.ofHostWord w).Canonical := by
  unfold CodeEntry.ofHostWord
  dsimp only
  split
  · exact CodeEntry.canonical_invalid
  · next h =>
    unfold CodeEntry.Canonical
    dsimp only
    rw [if_pos rfl]
    refine ⟨?_, ?_⟩
    · have : (w.extractLsb' 16 4).toNat ≠ 0 := fun he => h (BitVec.eq_of_toNat_eq (by simpa using he))
      omega
    · simp only [keepLow, BitVec.toNat_ofNat]
      exact Nat.lt_of_le_of_lt (Nat.mod_le _ _) (Nat.mod_lt _ (Nat.two_pow_pos _))

theorem DecodeEntry.canonical_valid (v : Byte) : DecodeEntry.Canonical { valid := true, sym := v } := nofun

/-- What `EsAppend` leaves meets the invariant again. -/
theorem State.Inv.esAppend {s : State} (h : s.Inv) (b : Bits) : (esAppend b s).state.Inv := by
  unfold Machine.esAppend
  split
  · exact h.latch _ _
  · next hf =>
    have h1 : (s.setEsBits s.esLen.toNat b).Inv := h.setEsBits (by omega)
    have hlt := s.config.esMax.isLt
    refine { h1 with esLen := ?_ }
    rw [CommandResult.state_ended, State.setEsBits_config]
    show (BitVec.ofNat 32 _).toNat ≤ _
    rw [BitVec.toNat_ofNat, Nat.mod_eq_of_lt (by omega)]
    omega

/-- What `MsgAppend` leaves meets the invariant again. -/
theorem State.Inv.msgAppend {s : State} (h : s.Inv) (v : Byte) : (msgAppend v s).state.Inv := by
  unfold Machine.msgAppend
  split
  · exact h.latch _ _
  · next hf =>
    have hle := h.msgLen
    have hne : s.msgLen.toNat ≠ s.config.msgMax.toNat := fun he => hf (BitVec.eq_of_toNat_eq he)
    have h1 : (s.setMsg s.msgLen.toNat v).Inv := h.setMsg (by omega) v
    have hlt := s.config.msgMax.isLt
    refine { h1 with msgLen := ?_ }
    rw [CommandResult.state_ended, State.setMsg_config]
    show (BitVec.ofNat 32 _).toNat ≤ _
    rw [BitVec.toNat_ofNat, Nat.mod_eq_of_lt (by omega)]
    omega

/-- Moving RDPTR within ES keeps it. -/
theorem State.Inv.skip {s : State} (h : s.Inv) {n : Nat} (hn : s.rdPtr.toNat + n ≤ s.config.esMax.toNat) : (s.skip n).Inv :=
  { h with
    rdPtr := by
      show (BitVec.ofNat 32 _).toNat ≤ _
      rw [BitVec.toNat_ofNat]
      exact Nat.le_trans (Nat.mod_le _ _) hn }

/-! ## Commands -/

theorem realign_inv {s : State} (h : s.Inv) : (realign s).state.Inv := by
  unfold realign
  dsimp only
  split
  · exact h.latch _ _
  · next hn =>
    have key : ∀ js : List Nat, (∀ j ∈ js, j < s.config.msgMax.toNat) → ∀ t : State, t.Inv → t.config = s.config →
        (writeChunks js t).Inv ∧ (writeChunks js t).config = s.config := by
      intro js
      induction js with
      | nil => intro _ t ht hc; exact ⟨ht, hc⟩
      | cons j js ih =>
        intro hj t ht hc
        exact ih (fun k hk => hj k (by simp [hk])) _ (ht.setMsg (by rw [hc]; exact hj j (by simp)) _) hc
    have := key (List.range s.chunkCount) (fun j hj => by have := List.mem_range.mp hj; omega) s h rfl
    refine { this.1 with msgLen := ?_ }
    show (BitVec.ofNat 32 s.chunkCount).toNat ≤ (writeChunks (List.range s.chunkCount) s).config.msgMax.toNat
    rw [this.2, BitVec.toNat_ofNat]
    exact (Nat.mod_le _ _).trans (by omega)

theorem count_inv {s : State} (h : s.Inv) : (count s).state.Inv := by
  have key : ∀ (m : List Byte) (t : State), t.Inv → (countSymbols m t).Inv := by
    intro m
    induction m with
    | nil => intro t ht; exact ht
    | cons a m ih => intro t ht; exact ih _ (ht.setFreq a.isLt _)
  exact key _ _ { h with freqWf := Memory.wf_nil _, freqBelow := Memory.below_nil _ }

theorem State.Inv.clearCt {s : State} (h : s.Inv) : ({ s with ct := [] } : State).Inv :=
  { h with ctWf := Memory.wf_nil _, ctBelow := Memory.below_nil _, ctCanonical := fun _ => rfl }

theorem State.Inv.clearDt {s : State} (h : s.Inv) : ({ s with dt := [] } : State).Inv :=
  { h with dtWf := Memory.wf_nil _, dtBelow := Memory.below_nil _, dtCanonical := fun _ _ => rfl, dtZero := rfl }

theorem build_inv {s : State} (h : s.Inv) : (build s).state.Inv := by
  rcases build_cases s with ⟨-, he⟩ | ⟨-, a, l, r, -, he⟩ | ⟨hw, ht, he⟩
  · rw [he]; exact (State.Inv.clearCt h).latch _ _
  · rw [he]; exact (State.Inv.clearCt h).latch _ _
  · rw [he]
    have ha := s.weights_alphabet
    have hn := buildCodes_nodup (rp := s.rp) hw ha
    have hs : ∀ a c, (a, c) ∈ buildCodes s.weights s.rp → a < nSym := fun a c hc => by
      have := (buildCodes_symbols (rp := s.rp) hw ha.symbols).mem_iff.mp (List.mem_map_of_mem (f := (·.1)) hc)
      obtain ⟨p, hp, he⟩ := List.mem_map.mp this
      have := ha.symbols p hp
      have he : p.1 = a := he
      omega
    have hl := (tooLong_eq_nil hn hs).mp ht
    have key : ∀ (codes : Codes) (t : State), (∀ a c, (a, c) ∈ codes → a < nSym ∧ c ≠ [] ∧ c.length ≤ codeMax) → t.Inv →
        (writeCodes codes t).Inv := by
      intro codes
      induction codes with
      | nil => intro t _ ht; exact ht
      | cons x codes ih =>
        intro t hc ht
        obtain ⟨h1, h2, h3⟩ := hc x.1 x.2 (by simp)
        exact ih _ (fun a c hm => hc a c (by simp [hm])) (ht.setCt h1 (CodeEntry.canonical_ofCode h2 h3))
    exact key _ _ (fun a c hc => ⟨hs a c hc, buildCodes_nonempty hw ha.symbols hc, hl a c hc⟩) (State.Inv.clearCt h)

/-- A sequence keeps the invariant if each line does. -/
theorem State.Inv.andThen {r : CommandResult} {f : State → CommandResult} (h : r.state.Inv) (hf : ∀ s : State, s.Inv →
    (f s).state.Inv) :
    (r.andThen f).state.Inv := CommandResult.andThen_state (P := State.Inv) h hf

theorem esAppendAll_inv {bs : List Bits} {s : State} (h : s.Inv) : (esAppendAll bs s).state.Inv := by
  induction bs generalizing s with
  | nil => exact h
  | cons b bs ih => exact State.Inv.andThen (h.esAppend b) fun t ht => ih ht

theorem serhdr_inv {s : State} (h : s.Inv) : (serhdr s).state.Inv := by
  unfold serhdr
  split
  · exact h.latch _ _
  · exact esAppendAll_inv h

theorem packFrom_inv {m : List Byte} {i : Nat} {s : State} (h : s.Inv) : (packFrom i m s).state.Inv := by
  induction m generalizing s i with
  | nil => exact h
  | cons a m ih =>
    rw [packFrom]
    split
    · exact State.Inv.andThen (h.esAppend _) fun t ht => ih ht
    · exact h.latch _ _

theorem padLoop_inv {k : Nat} {s : State} (h : s.Inv) : (padLoop k s).state.Inv := by
  induction k generalizing s with
  | zero => exact h
  | succ k ih =>
    rw [padLoop]
    split
    · exact h
    · exact State.Inv.andThen (h.esAppend _) fun t ht => ih ht

theorem parseEntries_inv {k fin : Nat} {s : State} (h : s.Inv) (hf : fin ≤ s.esLen.toNat) :
    (parseEntries k fin s).state.Inv ∧ (parseEntries k fin s).state.esLen = s.esLen := by
  induction k generalizing s with
  | zero => exact ⟨h, rfl⟩
  | succ k ih =>
    rw [parseEntries]
    split
    · exact ⟨h, rfl⟩
    split
    · exact ⟨h.latch _ _, rfl⟩
    dsimp only
    split
    · exact ⟨h.latch _ _, rfl⟩
    · next h1 h2 h3 =>
      have hl := val_lt (s.esBits (s.rdPtr.toNat + 8) 4)
      rw [State.length_esBits] at hl
      have h4 := h.esLen
      exact ih ((h.setDt (by have := idx_pos (s.esBits (s.rdPtr.toNat + 12) (val (s.esBits (s.rdPtr.toNat + 8) 4))); omega)
          (idx_lt_dtSize (by rw [State.length_esBits]; omega)) (DecodeEntry.canonical_valid _)).skip
        (by rw [State.setDt_rdPtr, State.setDt_config]; omega)) hf

theorem deshdr_inv {s : State} (h : s.Inv) : (deshdr s).state.Inv := by
  have h0 := State.Inv.clearDt h
  unfold deshdr
  dsimp only
  split
  · exact h0.latch _ _
  · next h1 =>
    rw [State.avail_eq] at h1
    have h1 : ¬ (s.esLen.toNat - s.rdPtr.toNat < 16) := h1
    have he := h.esLen
    have hsk : (({ s with dt := [] } : State).skip 16).Inv := h0.skip (by show s.rdPtr.toNat + 16 ≤ s.config.esMax.toNat; omega)
    have hr : (({ s with dt := [] } : State).skip 16).rdPtr.toNat = s.rdPtr.toNat + 16 := State.skip_rdPtr
        (by show s.rdPtr.toNat + 16 < _; have := s.config.esMax.isLt; omega)
    split
    · exact hsk.latch _ _
    · next h2 =>
      rw [State.avail_eq, hr] at h2
      have h2 : ¬ (s.esLen.toNat - (s.rdPtr.toNat + 16) < _) := h2
      refine (parseEntries_inv hsk ?_).1
      rw [hr]
      show s.rdPtr.toNat + 16 + val (s.esBits s.rdPtr.toNat 16) ≤ s.esLen.toNat
      have h3 : ¬ (s.esLen.toNat - (s.rdPtr.toNat + 16) < val (s.esBits s.rdPtr.toNat 16)) := h2
      omega

theorem scanLoop_inv {k n : Nat} {c : Bits} {s : State} (h : s.Inv) (hk : s.rdPtr.toNat + k ≤ s.esLen.toNat) :
    (scanLoop k c n s).state.Inv := by
  induction k generalizing s n c with
  | zero =>
    rw [scanLoop]
    split
    · exact h.latch _ _
    · exact h
  | succ k ih =>
    have he := h.esLen
    have hsk : (s.skip 1).Inv := h.skip (by omega)
    have hr : (s.skip 1).rdPtr.toNat = s.rdPtr.toNat + 1 := State.skip_rdPtr (by have := s.config.esMax.isLt; omega)
    rw [scanLoop]
    split
    · rcases msgAppend_cases ((s.skip 1).dtAt (idx (c ++ [s.esBit s.rdPtr.toNat]))).sym (s.skip 1) with ⟨-, hm⟩ | ⟨-, hm⟩
      · have hi := hsk.msgAppend ((s.skip 1).dtAt (idx (c ++ [s.esBit s.rdPtr.toNat]))).sym
        rw [hm] at hi ⊢
        rw [CommandResult.ended_andThen]
        split
        · exact hi
        · exact ih hi (by show (s.skip 1).rdPtr.toNat + k ≤ s.esLen.toNat; omega)
      · rw [hm]; exact hsk.latch _ _
    · exact ih hsk (by rw [hr]; show _ ≤ s.esLen.toNat; omega)

theorem scan_inv {s : State} (h : s.Inv) : (scan s).state.Inv := by
  unfold scan
  rcases Nat.lt_or_ge s.esLen.toNat s.rdPtr.toNat with hlt | hge
  · have : s.avail = 0 := by rw [State.avail_eq]; omega
    rw [this, scanLoop]; exact h
  · exact scanLoop_inv h (by rw [State.avail_eq]; omega)

end Sys2Proof.Machine
end

