-- ==== Sys2Proof/Laws/PerInstr.lean ====
section
/-! SUPPORT. Statements made once for every constructor of `Instr`. `Encoding`: what 30_encoding.md R90 to R92 say of the command
word of each instruction. -/

namespace Sys2Proof.Laws

/-- The instruction is well formed; its word is well formed, has its opcode in bits 7:0 and 0 in bits 31:8, decodes to it, and
is the word of the row of the opcode map at its opcode (30_encoding.md R90 to R92, R120). -/
def Encoding.Statement (i : Instr) : Prop :=
  i.wellFormed = true ∧ commandWordWellFormed (encode i) = true ∧ (encode i).toNat = i.opcode ∧
    decode (encode i) = .ok i ∧ opcodeMap[i.opcode]? = some ⟨i, encode i, 0xFFFFFFFF#32⟩

theorem Encoding.nop : Encoding.Statement .nop := by simp only [Encoding.Statement]; decide
theorem Encoding.sreset : Encoding.Statement .sreset := by simp only [Encoding.Statement]; decide
theorem Encoding.clrerr : Encoding.Statement .clrerr := by simp only [Encoding.Statement]; decide
theorem Encoding.realign : Encoding.Statement .realign := by simp only [Encoding.Statement]; decide
theorem Encoding.count : Encoding.Statement .count := by simp only [Encoding.Statement]; decide
theorem Encoding.build : Encoding.Statement .build := by simp only [Encoding.Statement]; decide
theorem Encoding.serhdr : Encoding.Statement .serhdr := by simp only [Encoding.Statement]; decide
theorem Encoding.pack : Encoding.Statement .pack := by simp only [Encoding.Statement]; decide
theorem Encoding.padb : Encoding.Statement .padb := by simp only [Encoding.Statement]; decide
theorem Encoding.encode : Encoding.Statement .encode := by simp only [Encoding.Statement]; decide
theorem Encoding.deshdr : Encoding.Statement .deshdr := by simp only [Encoding.Statement]; decide
theorem Encoding.scan : Encoding.Statement .scan := by simp only [Encoding.Statement]; decide
theorem Encoding.decode : Encoding.Statement .decode := by simp only [Encoding.Statement]; decide

end Sys2Proof.Laws
end

