-- ==== Sys2Proof/Laws/Step.lean ====
section
/-! SUPPORT. What one step does (Machine/Step.lean): the three shapes of a step, and the effect of each kind of host access. -/

namespace Sys2Proof.Machine

/-- With no access to come the state stays. -/
theorem step_idle {s : State} (h : s.script = []) : step s = .next s := by
  simp [step, State.nextAccess, h]

/-- A write of CMD issues the word. -/
theorem step_command {s : State} {w : Word} {rest : List HostAccess} (h : s.script = .writeReg 0#8 w :: rest) :
    step s = issueCommand w { s with script := rest } := by
  simp [step, State.nextAccess, h, HostAccess.commandWord]

theorem step_command_next (s : State) (w : Word) (rest : List HostAccess) :
    step { s with script := .writeReg 0#8 w :: rest } = issueCommand w { s with script := rest } := rfl

/-- Any other access has its own effect. -/
theorem step_access {s : State} {a : HostAccess} {rest : List HostAccess} (h : s.script = a :: rest)
    (ha : a.commandWord = none) : step s = .next (hostAccess a { s with script := rest }) := by
  simp [step, State.nextAccess, h, ha]

theorem step_access_next (s : State) {a : HostAccess} (rest : List HostAccess) (ha : a.commandWord = none) :
    step { s with script := a :: rest } = .next (hostAccess a { s with script := rest }) := step_access rfl ha

/-- The only access that carries a command word is a write of register 0. -/
theorem HostAccess.commandWord_eq_some {a : HostAccess} {w : Word} : a.commandWord = some w ↔ a = .writeReg 0#8 w := by
  cases a with
  | writeReg r v =>
    by_cases h : r = 0#8
    · subst h; simp [HostAccess.commandWord]
    · simp [HostAccess.commandWord, h]
  | _ => simp [HostAccess.commandWord]

/-! ## Issuing a word -/

/-- The gate is open when no fault is latched, and for the words SRESET and CLRERR always (60_exceptions.md R284). -/
theorem acceptsCommand_iff {s : State} {w : Word} :
    acceptsCommand s w = true ↔ s.err = none ∨ w = 0x00000001#32 ∨ w = 0x00000002#32 := by
  simp [acceptsCommand, or_assoc]

theorem issueCommand_ignored {s : State} {w : Word} (h : s.err ≠ none) (h1 : w ≠ 0x00000001#32) (h2 : w ≠ 0x00000002#32) :
    issueCommand w s = .next s := by
  have : acceptsCommand s w = false := by
    rw [Bool.eq_false_iff, ne_eq, acceptsCommand_iff]; tauto
  simp [issueCommand, this]

theorem issueCommand_runs {s : State} {w : Word} {i : Instr} (h : acceptsCommand s w = true) (hd : decode w = .ok i) :
    issueCommand w s = exec i s := by
  simp [issueCommand, h, hd]

theorem issueCommand_illegal {s : State} {w : Word} {r : IllegalWord} (h : s.err = none) (hd : decode w = .error r) :
    issueCommand w s = .next (s.latch .illegalCommand w) := by
  have : acceptsCommand s w = true := acceptsCommand_iff.mpr (.inl h)
  simp [issueCommand, this, hd, raise, State.latch]

/-! ## Host accesses -/

/-- The script is not the block's: an access does the same whatever is still to come. -/
theorem hostAccess_script (a : HostAccess) (s : State) (rest : List HostAccess) :
    hostAccess a { s with script := rest } = { hostAccess a s with script := rest } := by
  cases a with
  | writeReg r w =>
    simp only [hostAccess, State.writeRegister]
    split <;> first | rfl | (split <;> rfl)
  | writeMsg i v => simp only [hostAccess, State.hostWriteMsg]; split <;> rfl
  | writeEsByte j v => simp only [hostAccess, State.hostWriteEsByte]; split <;> rfl
  | writeFreq i w => simp only [hostAccess, State.hostWriteFreq]; split <;> rfl
  | writeCt i w => simp only [hostAccess, State.hostWriteCt]; split <;> rfl
  | writeDt k w => rfl
  | readReg r => rfl
  | readMsg i => rfl
  | readEsByte j => rfl
  | readFreq i => rfl
  | readCt i => rfl
  | readDt k => rfl
  | hardwareReset => rfl

/-- What an access that starts no command leads to. -/
theorem State.access_host {s : State} {a : HostAccess} (h : a.commandWord = none) : s.Access a (hostAccess a s) :=
    fun rest => by
  rw [step_access_next s rest h]
  exact congrArg _ (hostAccess_script a s rest)

theorem State.access_eq {s t : State} {a : HostAccess} (h : a.commandWord = none) (ht : hostAccess a s = t) : s.Access a t :=
  ht ▸ State.access_host h

/-- An access has one result. -/
theorem State.access_unique {s t u : State} {a : HostAccess} (h : s.Access a t) (k : s.Access a u) :
    { t with script := [] } = { u with script := [] } := by
  have := (h []).symm.trans (k [])
  injection this

end Sys2Proof.Machine
end

