-- ==== Sys2Proof/Laws/StreamDecoder.lean ====
section
/-! SUPPORT. What the loop of SCAN does (44_bitpacker_decoder.md R240 to R244): it reads bits that match nothing, it emits the
symbol of a code it has read, and it stops at the end of the payload or at the symbol limit. -/

namespace Sys2Proof.Machine

/-! ## Moving RDPTR -/

@[simp] theorem State.dtAt_skip (s : State) (n k : Nat) : (s.skip n).dtAt k = s.dtAt k := rfl
@[simp] theorem State.esBit_skip (s : State) (n p : Nat) : (s.skip n).esBit p = s.esBit p := rfl
@[simp] theorem State.esBits_skip (s : State) (n p m : Nat) : (s.skip n).esBits p m = s.esBits p m := rfl
@[simp] theorem State.msgAt_skip (s : State) (n i : Nat) : (s.skip n).msgAt i = s.msgAt i := rfl

@[simp] theorem State.skip_zero (s : State) : s.skip 0 = s := by
  simp [State.skip]

theorem State.skip_skip (s : State) (a b : Nat) : (s.skip a).skip b = s.skip (a + b) := by
  have : BitVec.ofNat 32 ((BitVec.ofNat 32 (s.rdPtr.toNat + a)).toNat + b) = BitVec.ofNat 32 (s.rdPtr.toNat + (a + b)) := by
    apply BitVec.eq_of_toNat_eq
    simp [Nat.add_assoc]
  show { s with rdPtr := BitVec.ofNat 32 ((BitVec.ofNat 32 (s.rdPtr.toNat + a)).toNat + b) } = s.skip (a + b)
  rw [this]; rfl

theorem State.dtAt_of_dt {s t : State} (h : t.dt = s.dt) (k : Nat) : t.dtAt k = s.dtAt k := by unfold State.dtAt; rw [h]

theorem State.Decodes.of_dt {s t : State} {v : Byte} {c : Bits} (h : s.Decodes v c) (hd : t.dt = s.dt) : t.Decodes v c :=
  ⟨h.nonempty, h.short, by rw [State.dtAt_of_dt hd]; exact h.entry,
    fun k h0 hk => by rw [State.dtAt_of_dt hd]; exact h.noEarlier k h0 hk⟩

theorem State.NeverMatches.of_dt {s t : State} {c : Bits} (h : s.NeverMatches c) (hd : t.dt = s.dt) : t.NeverMatches c :=
  fun k h0 h1 h2 => by rw [State.dtAt_of_dt hd]; exact h k h0 h1 h2

/-! ## Emitting -/

theorem Emitted.refl (s : State) : Emitted [] s.rdPtr.toNat s s :=
  ⟨rfl, by simp, by simp, fun _ _ => rfl, rfl⟩

theorem Emitted.trans {a b : List Byte} {p q : Nat} {s t u : State} (h : Emitted a p s t) (k : Emitted b q t u) :
    Emitted (a ++ b) q s u where
  rest := by rw [k.rest, h.rest]
  msgLen := by rw [k.msgLen, h.msgLen, List.length_append]; omega
  symbols := by
    rw [List.length_append, List.range_add, List.map_append, List.map_map]
    congr 1
    · refine Eq.trans (List.map_congr_left fun j hj => ?_) h.symbols
      exact k.others _ (.inl (by rw [h.msgLen]; have := List.mem_range.mp hj; omega))
    · refine Eq.trans (List.map_congr_left fun j _ => ?_) k.symbols
      simp only [Function.comp, h.msgLen, Nat.add_assoc]
  others i hi := by
    rw [List.length_append] at hi
    rw [k.others i (by rw [h.msgLen]; omega), h.others i (by omega)]
  rdPtr := k.rdPtr

/-- The fields SCAN leaves. -/
theorem Emitted.keeps {m : List Byte} {r : Nat} {s t : State} (h : Emitted m r s t) :
    t.config = s.config ∧ t.err = s.err ∧ t.errInfo = s.errInfo ∧ t.pad = s.pad ∧ t.rpLen = s.rpLen ∧ t.rpVal = s.rpVal ∧
      t.esLen = s.esLen ∧ t.symLim = s.symLim ∧ t.es = s.es ∧ t.freq = s.freq ∧ t.ct = s.ct ∧ t.dt = s.dt ∧
      t.script = s.script ∧ t.readings = s.readings := by
  rw [h.rest]; simp

/-- Passing over bits changes RDPTR only. -/
theorem emitted_skip {s : State} {n : Nat} (h : s.rdPtr.toNat + n < 2 ^ 32) :
    Emitted [] (s.rdPtr.toNat + n) s (s.skip n) :=
  ⟨rfl, by simp, by simp, fun _ _ => rfl, State.skip_rdPtr h⟩

/-- `MsgAppend` with room for one more symbol. -/
theorem msgAppend_fits {v : Byte} {s : State} (h : s.msgLen.toNat < s.config.msgMax.toNat) :
    ∃ t, msgAppend v s = .ended t ∧ Emitted [v] s.rdPtr.toNat s t := by
  rcases msgAppend_cases v s with ⟨-, he⟩ | ⟨he, -⟩
  · refine ⟨_, he, rfl, ?_, ?_, fun i hi => ?_, rfl⟩
    · show (BitVec.ofNat 32 (s.msgLen.toNat + 1)).toNat = _
      rw [BitVec.toNat_ofNat, Nat.mod_eq_of_lt (by have := s.config.msgMax.isLt; omega)]
      rfl
    · show [(s.setMsg s.msgLen.toNat v).msgAt (s.msgLen.toNat + 0)] = [v]
      rw [State.msgAt_setMsg, if_pos (Nat.add_zero _)]
    · show (s.setMsg s.msgLen.toNat v).msgAt i = s.msgAt i
      rw [State.msgAt_setMsg, if_neg (by simp at hi; omega)]
  · rw [he] at h; omega

/-! ## The loop -/

/-- Bits that complete no code are added to the candidate (44_bitpacker_decoder.md R240, R241). -/
theorem scanLoop_unmatched {w p : Bits} {s : State} (k n : Nat) (hb : s.esBits s.rdPtr.toNat w.length = w)
    (hr : s.rdPtr.toNat + w.length < 2 ^ 32)
    (hno : ∀ j, p.length < j → j ≤ p.length + w.length → j ≤ codeMax →
      (s.dtAt (idx ((p ++ w).take j))).valid = false) :
    scanLoop (w.length + k) p n s = scanLoop k (p ++ w) n (s.skip w.length) := by
  induction w generalizing s p with
  | nil => simp
  | cons b w ih =>
    rw [List.length_cons, State.esBits_succ] at hb
    obtain ⟨h0, h1⟩ := List.cons.inj hb
    rw [List.length_cons] at hr hno
    have hlen : (b :: w).length + k = (w.length + k) + 1 := by rw [List.length_cons]; omega
    rw [hlen, scanLoop, h0]
    have hv : ¬ ((p ++ [b]).length ≤ codeMax ∧ ((s.skip 1).dtAt (idx (p ++ [b]))).valid = true) := by
      rintro ⟨hl, hv⟩
      have := hno (p.length + 1) (by omega) (by omega) (by simpa using hl)
      rw [show (p ++ b :: w).take (p.length + 1) = p ++ [b] by
        rw [List.take_append, List.take_of_length_le (by omega)]; simp] at this
      rw [State.dtAt_skip, this] at hv
      cases hv
    have hsk : (s.skip 1).rdPtr.toNat = s.rdPtr.toNat + 1 := State.skip_rdPtr (by omega)
    rw [if_neg hv, ih (s := s.skip 1) (p := p ++ [b])]
    · rw [State.skip_skip, List.append_assoc, List.singleton_append, List.length_cons, Nat.add_comm 1]
    · rw [hsk]; exact (State.esBits_of_es rfl _ _).trans h1
    · rw [hsk]; omega
    · intro j hj hj' hj''
      rw [State.dtAt_skip, List.append_assoc, List.singleton_append]
      simp only [List.length_append, List.length_cons, List.length_nil] at hj hj'
      exact hno j (by omega) (by omega) hj''

/-- A code that DT decodes is read to its end and its symbol appended, or Capacity raised (44_bitpacker_decoder.md R240, R244). -/
theorem scanLoop_code {v : Byte} {c : Bits} {s : State} (k n : Nat) (hd : s.Decodes v c)
    (hb : s.esBits s.rdPtr.toNat c.length = c) (hr : s.rdPtr.toNat + c.length < 2 ^ 32) :
    scanLoop (c.length + k) [] n s = (msgAppend v (s.skip c.length)).andThen fun u =>
      if u.symLim ≠ 0#32 ∧ n + 1 = u.symLim.toNat then .ended u else scanLoop k [] (n + 1) u := by
  obtain ⟨w, b, rfl⟩ : ∃ w b, c = w ++ [b] := ⟨c.dropLast, c.getLast hd.nonempty, (List.dropLast_append_getLast _).symm⟩
  have hlen : (w ++ [b]).length = w.length + 1 := by simp
  rw [hlen] at hb hr ⊢
  rw [State.esBits_add] at hb
  obtain ⟨hb1, hb2⟩ := List.append_inj hb (by simp)
  have hsk : (s.skip w.length).rdPtr.toNat = s.rdPtr.toNat + w.length := State.skip_rdPtr (by omega)
  have hstep := scanLoop_unmatched (w := w) (p := []) (s := s) (1 + k) n hb1 (by omega) (fun j hj hj' _ => by
    have := hd.noEarlier j (by simpa using hj) (by rw [hlen]; simpa using Nat.lt_succ_of_le hj')
    rwa [List.take_append_of_le_length (by simpa using hj')] at this)
  rw [Nat.add_assoc, hstep, Nat.add_comm 1 k, List.nil_append, scanLoop]
  have hbit : (s.skip w.length).esBit (s.skip w.length).rdPtr.toNat = b := by
    rw [hsk, State.esBit_skip]
    simpa [State.esBits] using hb2
  rw [hbit]
  have hdt : ((s.skip w.length).skip 1).dtAt (idx (w ++ [b])) = { valid := true, sym := v } := by
    rw [State.dtAt_skip, State.dtAt_skip]; exact hd.entry
  rw [if_pos ⟨hd.short, by rw [hdt]⟩, hdt, State.skip_skip]

/-- The codes of several symbols are read and the symbols appended, as long as they fit and the symbol limit is not reached
(44_bitpacker_decoder.md R240, R242). -/
theorem scanLoop_codes {ms : List (Byte × Bits)} {s : State} (k n : Nat) (hd : ∀ m ∈ ms, s.Decodes m.1 m.2)
    (hb : s.esBits s.rdPtr.toNat (ms.flatMap (·.2)).length = ms.flatMap (·.2))
    (hr : s.rdPtr.toNat + (ms.flatMap (·.2)).length < 2 ^ 32)
    (hm : s.msgLen.toNat + ms.length ≤ s.config.msgMax.toNat)
    (hl : s.symLim = 0#32 ∨ n + ms.length < s.symLim.toNat) :
    ∃ t, scanLoop ((ms.flatMap (·.2)).length + k) [] n s = scanLoop k [] (n + ms.length) t ∧
      Emitted (ms.map (·.1)) (s.rdPtr.toNat + (ms.flatMap (·.2)).length) s t := by
  induction ms generalizing s n with
  | nil => exact ⟨s, by simp, Emitted.refl s⟩
  | cons m ms ih =>
    rw [List.flatMap_cons, List.length_append] at hb hr ⊢
    rw [State.esBits_add] at hb
    obtain ⟨hb1, hb2⟩ := List.append_inj hb (by simp)
    rw [List.length_cons] at hm hl ⊢
    have hsk := emitted_skip (s := s) (n := m.2.length) (by omega)
    obtain ⟨t, ht, he⟩ := msgAppend_fits (v := m.1) (s := s.skip m.2.length) (by simp; omega)
    have hst := hsk.trans he
    rw [List.nil_append] at hst
    have hrt : t.rdPtr.toNat = s.rdPtr.toNat + m.2.length := by rw [hst.rdPtr, hsk.rdPtr]
    have hml : t.msgLen.toNat = s.msgLen.toNat + 1 := hst.msgLen
    obtain ⟨hcfg, -, -, -, -, -, -, hsym, hes, -, -, hdt, -, -⟩ := hst.keeps
    obtain ⟨u, hu, heu⟩ := ih (s := t) (n + 1)
      (fun x hx => (hd x (List.mem_cons_of_mem _ hx)).of_dt hdt)
      (by rw [hrt, State.esBits_of_es hes]; exact hb2)
      (by rw [hrt]; omega)
      (by rw [hml, hcfg]; omega)
      (by rw [hsym]; exact hl.imp id (by omega))
    refine ⟨u, ?_, ?_⟩
    · rw [Nat.add_assoc, scanLoop_code _ _ (hd m (by simp)) hb1 (by omega), ht, CommandResult.ended_andThen, if_neg, hu]
      · congr 1; omega
      · rintro ⟨h0, h1⟩
        rw [hsym] at h0 h1
        exact hl.elim h0 (by omega)
    · have := hst.trans heu
      rw [hrt, Nat.add_assoc] at this
      simpa using this

/-- At the end of the payload a leftover of 0 to 7 bits is discarded and one of 8 or more raises UnknownCode
(44_bitpacker_decoder.md R243). -/
theorem scanLoop_leftover {w : Bits} {s : State} (n : Nat) (hb : s.esBits s.rdPtr.toNat w.length = w)
    (hr : s.rdPtr.toNat + w.length < 2 ^ 32) (hno : s.NeverMatches w) :
    scanLoop w.length [] n s =
      if 8 ≤ w.length then .raised ((s.skip w.length).latch .unknownCode s.rdPtr) else .ended (s.skip w.length) := by
  have h := scanLoop_unmatched (w := w) (p := []) (s := s) 0 n hb hr
    (fun j h0 h1 h2 => by simpa using hno j (by simpa using h0) (by simpa using h1) h2)
  rw [Nat.add_zero, List.nil_append] at h
  rw [h, scanLoop, State.skip_rdPtr hr, Nat.add_sub_cancel, BitVec.ofNat_toNat, BitVec.setWidth_eq]
  rfl

/-! ## Whole commands -/

theorem Emitted.skip {m : List Byte} {r n : Nat} {s t : State} (h : Emitted m r s t) (hr : r + n < 2^32) : Emitted m
    (r + n) s (t.skip n) := by
  have := h.trans (emitted_skip (s := t) (n := n) (by rw [h.rdPtr]; exact hr))
  rw [h.rdPtr] at this; simpa using this

/-- SCAN of codes and a leftover, to the end of the payload (44_bitpacker_decoder.md R240, R243). -/
theorem scan_end {s : State} {ms : List (Byte × Bits)} {left : Bits} (hd : ∀ m ∈ ms, s.Decodes m.1 m.2)
    (hn : s.NeverMatches left)
    (hlen : s.rdPtr.toNat + (ms.flatMap (·.2) ++ left).length = s.esLen.toNat)
    (hb : s.esBits s.rdPtr.toNat (ms.flatMap (·.2) ++ left).length = ms.flatMap (·.2) ++ left)
    (hm : s.msgLen.toNat + ms.length ≤ s.config.msgMax.toNat) (hs : s.symLim = 0#32 ∨ ms.length < s.symLim.toNat) :
    ∃ t, Emitted (ms.map (·.1)) s.esLen.toNat s t ∧ scan s = if 8 ≤ left.length then
      .raised (t.latch .unknownCode (BitVec.ofNat 32 (s.rdPtr.toNat + (ms.flatMap (·.2)).length))) else .ended t := by
  have hlt := s.esLen.isLt
  rw [List.length_append] at hlen hb
  rw [State.esBits_add] at hb
  obtain ⟨hb1, hb2⟩ := List.append_inj hb (by simp)
  obtain ⟨t, ht, he⟩ := scanLoop_codes left.length 0 hd hb1 (by omega) hm (by simpa using hs)
  have hes : t.es = s.es := by rw [he.rest]
  have hdt : t.dt = s.dt := by rw [he.rest]
  have hrd := he.rdPtr
  have hl := scanLoop_leftover (w := left) (s := t) (0 + ms.length) (by rw [hrd, State.esBits_of_es hes]; exact hb2)
      (by omega) (State.NeverMatches.of_dt hn hdt)
  have hav : s.avail = (ms.flatMap (·.2)).length + left.length := by rw [State.avail_eq]; omega
  refine ⟨t.skip left.length, ?_, ?_⟩
  · have := Emitted.skip he (n := left.length) (by omega)
    rwa [show s.rdPtr.toNat + (ms.flatMap (·.2)).length + left.length = s.esLen.toNat by omega] at this
  · unfold scan
    rw [hav, ht, hl, ← hrd]
    have : t.rdPtr = BitVec.ofNat 32 t.rdPtr.toNat := by simp
    rw [← this]

/-- SCAN up to its symbol limit (44_bitpacker_decoder.md R242). -/
theorem scan_limit {s : State} {ms : List (Byte × Bits)} (hd : ∀ m ∈ ms, s.Decodes m.1 m.2) (h0 : s.symLim ≠ 0#32)
    (hn : ms.length = s.symLim.toNat)
    (hlen : s.rdPtr.toNat + (ms.flatMap (·.2)).length ≤ s.esLen.toNat)
    (hb : s.esBits s.rdPtr.toNat (ms.flatMap (·.2)).length = ms.flatMap (·.2))
    (hm : s.msgLen.toNat + ms.length ≤ s.config.msgMax.toNat) :
    ∃ t, scan s = .ended t ∧ Emitted (ms.map (·.1)) (s.rdPtr.toNat + (ms.flatMap (·.2)).length) s t := by
  have hlt := s.esLen.isLt
  have hpos : 0 < s.symLim.toNat := by
    rcases Nat.eq_zero_or_pos s.symLim.toNat with h | h
    · exact absurd (BitVec.eq_of_toNat_eq (by simpa using h)) h0
    · exact h
  obtain ⟨init, last, rfl⟩ : ∃ a b, ms = a ++ [b] := ⟨ms.dropLast, ms.getLast (by rintro rfl; simp at hn; omega),
      (List.dropLast_append_getLast _).symm⟩
  simp only [List.flatMap_append, List.flatMap_cons, List.flatMap_nil, List.append_nil, List.length_append, List.length_cons, List.length_nil, List.map_append, List.map_cons, List.map_nil] at hn hlen hb hm ⊢
  rw [State.esBits_add] at hb
  obtain ⟨hb1, hb2⟩ := List.append_inj hb (by simp)
  obtain ⟨k, hk⟩ : ∃ k, s.avail = (init.flatMap (·.2)).length + (last.2.length + k) := ⟨s.avail - ((init.flatMap
      (·.2)).length + last.2.length), by rw [State.avail_eq]; omega⟩
  obtain ⟨t, ht, he⟩ := scanLoop_codes (last.2.length + k) 0 (fun m h => hd m (by simp [h])) hb1 (by omega) (by omega) (.inr
      (by omega))
  have hes : t.es = s.es := by rw [he.rest]
  have hdt : t.dt = s.dt := by rw [he.rest]
  have hsl : t.symLim = s.symLim := by rw [he.rest]
  have hcf : t.config = s.config := by rw [he.rest]
  have hrd := he.rdPtr
  have hml := he.msgLen
  rw [List.length_map] at hml
  have h1 := Emitted.skip he (n := last.2.length) (by omega)
  obtain ⟨u, hu, heu⟩ := msgAppend_fits (v := last.1) (s := t.skip last.2.length)
      (by show t.msgLen.toNat < t.config.msgMax.toNat; rw [hcf]; omega)
  refine ⟨u, ?_, ?_⟩
  · unfold scan
    rw [hk, ht, scanLoop_code k _ ((hd last (by simp)).of_dt hdt) (by rw [hrd, State.esBits_of_es hes]; exact hb2)
        (by omega), hu, CommandResult.ended_andThen]
    have : u.symLim = s.symLim := by rw [heu.rest]; exact hsl
    rw [this, if_pos ⟨h0, by omega⟩]
  · have := h1.trans heu
    rw [h1.rdPtr] at this
    rw [← Nat.add_assoc]; exact this

theorem take_zeros (k p : Nat) (h : k ≤ p) : (List.replicate p false).take k = List.replicate k false := by
  simp [List.take_replicate, Nat.min_eq_left h]

theorem flatMap_replicate_snd (c : Bits) (v : Byte) (n : Nat) : (List.replicate n (v, c)).flatMap
    (fun x : Byte × Bits => x.2) = (List.replicate n c).flatten := by
  induction n with
  | zero => rfl
  | succ n ih => simp [List.replicate_succ, ih]

theorem flatten_zeros (l n : Nat) : (List.replicate n (List.replicate l false)).flatten = List.replicate (n * l) false := by
  simp

/-- What was emitted into an empty message is the message. -/
theorem Emitted.message {m : List Byte} {r : Nat} {s t : State} (h : Emitted m r s t)
    (h0 : s.msgLen = 0#32) : t.message = m ∧ t.msgLen.toNat = m.length := by
  have hm := h.msgLen
  rw [h0] at hm
  have hm : t.msgLen.toNat = m.length := by rw [hm]; exact Nat.zero_add _
  refine ⟨?_, hm⟩
  have := h.symbols
  rw [h0] at this
  unfold State.message
  rw [hm]
  refine Eq.trans (List.map_congr_left fun j _ => ?_) this
  show _ = t.msgAt (0 + j)
  rw [Nat.zero_add]

end Sys2Proof.Machine
end

