-- ==== Sys2Proof/Laws/WholeFlow.lean ====
section
/-! SUPPORT. What the lines of ENCODE hand to each other (45_macro_system.md R260), the stream an ENCODE without fault leaves
(30_encoding.md R95), and what DECODE finds in it (R262). -/

namespace Sys2Proof.Machine

/-- What COUNT leaves in FREQ (40_frequency_model.md R135, R137). -/
theorem freqAt_count (s : State) {a : Nat} (ha : a < nSym) :
    ((countSymbols s.message { s with freq := [] }).freqAt a).toNat = s.message.count (BitVec.ofNat 8 a) := by
  have hn : (BitVec.ofNat 8 a).toNat = a := by simp only [BitVec.toNat_ofNat]; exact Nat.mod_eq_of_lt ha
  have h := freqAt_countSymbols s.message { s with freq := [] } (BitVec.ofNat 8 a)
  rw [hn] at h
  have h0 : ({ s with freq := [] } : State).freqAt a = 0#32 := rfl
  have hlt : s.message.count (BitVec.ofNat 8 a) < 2 ^ 32 :=
    Nat.lt_of_le_of_lt List.count_le_length (by rw [State.length_message]; exact s.msgLen.isLt)
  rw [h, h0, BitVec.zero_add, BitVec.toNat_ofNat, Nat.mod_eq_of_lt hlt]

/-- The alphabet after COUNT is the message's. -/
theorem weights_count (s : State) : (countSymbols s.message { s with freq := [] }).weights = alphabetOf s.message := by
  unfold State.weights alphabetOf
  refine congrArg _ (List.map_congr_left fun a ha => ?_)
  rw [freqAt_count s (List.mem_range.mp ha)]

/-- A symbol of the message has a weight in it. -/
theorem mem_alphabetOf {m : List Byte} {a : Byte} (h : a ∈ m) : (a.toNat, m.count a) ∈ alphabetOf m := by
  refine List.mem_filter.mpr ⟨List.mem_map.mpr ⟨a.toNat, List.mem_range.mpr a.isLt, by simp⟩, ?_⟩
  simpa using Nat.ne_of_gt (List.count_pos_iff.mpr h)

theorem alphabetOf_ne_nil {m : List Byte} (h : m ≠ []) : alphabetOf m ≠ [] := by
  obtain ⟨a, t, rfl⟩ := List.exists_cons_of_ne_nil h
  exact List.ne_nil_of_mem (mem_alphabetOf (List.mem_cons_self ..))

/-! ## ENCODE and DECODE -/

/-- All that COUNT does (40_frequency_model.md R135, R137). -/
theorem count_spec (s : State) : ∃ t, count s = .ended t ∧ t = { s with freq := t.freq } ∧ t.weights = alphabetOf s.message ∧
    (∀ a : Byte, (t.freqAt a.toNat).toNat = s.message.count a) := by
  refine ⟨_, rfl, ?_, weights_count s, fun a => ?_⟩
  · rw [countSymbols_frame]
  · simpa using freqAt_count s a.isLt

theorem esAppend_raised {b : Bits} {s t : State} (h : esAppend b s = .raised t) : t.err ≠ none := by
  rcases esAppend_cases b s with ⟨-, u, hu, -⟩ | ⟨-, hr⟩
  · rw [hu] at h; cases h
  · rw [hr] at h; injection h with h; subst h; simp [State.latch]

theorem packFrom_raised {m : List Byte} {i : Nat} {s t : State} (h : packFrom i m s = .raised t) : t.err ≠ none := by
  induction m generalizing s i with
  | nil => cases h
  | cons a m ih =>
    rw [packFrom] at h
    split at h
    · rcases hr : esAppend (s.ctAt a.toNat).code s with u | u
      · rw [hr] at h; exact ih h
      · rw [hr] at h; injection h with h; subst h; exact esAppend_raised hr
    · injection h with h; subst h; simp

theorem padLoop_raised {k : Nat} {s t : State} (h : padLoop k s = .raised t) : t.err ≠ none := by
  induction k generalizing s with
  | zero => cases h
  | succ k ih =>
    rw [padLoop] at h
    split at h
    · cases h
    · rcases hr : esAppend [false] s with u | u
      · rw [hr] at h; exact ih h
      · rw [hr] at h; injection h with h; subst h; exact esAppend_raised hr

theorem build_raised {s t : State} (h : build s = .raised t) : t.err ≠ none := by
  rcases build_cases s with ⟨-, he⟩ | ⟨-, a, l, r, -, he⟩ | ⟨-, -, he⟩ <;> rw [he] at h
  · injection h with h; subst h; simp [State.latch]
  · injection h with h; subst h; simp [State.latch]
  · cases h

theorem serhdr_raised {s t : State} (h : serhdr s = .raised t) : t.err ≠ none := by
  rcases serhdr_cases s with ⟨-, u, hu, -⟩ | ⟨-, hr⟩
  · rw [hu] at h; cases h
  · rw [hr] at h; injection h with h; subst h; simp [State.latch]

/-- The states between the lines of an ENCODE that ends without fault (45_macro_system.md R260). -/
structure EncodeRun (s t s1 s2 s3 s4 : State) : Prop where
  h1 : s1 = { s with esLen := 0#32, freq := s1.freq }
  w1 : s1.weights = alphabetOf s.message
  c1 : ∀ a : Byte, (s1.freqAt a.toNat).toNat = s.message.count a
  h2 : build s1 = .ended s2
  h3 : Appended s2.header s2 s3
  f3 : s2.esLen.toNat + 16 + s2.hlen ≤ s2.config.esMax.toNat
  h4 : Appended (s3.payload s.message) s3 s4
  h5 : if s.pad then Appended (padding s4.esLen.toNat) s4 t else t = s4

theorem encodeRun_of_exec {s t : State} (hx : exec .encode s = .next t)
    (hn : t.err = none) : ∃ s1 s2 s3 s4, EncodeRun s t s1 s2 s3 s4 := by
  have h : (encodeFlow s).state = t := by
    have h : (encodeFlow s).outcome = .next t := hx
    injection h
  obtain ⟨s1, hc, hf1, hw1, hc1⟩ := count_spec { s with esLen := 0#32 }
  unfold encodeFlow at h
  rw [hc, CommandResult.ended_andThen] at h
  rcases h2 : build s1 with s2 | u
  swap
  · rw [h2] at h; have h : u = t := h; subst h; exact absurd hn (build_raised h2)
  rw [h2, CommandResult.ended_andThen] at h
  obtain ⟨hf2, hB⟩ := build_builtCodes h2
  rcases serhdr_cases s2 with ⟨hfit, s3, h3, ha3⟩ | ⟨-, h3⟩
  swap
  · rw [h3] at h; have h : _ = t := h; subst h; cases hn
  rw [h3, CommandResult.ended_andThen] at h
  have hm3 : s3.message = s.message := by
    refine State.message_congr ?_ ?_
    · rw [ha3.rest, hf2, hf1]
    · rw [ha3.rest, hf2, hf1]
  have hp3 : s3.pad = s.pad := by rw [ha3.rest, hf2, hf1]
  rcases h4 : pack s3 with s4 | u
  swap
  · rw [h4] at h; have h : u = t := h; subst h; exact absurd hn (packFrom_raised h4)
  rw [h4, CommandResult.ended_andThen] at h
  obtain ⟨hv4, ha4, hf4⟩ := packFrom_ended h4
  rw [hm3] at ha4
  have hp4 : s4.pad = s.pad := by rw [ha4.rest, hp3]
  refine ⟨s1, s2, s3, s4, hf1, hw1, hc1, h2, ha3, hfit, ha4, ?_⟩
  rw [hp4] at h
  split
  · next hpad =>
    rw [if_pos hpad] at h
    rcases h5 : padb s4 with u | u
    · rw [h5] at h; have h : u = t := h; subst h
      exact padLoop_ended (by omega) h5
    · rw [h5] at h; have h : u = t := h; subst h; exact absurd hn (padLoop_raised h5)
  · next hpad => rw [if_neg hpad] at h; exact h.symm

theorem EncodeRun.keeps {s t s1 s2 s3 s4 : State} (e : EncodeRun s t s1 s2 s3 s4) : t.ct = s2.ct ∧ t.config = s.config ∧
    s3.ct = s2.ct ∧ s2.esLen = 0#32 ∧ s2.rpLen = s.rpLen := by
  obtain ⟨hf2, -⟩ := build_builtCodes e.h2
  have h3 := e.h3.rest
  have h4 := e.h4.rest
  have h5 := e.h5
  have h43 : s4.ct = s2.ct ∧ s4.config = s.config := by
    constructor
    · rw [h4, h3]
    · rw [h4, h3, hf2, e.h1]
  refine ⟨?_, ?_, by rw [h3], by rw [hf2, e.h1], by rw [hf2, e.h1]⟩
  · split at h5
    · rw [h5.rest]; exact h43.1
    · rw [h5]; exact h43.1
  · split at h5
    · rw [h5.rest]; exact h43.2
    · rw [h5]; exact h43.2

/-- The stream such an ENCODE leaves (30_encoding.md R95). -/
theorem EncodeRun.stream {s t s1 s2 s3 s4 : State} (e : EncodeRun s t s1 s2 s3 s4) :
    s4.stream = t.header ++ t.payload s.message ∧
    t.stream = t.header ++ t.payload s.message ++ (if s.pad then padding (t.header ++ t.payload s.message).length else []) ∧
    (∀ a ∈ s.message, (t.ctAt a.toNat).valid = true) := by
  obtain ⟨k1, k2, k3, k4, -⟩ := EncodeRun.keeps e
  have hs2 : s2.stream = [] := by unfold State.stream; rw [k4]; rfl
  have h3 := Appended.stream e.h3
  have h4 := Appended.stream e.h4
  have hh := (State.header_of_ct k1).1
  have hp : s3.payload s.message = t.payload s.message := State.payload_of_ct (k3.trans k1.symm) _
  rw [h3, hs2, hp, List.nil_append, ← hh] at h4
  refine ⟨h4, ?_, ?_⟩
  · have h5 := e.h5
    split at h5
    · next hpad =>
      rw [if_pos hpad, Appended.stream h5, h4]
      have : s4.esLen.toNat = (t.header ++ t.payload s.message).length := by
        rw [← h4]; simp [State.stream]
      rw [this]
    · next hpad => rw [if_neg hpad, List.append_nil, ← h4, h5]
  · intro a ha
    obtain ⟨-, hB⟩ := build_builtCodes e.h2
    rw [State.ctAt_of_ct k1, hB.alpha, e.w1]
    refine ⟨s.message.count a, ?_⟩
    unfold alphabetOf
    rw [List.mem_filter]
    refine ⟨List.mem_map.mpr ⟨a.toNat, List.mem_range.mpr a.isLt, by simp⟩, ?_⟩
    have := List.count_pos_iff.mpr ha
    simp; omega

/-- Its table is prefix-free and has no empty code. -/
theorem EncodeRun.prefixFree {s t s1 s2 s3 s4 : State} (e : EncodeRun s t s1 s2 s3 s4) : t.PrefixFreeCt ∧ (∀ a,
    (t.ctAt a).valid = true → (t.ctAt a).code ≠ []) := by
  obtain ⟨k1, -⟩ := EncodeRun.keeps e
  obtain ⟨-, hB⟩ := build_builtCodes e.h2
  have hw := (build_ended e.h2).1
  have hc : t.ctAt = s2.ctAt := funext (State.ctAt_of_ct k1)
  refine ⟨?_, ?_⟩
  · intro a b _ _ hab ha hb
    rw [hc] at ha hb ⊢
    exact buildCodes_prefixFree hw s1.weights_alphabet.symbols _ _ _ _ (hB.mem a ha) (hB.mem b hb) hab
  · intro a ha
    rw [hc] at ha ⊢
    exact buildCodes_nonempty hw s1.weights_alphabet.symbols (hB.mem a ha)

/-- In the table of the header of a prefix-free CT each code decodes to its symbol. -/
theorem decodesIn_entries {t : State} (hp : t.PrefixFreeCt) (hne : ∀ a, (t.ctAt a).valid = true → (t.ctAt a).code ≠ [])
    {a : Byte} (hv : (t.ctAt a.toNat).valid = true) :
    DecodesIn (decodeEntryOf (State.entries t)) a (t.ctAt a.toNat).code := by
  have hd : t.DistinctCodes := by
    intro x y hx hy hvx hvy he
    by_contra hxy
    exact (hp x y hx hy hxy hvx hvy).1 (he ▸ List.prefix_refl _)
  refine ⟨hne _ hv, ?_, ?_, ?_⟩
  · rw [CodeEntry.length_code]; have := (t.ctAt a.toNat).len.isLt; show _ ≤ 15; omega
  · have := decodeEntryOf_entries hd a.isLt hv
    simpa using this
  · intro k h0 hk
    rw [decodeEntryOf_entries_none]
    · rfl
    · intro b hb hvb he
      have he := idx_injective he
      by_cases hab : a.toNat = b
      · subst hab
        have := congrArg List.length he
        rw [List.length_take] at this; omega
      · exact (hp b a.toNat hb a.isLt (Ne.symm hab) hvb hv).1 (he ▸ List.take_prefix k _)

/-- DECODE's DESHDR on a stream that starts with a header of whole entries. -/
theorem deshdr_of_stream {d : State} {es : List (Byte × Bits)} {b : Bits} (hl : ∀ e ∈ es, e.2.length ≤ 15) (hh :
    (es.flatMap headerEntry).length < 2 ^ 16)
    (hs : d.stream = headerOf es ++ b) : ∃ u, deshdr { d with rdPtr := 0#32, msgLen := 0#32 } = .ended u ∧
      u = { d with dt := u.dt, rdPtr := u.rdPtr, msgLen := 0#32 } ∧ u.rdPtr.toNat = (headerOf es).length ∧
          (∀ k, u.dtAt k = decodeEntryOf es k) ∧
      u.esBits u.rdPtr.toNat b.length = b ∧ u.rdPtr.toNat + b.length = u.esLen.toNat := by
  obtain ⟨h1, h2, h3⟩ := State.stream_split hs
  obtain ⟨u, hu, hr, hp, hd⟩ := deshdr_whole (s := { d with rdPtr := 0#32, msgLen := 0#32 }) hl hh
    (by show 0 + _ ≤ d.esLen.toNat; omega) h1
  have hp : u.rdPtr.toNat = (headerOf es).length := by rw [hp]; exact Nat.zero_add _
  refine ⟨u, hu, hr, hp, hd, ?_, ?_⟩
  · rw [hp, State.esBits_of_es (s := d) (by rw [hr])]; exact h2
  · rw [hp, hr]; exact h3.symm

/-- The symbols of `m`, each with its code in CT. -/
def State.pairs (t : State) (m : List Byte) : List (Byte × Bits) := m.map (fun a => (a, (t.ctAt a.toNat).code))

theorem State.flatMap_pairs (t : State) (m : List Byte) : (State.pairs t m).flatMap (·.2) = t.payload m := by
  unfold State.pairs State.payload; rw [List.flatMap_map]

theorem State.map_fst_pairs (t : State) (m : List Byte) : (State.pairs t m).map (·.1) = m := by
  unfold State.pairs; rw [List.map_map]; exact List.map_id _

end Sys2Proof.Machine
end

