-- ==== Sys2Proof/Tests/Slice0.lean ====
section
/-! SUPPORT. Small tests, and a witness for the hypotheses of every statement that has any. The expected values of the tests come
from the worked examples of the spec named beside each. -/

namespace Sys2Proof.Tests

open Sys2Proof Sys2Proof.Machine

set_option Elab.async false

/-! ## States -/

/-- The elements `vs` from index 0 on, as a store in canonical form. -/
def store (vs : List Byte) : List Host.Cell := (vs.zipIdx.map (fun p => (p.2, p.1))).filter (fun c => c.2 != 0#8)

def withMessage (vs : List Byte) (s : State) : State := { s with msg := store vs, msgLen := BitVec.ofNat 32 vs.length }

def withStream (bs : List Byte) (n : Nat) (s : State) : State := { s with es := store bs, esLen := BitVec.ofNat 32 n }

def withWeights (ws : List (Nat × Word)) (s : State) : State := { s with freq := ws }

def withCodes (cs : List (Nat × Bits)) (s : State) : State := { s with ct := cs.map (fun c => (c.1, CodeEntry.ofCode c.2)) }

def withTable (es : List (Nat × Byte)) (s : State) : State :=
  { s with dt := es.map (fun e => (e.1, { valid := true, sym := e.2 })) }

def withPrefix (l : BitVec 4) (v : BitVec 15) (s : State) : State := { s with rpLen := l, rpVal := v }

def withErr (f : FaultCode) (s : State) : State := { s with err := some f }

/-- A block with room for `m` symbols and `e` stream bits, after reset. -/
def small (m e : Nat) : State := State.resetFor { msgMax := BitVec.ofNat 32 m, esMax := BitVec.ofNat 32 e }

/-- What `f` says of the state that `o` answers. -/
def seen {α : Type} (o : Host.Outcome State Fault Refusal) (f : State → α) : Option α :=
  match o with
  | .next t => some (f t)
  | .fault _ => none
  | .refused _ => none

/-- STATUS, ERRINFO. -/
def latchOf (s : State) : Nat × Nat := (s.statusWord.toNat, s.errInfo.toNat)

/-- The bytes of the stream. -/
def bytesOf (s : State) : List Nat := (List.range ((s.esLen.toNat + 7) / 8)).map (fun j => (s.esByte j).toNat)

def symbolsOf (s : State) : List Nat := s.message.map (·.toNat)

def codesOf (s : State) : List (Nat × Word) := s.codedSymbols.map (fun a => (a, (s.ctAt a).word))

/-- The message "abbccc". -/
def abbccc : List Byte := [0x61#8, 0x62#8, 0x62#8, 0x63#8, 0x63#8, 0x63#8]

/-- The weights, the codes and the decode table of "abbccc" (41_tree_builder.md R167, 43_header_codec.md R213). -/
def abcWeights : List (Nat × Word) := [(0x61, 1#32), (0x62, 2#32), (0x63, 3#32)]
def abcCodes : List (Nat × Bits) := [(0x61, [true, false]), (0x62, [true, true]), (0x63, [false])]
def abcTable : List (Nat × Byte) := [(2, 0x63#8), (6, 0x61#8), (7, 0x62#8)]
def abcEntries : List (Byte × Bits) := [(0x63#8, [false]), (0x61#8, [true, false]), (0x62#8, [true, true])]
def abcHeader : List Byte := [0x00#8, 0x29#8, 0x63#8, 0x13#8, 0x09#8, 0x4C#8, 0x45#8, 0x80#8]
def abcStream : List Byte := [0x00#8, 0x29#8, 0x63#8, 0x13#8, 0x09#8, 0x4C#8, 0x45#8, 0xDE#8]

/-! ## Well-formedness refuses ill-formed terms -/

theorem test_zero_field : zeroFieldClear 0x00000109#32 = false ∧ zeroFieldClear 0x80000000#32 = false := by decide
theorem test_opcode_field : opcodeAssigned 0x0000000D#32 = false ∧ opcodeAssigned 0x0000000C#32 = true := by decide
theorem test_ill_formed_words : commandWordWellFormed 0x00000109#32 = false ∧ commandWordWellFormed 0x0000000D#32 = false ∧
    commandWordWellFormed 0x00000009#32 = true := by decide
theorem test_config_no_message : ¬ Config.wf { msgMax := 0#32, esMax := 64#32 } := by decide
theorem test_config_small_stream : ¬ Config.wf { msgMax := 1#32, esMax := 8#32 } := by decide
theorem test_config_odd_stream : ¬ Config.wf { msgMax := 1#32, esMax := 65#32 } := by decide
theorem test_config_examples : Config.wf Config.examples := by decide

/-! ## Decoding: the words of 30_encoding.md R92, written out -/

theorem test_decode_nop : decodeTableWord 32 0x00000000 = some .nop := by decide
theorem test_decode_sreset : decodeTableWord 32 0x00000001 = some .sreset := by decide
theorem test_decode_clrerr : decodeTableWord 32 0x00000002 = some .clrerr := by decide
theorem test_decode_realign : decodeTableWord 32 0x00000003 = some .realign := by decide
theorem test_decode_count : decodeTableWord 32 0x00000004 = some .count := by decide
theorem test_decode_build : decodeTableWord 32 0x00000005 = some .build := by decide
theorem test_decode_serhdr : decodeTableWord 32 0x00000006 = some .serhdr := by decide
theorem test_decode_pack : decodeTableWord 32 0x00000007 = some .pack := by decide
theorem test_decode_padb : decodeTableWord 32 0x00000008 = some .padb := by decide
theorem test_decode_encode : decodeTableWord 32 0x00000009 = some .encode := by decide
theorem test_decode_deshdr : decodeTableWord 32 0x0000000A = some .deshdr := by decide
theorem test_decode_scan : decodeTableWord 32 0x0000000B = some .scan := by decide
theorem test_decode_decode : decodeTableWord 32 0x0000000C = some .decode := by decide
/-- 95_test_vectors.md B7.2, B7.3, B7.4. -/
theorem test_decode_illegal : decodeTableWord 32 0x0000000D = none ∧ decodeTableWord 32 0x00000109 = none ∧
    decodeTableWord 32 0xFFFFFFFF = none := by decide

/-! ## One step each -/

/-- 95_test_vectors.md B7.3: an illegal word. -/
theorem test_illegal_command : seen (step (State.reset.withFetchWord 32 0x109)) latchOf = some (5, 0x109) := by decide
/-- B7.6: an illegal word while a fault is latched. -/
theorem test_illegal_latched :
    seen (step ((withErr .emptyAlphabet State.reset).withFetchWord 32 0xD)) latchOf = some (1, 0) := by decide
/-- B7.11: SRESET's opcode with a non-zero upper field does not pass the latch. -/
theorem test_sreset_word_exact :
    seen (step ((withErr .emptyAlphabet State.reset).withFetchWord 32 0x101)) latchOf = some (1, 0) := by decide
/-- B7.7. -/
theorem test_clrerr : seen (step ((withErr .emptyAlphabet State.reset).withFetchWord 32 2)) latchOf = some (0, 0) := by decide
/-- B7.8. -/
theorem test_sreset : seen (step ((withErr .malformedHeader (withTable abcTable (withMessage abbccc State.reset))).withFetchWord 32 1))
    (fun t => decide (t = State.reset)) = some true := by decide
/-- B7.1. -/
theorem test_nop : seen (step ((withMessage abbccc State.reset).withFetchWord 32 0))
    (fun t => decide (t = withMessage abbccc State.reset)) = some true := by decide
/-- B7.14: RPCFG keeps the low RPLEN bits. -/
theorem test_rpcfg : seen (step { State.reset with script := [.writeReg 4#8 0x0002FFFF#32] }) (fun t => t.rpcfgWord.toNat) =
    some 0x00020003 := by decide
/-- B7.16: a host write of CT. -/
theorem test_ct_write : seen (step { State.reset with script := [.writeCt 0x61 0x0003FFFF#32] })
    (fun t => ((t.ctAt 0x61).word.toNat)) = some 0x80030007 := by decide
/-- B7.12: a message length out of range. -/
theorem test_msglen_ignored : seen (step { State.reset with script := [.writeReg 5#8 4097#32] }) (fun t => t.msgLen.toNat) =
    some 0 := by decide

/-- B1.5: chunks "1000001", "1000010", "11". -/
theorem test_realign : seen (exec .realign (withStream [0x83#8, 0x0B#8] 16 State.reset)) symbolsOf =
    some [0x41, 0x42, 0x03] := by decide +kernel
/-- B1.10. -/
theorem test_realign_capacity : seen (exec .realign (withStream [0x83#8, 0x0B#8] 16 (small 2 65536))) latchOf =
    some (7, 3) := by decide +kernel
/-- B1.1. -/
theorem test_count : seen (exec .count (withMessage abbccc State.reset)) (·.freq) = some abcWeights := by decide +kernel
/-- B1.3: what stood in FREQ before is overwritten. -/
theorem test_count_clears : seen (exec .count (withMessage [0#8, 0#8] (withWeights [(5, 99#32)] State.reset))) (·.freq) =
    some [(0, 2#32)] := by decide +kernel
/-- B2.6, "abracadabra". -/
theorem test_build : seen (exec .build (withWeights [(0x61, 5#32), (0x62, 2#32), (0x63, 1#32), (0x64, 1#32), (0x72, 2#32)] State.reset))
    codesOf = some [(0x61, 0x80010000#32), (0x62, 0x80030006#32), (0x63, 0x80030004#32), (0x64, 0x80030005#32),
      (0x72, 0x80030007#32)] := by decide +kernel
/-- B3.9, "mississippi" with RP = "0". -/
theorem test_build_guard : seen (exec .build (withPrefix 1#4 0#15
      (withWeights [(0x69, 4#32), (0x6D, 1#32), (0x70, 2#32), (0x73, 4#32)] State.reset)))
    codesOf = some [(0x69, 0x80030007#32), (0x6D, 0x8004000C#32), (0x70, 0x8004000D#32), (0x73, 0x80020002#32)] := by
  decide +kernel
/-- 43_header_codec.md R202. -/
theorem test_serhdr : seen (exec .serhdr (withCodes abcCodes State.reset)) (fun t => (t.esLen.toNat, bytesOf t)) =
    some (57, [0x00, 0x29, 0x63, 0x13, 0x09, 0x4C, 0x45, 0x80]) := by decide +kernel
/-- 45_macro_system.md R268. -/
theorem test_pack : seen (exec .pack (withMessage abbccc (withCodes abcCodes (withStream abcHeader 57 State.reset))))
    (fun t => (t.esLen.toNat, bytesOf t)) = some (66, [0x00, 0x29, 0x63, 0x13, 0x09, 0x4C, 0x45, 0xDE, 0x00]) := by
  decide +kernel
/-- 44_bitpacker_decoder.md R236. -/
theorem test_padb : seen (exec .padb (withStream abcStream 66 State.reset)) (fun t => (t.esLen.toNat, latchOf t)) =
    some (72, (0, 0)) := by decide +kernel
/-- B6.13: "ab" with RP = "11". -/
theorem test_encode : seen (exec .encode (withPrefix 2#4 3#15 (withMessage [0x61#8, 0x62#8] State.reset)))
    (fun t => (t.esLen.toNat, bytesOf t)) = some (48, [0x00, 0x1C, 0x61, 0x21, 0x88, 0x91]) := by decide +kernel
/-- B6.18: the fifth symbol does not fit ES_MAX = 64. -/
theorem test_encode_capacity : seen (exec .encode (withMessage abbccc (small 4096 64))) (fun t => (t.esLen.toNat, latchOf t)) =
    some (64, (7, 64)) := by decide +kernel
/-- 43_header_codec.md R213. -/
theorem test_deshdr : seen (exec .deshdr (withStream abcStream 66 State.reset)) (fun t => (t.rdPtr.toNat, t.dt)) =
    some (57, (withTable abcTable State.reset).dt) := by decide +kernel
/-- Program P6: a header cut short. -/
theorem test_deshdr_cut : seen (exec .deshdr (withStream [0x00#8, 0x1C#8, 0x61#8, 0x21#8, 0x88#8, 0x91#8] 43 State.reset))
    (fun t => (t.rdPtr.toNat, latchOf t)) = some (16, (3, 16)) := by decide +kernel
/-- 44_bitpacker_decoder.md R247. -/
theorem test_scan : seen (exec .scan { withTable abcTable (withStream abcStream 66 State.reset) with rdPtr := 57#32 })
    (fun t => (t.rdPtr.toNat, symbolsOf t)) = some (66, [0x61, 0x62, 0x62, 0x63, 0x63, 0x63]) := by decide +kernel
/-- 45_macro_system.md R269: six pad bits decode as six more "c". -/
theorem test_decode_padded : seen (exec .decode (withStream abcStream 72 State.reset)) symbolsOf =
    some [0x61, 0x62, 0x62, 0x63, 0x63, 0x63, 0x63, 0x63, 0x63, 0x63, 0x63, 0x63] := by decide +kernel
/-- 45_macro_system.md R269: with SYMLIM = 6 they are not read. -/
theorem test_decode_limit : seen (exec .decode { withStream abcStream 72 State.reset with symLim := 6#32 })
    (fun t => (t.rdPtr.toNat, t.msgLen.toNat)) = some (66, 6) := by decide +kernel
/-- 43_header_codec.md R202's example in the arena form too (41_tree_builder.md R159, R167). -/
theorem test_arena : arenaCodes [(0x61, 1), (0x62, 2), (0x63, 3)] =
    [(0x63, [false]), (0x61, [true, false]), (0x62, [true, true])] := by decide +kernel

/-! ## Witnesses

One theorem for each statement with hypotheses: concrete values that meet all of them, one part for each clause, at the ends of
the ranges where there are any. -/

theorem witness_DecodeAndEncodeAgree : decode 0x0000000C#32 = .ok .decode ∧ decode 0x0000000D#32 = .error .opcodeReserved ∧
    decode 0x00000100#32 = .error .zeroFieldNotClear := by decide

theorem witness_StepRunsDecodedCommand :
    (∃ s : State, s.script = [.writeReg 0#8 5#32] ∧ decode 5#32 = .ok .build ∧ s.err = none) ∧
    (∃ s : State, s.script = [.writeReg 0#8 1#32] ∧ decode 1#32 = .ok .sreset ∧ s.err = some .capacity) ∧
    (∃ s : State, s.script = [.readReg 1#8] ∧ HostAccess.commandWord (.readReg 1#8) = none) ∧
    State.reset.script = [] :=
  ⟨⟨State.reset.withFetchWord 32 5, rfl, rfl, rfl⟩, ⟨(withErr .capacity State.reset).withFetchWord 32 1, rfl, rfl, rfl⟩,
    ⟨{ State.reset with script := [.readReg 1#8] }, rfl, rfl⟩, rfl⟩

theorem witness_IllegalWordRaisesIllegalCommand :
    (0x00000100#32).extractLsb' 8 24 ≠ 0#24 ∧ 13 ≤ ((0x0000000D#32).extractLsb' 0 8).toNat ∧
    (∀ s : State, s.Inv → s.Access (.writeReg 0#8 0x00000000#32) s) :=
  ⟨by decide, by decide, fun s _ rest => by
    rw [step_command_next]
    by_cases h : acceptsCommand { s with script := rest } 0#32 = true
    · rw [issueCommand_runs h rfl]; rfl
    · rw [issueCommand, if_neg h]⟩

theorem witness_LatchGatesCommands :
    (∃ s : State, s.err ≠ none ∧ (4#32 : Word) ≠ 1#32 ∧ (4#32 : Word) ≠ 2#32) ∧
    (∃ s t : State, HostAccess.commandWord (.writeReg 8#8 5#32) = none ∧ s.Access (.writeReg 8#8 5#32) t) ∧
    (∃ s t : State, s.err ≠ none ∧ s.script = [.writeReg 0#8 4#32] ∧ step s = .next t) :=
  ⟨⟨withErr .capacity State.reset, by decide⟩, ⟨State.reset, { State.reset with symLim := 5#32 }, rfl, fun _ => rfl⟩,
    ⟨(withErr .capacity State.reset).withFetchWord 32 4, _, nofun, rfl, rfl⟩⟩

theorem witness_ResetStateValues :
    (∃ s t : State, exec .sreset s = .next t) ∧
    (∃ s t : State, s.script = [.hardwareReset] ∧ step s = .next t) :=
  ⟨⟨State.reset, _, rfl⟩, ⟨{ State.reset with script := [.hardwareReset] }, _, rfl, rfl⟩⟩

theorem witness_HardwareResetActsAsSreset : ∃ s : State, s.script = [.hardwareReset] :=
  ⟨{ State.reset with script := [.hardwareReset] }, rfl⟩

theorem witness_ClrerrClearsOnlyTheLatch : State.reset.err = none ∧ State.reset.errInfo = 0#32 ∧
    ∃ t, exec .build State.reset = .next t := ⟨rfl, rfl, _, rfl⟩

theorem witness_RpcfgWriteIsMasked : (0x0000FFFF#32).extractLsb' 16 4 = 0#4 := by decide

theorem witness_ReservedAndReadOnlyRegisters : 12 ≤ (12#8).toNat ∧ 12 ≤ (255#8).toNat := by decide

theorem witness_HostReadsReturnTheState : (255 : Nat) < 256 ∧ 256 ≤ 256 ∧ 12 ≤ (12#8).toNat ∧ 12 ≤ (255#8).toNat := by
  decide

theorem witness_HostStoreWrites : 4095 < State.reset.config.msgMax.toNat ∧ State.reset.config.msgMax.toNat ≤ 4096 ∧
    8191 < State.reset.config.esMax.toNat / 8 ∧ State.reset.config.esMax.toNat / 8 ≤ 8192 := by decide

theorem witness_EsBytesAndBitsAreOneStore :
    (withStream [0x00#8, 0x29#8] 16 State.reset).esBits 0 16 = bitsOf 16 0x0029 ∧
    8191 < State.reset.config.esMax.toNat / 8 ∧ (7 : Nat) < 8 ∧ 9 / 8 ≠ 0 := by decide +kernel

theorem witness_CtHostAccess : (255 : Nat) < 256 ∧ (0x8000FFFF#32).extractLsb' 16 4 = 0#4 ∧
    (0x000F0001#32).extractLsb' 16 4 ≠ 0#4 := by decide

/-- Two chunks and two symbols of room; three chunks. -/
theorem witness_RealignWritesChunks :
    ((withStream [] 14 (small 2 64)).esLen.toNat + 6) / 7 ≤ (small 2 64).config.msgMax.toNat ∧
    (small 2 64).config.msgMax.toNat < ((withStream [] 15 (small 2 64)).esLen.toNat + 6) / 7 := by decide

theorem witness_CountCountsSymbols : 5 < (withMessage abbccc State.reset).msgLen.toNat ∧ (255 : Nat) < 256 := by decide

theorem witness_BuildRejectsEmptyAlphabet : ∀ a, a < 256 → State.reset.freqAt a = 0#32 := fun _ _ => rfl

theorem witness_BuildWritesTheCodes : ∃ s : State, s.weights ≠ [] ∧ ∀ a c, (a, c) ∈ buildCodes s.weights s.rp → c.length ≤ 15 :=
  ⟨withWeights abcWeights State.reset, by decide +kernel, fun a c h =>
    (show ∀ m ∈ buildCodes (withWeights abcWeights State.reset).weights (withWeights abcWeights State.reset).rp,
      m.2.length ≤ 15 by decide +kernel) (a, c) h⟩

/-- Weights 2^0, 2^1, ... of the first `n` symbols (95_test_vectors.md B2.12, B3.14). -/
def powers (n : Nat) : List (Nat × Word) := (List.range n).map (fun i => (i, BitVec.ofNat 32 (2 ^ i)))

theorem witness_BuildRejectsLongCodes :
    (∃ s : State, (0, List.replicate 16 false) ∈ buildCodes s.weights s.rp ∧ s.rpLen = 0#4 ∧ s.weights.length = 17) ∧
    (∃ s : State, (0, List.replicate 16 false) ∈ buildCodes s.weights s.rp ∧ s.rpLen ≠ 0#4 ∧ s.weights.length = 16) ∧
    15 < (List.replicate 16 false).length ∧
    (∀ (codes : Codes) a d, (a, d) ∈ codes → a < 0 → d.length ≤ 15) :=
  ⟨⟨withWeights (powers 17) State.reset, by decide +kernel, rfl, by decide +kernel⟩,
    ⟨withPrefix 2#4 3#15 (withWeights (powers 16) State.reset), by decide +kernel, by decide, by decide +kernel⟩,
    by decide, fun _ _ _ _ h => absurd h (Nat.not_lt_zero _)⟩

/-- Fewer symbols than the names of the statement: K = 1 and K = 2, guard off and guard on; the lengths 1 and K. -/
theorem witness_BuildCodeLengthBounds :
    (∃ s t : State, exec .build s = .next t ∧ t.err = none ∧ (t.ctAt 97).valid = true ∧ s.rpLen = 0#4 ∧ s.weights.length = 1) ∧
    (∃ s t : State, exec .build s = .next t ∧ t.err = none ∧ (t.ctAt 97).valid = true ∧ s.rpLen = 0#4 ∧ s.weights.length = 2) ∧
    (∃ s t : State, exec .build s = .next t ∧ t.err = none ∧ (t.ctAt 97).valid = true ∧ s.rpLen ≠ 0#4 ∧ s.weights.length = 1) ∧
    (∃ s t : State, exec .build s = .next t ∧ t.err = none ∧ (t.ctAt 97).valid = true ∧ s.rpLen ≠ 0#4 ∧ s.weights.length = 2) :=
  ⟨⟨withWeights [(97, 4#32)] State.reset, _, rfl, by decide +kernel⟩,
    ⟨withWeights [(97, 1#32), (98, 1#32)] State.reset, _, rfl, by decide +kernel⟩,
    ⟨withPrefix 1#4 0#15 (withWeights [(97, 4#32)] State.reset), _, rfl, by decide +kernel⟩,
    ⟨withPrefix 1#4 0#15 (withWeights [(97, 1#32), (98, 1#32)] State.reset), _, rfl, by decide +kernel⟩⟩

theorem witness_BuildOfOneSymbol : ∃ s : State, s.freqAt 255 ≠ 0#32 ∧ ∀ b, b < 256 → b ≠ 255 → s.freqAt b = 0#32 :=
  ⟨withWeights [(255, 4#32)] State.reset, by decide +kernel⟩

theorem witness_alphabet : Alphabet [(97, 1), (98, 2)] := ⟨by simp, by decide, by decide⟩

/-- One pass over two nodes leaves the merged one. -/
theorem mergesTo_two {a b : Node} (h : a.weight < b.weight) : ∃ n, MergesTo [a, b] n :=
  ⟨_, _, .single (.pass (rest := []) (List.Perm.refl _) (by simpa using Or.inl h) (by simp) (List.Perm.refl _))⟩

theorem witness_BuildMergesTheTwoSmallest :
    (∃ n, Alphabet [(97, 1), (98, 2)] ∧ MergesTo (leaves [(97, 1), (98, 2)]) n ∧ 2 ≤ [(97, 1), (98, 2)].length) ∧
    (∃ n, Alphabet [(97, 4)] ∧ MergesTo (leaves [(97, 4)] ++ [dummyLeaf [(97, 4)]]) n ∧ [false] ≠ ([] : Bits)) := by
  obtain ⟨n, hn⟩ := mergesTo_two (a := ⟨1, 0, [(97, [])]⟩) (b := ⟨2, 1, [(98, [])]⟩) (by decide)
  obtain ⟨m, hm⟩ := mergesTo_two (a := ⟨4, 0, [(97, [])]⟩) (b := ⟨5, 1, [(256, [])]⟩) (by decide)
  exact ⟨⟨n, witness_alphabet, hn, by decide⟩, ⟨m, ⟨by simp, by decide, by decide⟩, hm, nofun⟩⟩

theorem witness_ArenaFormGivesTheSameCodes : Alphabet [(97, 1), (98, 2)] ∧ [(97, 1), (98, 2)] ≠ [] :=
  ⟨witness_alphabet, nofun⟩

theorem witness_PseudoInstructionsLoadTheirOperands :
    ([0x61#8, 0x62#8] : List Byte).length ≤ (small 2 16).config.msgMax.toNat ∧ (small 2 16).config.esMax.toNat % 8 = 0 ∧
    (List.replicate 16 true).length ≤ (small 2 16).config.esMax.toNat ∧ (List.replicate 15 true).length ≤ 15 ∧
    [true] ≠ ([] : Bits) ∧ 255 < 256 := by decide

theorem witness_NodeWeightsFit : ∃ n, n ∈ mergeLoop 1 2 (leaves [(97, 1), (98, 2)]) := ⟨_, List.mem_cons_self ..⟩

theorem witness_BuildIsPrefixFree : ∃ s t : State, exec .build s = .next t ∧ t.err = none ∧
    (t.ctAt 97).valid = true ∧ (t.ctAt 98).valid = true :=
  ⟨withWeights abcWeights State.reset, _, rfl, by decide +kernel⟩

theorem witness_BuildAvoidsReservedPrefix : ∃ s t : State, s.rpLen ≠ 0#4 ∧ exec .build s = .next t ∧ t.err = none ∧
    (t.ctAt 97).valid = true :=
  ⟨withPrefix 1#4 0#15 (withWeights abcWeights State.reset), _, by decide, rfl, by decide +kernel⟩

theorem witness_GuardedCodesExtendUnguarded : ∃ s t : State, s.rpLen ≠ 0#4 ∧ s.freqAt 97 ≠ 0#32 ∧ s.freqAt 98 ≠ 0#32 ∧
    exec .build s = .next t ∧ t.err = none ∧ (t.ctAt 97).valid = true :=
  ⟨withPrefix 1#4 0#15 (withWeights abcWeights State.reset), _, by decide, by decide, by decide, rfl, by decide +kernel⟩

theorem witness_BuildDependsOnFreqAndRpcfg :
    (∃ s s' t t' : State, s ≠ s' ∧ (∀ a, a < 256 → s.freqAt a = s'.freqAt a) ∧ s.rpcfgWord = s'.rpcfgWord ∧
      exec .build s = .next t ∧ exec .build s' = .next t') ∧
    (∃ s s' t t' : State, s ≠ s' ∧ s.message = s'.message ∧ s.rpcfgWord = s'.rpcfgWord ∧ s.pad = s'.pad ∧
      s.config = s'.config ∧ s.err = none ∧ s'.err = none ∧ exec .encode s = .next t ∧ exec .encode s' = .next t') :=
  ⟨⟨withWeights abcWeights State.reset, withWeights abcWeights { State.reset with esLen := 8#32 }, _, _, by decide,
      fun _ _ => rfl, rfl, rfl, rfl⟩,
    ⟨withMessage abbccc State.reset, withMessage abbccc { State.reset with esLen := 8#32 }, _, _, by decide,
      rfl, rfl, rfl, rfl, rfl, rfl, rfl, rfl⟩⟩

/-- The code 00, 01, 1 of the three symbols of "abbccc". -/
def otherCode (a : Nat) : Bits := if a = 97 then [false, false] else if a = 98 then [false, true] else [true]

theorem witness_BuildIsOptimal : ∃ s t : State, s.rpLen = 0#4 ∧ exec .build s = .next t ∧ t.err = none ∧
    (∀ a, a < 256 → s.freqAt a ≠ 0#32 → otherCode a ≠ []) ∧
    (∀ a b, a < 256 → b < 256 → a ≠ b → s.freqAt a ≠ 0#32 → s.freqAt b ≠ 0#32 → Unrelated (otherCode a) (otherCode b)) := by
  have h : ∀ a, a < 256 → (withWeights abcWeights State.reset).freqAt a ≠ 0#32 → a = 97 ∨ a = 98 ∨ a = 99 := by
    decide +kernel
  refine ⟨withWeights abcWeights State.reset, _, rfl, rfl, by decide +kernel, fun a ha h0 => ?_, fun a b ha hb hab h0 h1 => ?_⟩
  · rcases h a ha h0 with rfl | rfl | rfl <;> decide
  · rcases h a ha h0 with rfl | rfl | rfl <;> rcases h b hb h1 with rfl | rfl | rfl <;>
      first | exact absurd rfl hab | (constructor <;> decide)

theorem canonicalOrder_abc (s : State) (h : ∀ a, s.ctAt a = (withCodes abcCodes State.reset).ctAt a) :
    s.IsCanonicalOrder [99, 97, 98] := by
  have hb : Memory.below 256 (withCodes abcCodes State.reset).ct := by decide
  refine ⟨fun a => ?_, ?_⟩
  · rw [h]
    by_cases ha : a < 256
    · revert ha; revert a; decide +kernel
    · have : (withCodes abcCodes State.reset).ctAt a = CodeEntry.invalid := Memory.read_of_below hb (by omega)
      rw [this]; simp [CodeEntry.invalid]; omega
  · simp only [h]; decide +kernel

/-- The header of 57 bits: with room for 64, and with room for 56. -/
theorem witness_SerhdrAppendsTheHeader :
    (∃ s : State, s.IsCanonicalOrder [99, 97, 98] ∧ s.esLen.toNat + 16 + s.hlenOf [99, 97, 98] ≤ s.config.esMax.toNat) ∧
    (∃ s : State, s.IsCanonicalOrder [99, 97, 98] ∧ s.config.esMax.toNat < s.esLen.toNat + 16 + s.hlenOf [99, 97, 98]) :=
  ⟨⟨withCodes abcCodes (small 8 64), canonicalOrder_abc _ fun _ => rfl, by decide +kernel⟩,
    ⟨withCodes abcCodes (small 8 56), canonicalOrder_abc _ fun _ => rfl, by decide +kernel⟩⟩

theorem witness_DeshdrParsesTheEntries : ∃ s : State, (∀ e ∈ abcEntries, e.2.length ≤ 15) ∧
    (abcEntries.flatMap headerEntry).length < 2 ^ 16 ∧ s.rdPtr.toNat + (headerOf abcEntries).length ≤ s.esLen.toNat ∧
    s.esBits s.rdPtr.toNat (headerOf abcEntries).length = headerOf abcEntries :=
  ⟨withStream abcHeader 57 State.reset, by decide +kernel⟩

/-- A stream given by its bits. -/
def withBits (b : Bits) (s : State) : State :=
  withStream ((List.range ((b.length + 7) / 8)).map (Script.byteOfBits b)) b.length s

/-- A whole entry of 13 bits for symbol 63, then part of one: 11 bits, or 13 of the 14 that a 2-bit code needs. -/
def partHeader (part : Bits) : Bits :=
  bitsOf 16 (13 + part.length) ++ (headerEntry (0x63#8, [false]) ++ part)

theorem witness_DeshdrRejectsMalformedHeaders :
    (∃ s : State, s.rdPtr.toNat = 0 ∧ s.esLen.toNat = 15 ∧ s.esLen.toNat < s.rdPtr.toNat + 16) ∧
    (∃ s : State, s.rdPtr.toNat + 16 ≤ s.esLen.toNat ∧ s.esLen.toNat = 56 ∧
      s.esLen.toNat < s.rdPtr.toNat + 16 + val (s.esBits s.rdPtr.toNat 16)) ∧
    (∀ part ∈ [bitsOf 11 0, bitsOf 8 0x61 ++ bitsOf 4 2 ++ [true]],
      (∀ e ∈ [((0x63#8, [false]) : Byte × Bits)], e.2.length ≤ 15) ∧
      ([((0x63#8, [false]) : Byte × Bits)].flatMap headerEntry ++ part).length < 2 ^ 16 ∧
      (withBits (partHeader part) State.reset).esBits 0
          (16 + ([((0x63#8, [false]) : Byte × Bits)].flatMap headerEntry ++ part).length) =
        bitsOf 16 ([((0x63#8, [false]) : Byte × Bits)].flatMap headerEntry ++ part).length ++
          ([((0x63#8, [false]) : Byte × Bits)].flatMap headerEntry ++ part) ∧
      16 + ([((0x63#8, [false]) : Byte × Bits)].flatMap headerEntry ++ part).length ≤
        (withBits (partHeader part) State.reset).esLen.toNat ∧
      part ≠ [] ∧ (part.length < 12 ∨ part.length < 12 + val ((part.drop 8).take 4))) ∧
    (∃ s t : State, exec .deshdr s = .next t ∧ t.err = some .malformedHeader) :=
  ⟨⟨withStream [] 15 State.reset, by decide⟩, ⟨withStream abcHeader 56 State.reset, by decide +kernel⟩, by decide +kernel,
    ⟨State.reset, _, rfl, by decide +kernel⟩⟩

theorem witness_HeaderRoundTrip :
    (∃ s t : State, s.DistinctCodes ∧ exec .serhdr s = .next t ∧ t.err = none) ∧
    (∃ s t : State, exec .serhdr s = .next t ∧ t.err = none ∧ s.IsCanonicalOrder [0, 1] ∧ [0, 1].Sublist [0, 1] ∧
      (s.ctAt 0).code = (s.ctAt 1).code) := by
  refine ⟨⟨withCodes abcCodes State.reset, _, ?_, rfl, by decide +kernel⟩,
    ⟨withCodes [(0, [true]), (1, [true])] State.reset, _, rfl, by decide +kernel, ⟨fun a => ?_, by decide⟩, List.Sublist.refl _, rfl⟩⟩
  · have h : ∀ a, a < 256 → ((withCodes abcCodes State.reset).ctAt a).valid = true → a = 97 ∨ a = 98 ∨ a = 99 := by
      decide +kernel
    intro a b ha hb hva hvb hc
    rcases h a ha hva with rfl | rfl | rfl <;> rcases h b hb hvb with rfl | rfl | rfl <;>
      first | rfl | exact absurd hc (by decide)
  · by_cases ha : a < 256
    · revert ha; revert a; decide +kernel
    · have : (withCodes [(0, [true]), (1, [true])] State.reset).ctAt a = CodeEntry.invalid :=
        Memory.read_of_below (n := 256) (by decide) (by omega)
      rw [this]; simp [CodeEntry.invalid]; omega

/-- After the header of 57 bits: room for all; a symbol without a code at 1; the fifth symbol is the first that does not fit 64. -/
theorem witness_PackAppendsTheCodes :
    (∃ s : State, (∀ a ∈ s.message, (s.ctAt a.toNat).valid = true) ∧
      s.esLen.toNat + (s.payload s.message).length ≤ s.config.esMax.toNat ∧ s.message = abbccc) ∧
    (∃ s : State, 1 < s.msgLen.toNat ∧ (∀ a ∈ s.message.take 1, (s.ctAt a.toNat).valid = true) ∧
      s.esLen.toNat + (s.payload (s.message.take 1)).length ≤ s.config.esMax.toNat ∧
      (s.ctAt (s.msgAt 1).toNat).valid = false) ∧
    (∃ s : State, 4 < s.msgLen.toNat ∧ (∀ a ∈ s.message.take (4 + 1), (s.ctAt a.toNat).valid = true) ∧
      s.esLen.toNat + (s.payload (s.message.take 4)).length = s.config.esMax.toNat ∧
      s.config.esMax.toNat < s.esLen.toNat + (s.payload (s.message.take (4 + 1))).length) :=
  ⟨⟨withMessage abbccc (withCodes abcCodes (withStream abcHeader 57 State.reset)), by decide +kernel⟩,
    ⟨withMessage [0x61#8, 0x64#8] (withCodes abcCodes State.reset), by decide +kernel⟩,
    ⟨withMessage abbccc (withCodes abcCodes (withStream abcHeader 57 (small 8 64))), by decide +kernel⟩⟩

theorem witness_PadbPadsToAByte : (withStream abcStream 66 (small 8 72)).config.esMax.toNat % 8 = 0 ∧
    (withStream abcStream 66 (small 8 72)).esLen.toNat ≤ (withStream abcStream 66 (small 8 72)).config.esMax.toNat := by decide

/-- `DecodesIn` of a list, as a check. -/
def decodesAll (dt : Nat → DecodeEntry) (ms : List (Byte × Bits)) : Bool :=
  ms.all fun m => decide (m.2 ≠ [] ∧ m.2.length ≤ codeMax ∧ dt (idx m.2) = { valid := true, sym := m.1 } ∧
    ∀ k, k < m.2.length → 0 < k → (dt (idx (m.2.take k))).valid = false)

theorem decodes_of {dt : Nat → DecodeEntry} {ms : List (Byte × Bits)} (h : decodesAll dt ms = true) :
    ∀ m ∈ ms, DecodesIn dt m.1 m.2 := fun m hm => by
  obtain ⟨h1, h2, h3, h4⟩ := of_decide_eq_true (List.all_eq_true.mp h m hm)
  exact ⟨h1, h2, h3, fun k hk hl => h4 k hl hk⟩

theorem never_of {dt : Nat → DecodeEntry} {c : Bits}
    (h : ∀ k, k < c.length + 1 → 0 < k → k ≤ codeMax → (dt (idx (c.take k))).valid = false) : NeverMatchesIn dt c :=
  fun k hk hl hm => h k (by omega) hk hm

/-- A table with the code 0 only; a message "c", "c" and a leftover of ones. -/
def oneCode (b : Bits) (s : State) : State := withTable [(2, 0x63#8)] (withBits b s)
def twoCs : List (Byte × Bits) := [(0x63#8, [false]), (0x63#8, [false])]

/-- Leftovers of 7 and of 8 bits; a symbol limit above the number of symbols; room for exactly the symbols. -/
theorem witness_ScanToTheEndOfThePayload :
    (∀ n ∈ [7, 8], ∃ s : State, (∀ m ∈ twoCs, s.Decodes m.1 m.2) ∧ s.NeverMatches (List.replicate n true) ∧
      s.rdPtr.toNat + (twoCs.flatMap (·.2) ++ List.replicate n true).length = s.esLen.toNat ∧
      s.esBits s.rdPtr.toNat (twoCs.flatMap (·.2) ++ List.replicate n true).length =
        twoCs.flatMap (·.2) ++ List.replicate n true ∧
      s.msgLen.toNat + twoCs.length = s.config.msgMax.toNat ∧ twoCs.length < s.symLim.toNat) ∧
    (small 8 64).esLen.toNat ≤ (small 8 64).rdPtr.toNat := by
  refine ⟨fun n hn => ?_, by decide⟩
  have hn : n = 7 ∨ n = 8 := by simpa using hn
  rcases hn with rfl | rfl
  · exact ⟨{ oneCode (twoCs.flatMap (·.2) ++ List.replicate 7 true) (small 2 64) with symLim := 3#32 },
      decodes_of (by decide +kernel), never_of (by decide +kernel), by decide +kernel⟩
  · exact ⟨{ oneCode (twoCs.flatMap (·.2) ++ List.replicate 8 true) (small 2 64) with symLim := 3#32 },
      decodes_of (by decide +kernel), never_of (by decide +kernel), by decide +kernel⟩

theorem witness_ScanStopsAtTheSymbolLimit :
    (∃ s : State, (∀ m ∈ twoCs, s.Decodes m.1 m.2) ∧ s.symLim ≠ 0#32 ∧ twoCs.length = s.symLim.toNat ∧
      s.rdPtr.toNat + (twoCs.flatMap (·.2)).length ≤ s.esLen.toNat ∧
      s.esBits s.rdPtr.toNat (twoCs.flatMap (·.2)).length = twoCs.flatMap (·.2) ∧
      s.msgLen.toNat + twoCs.length ≤ s.config.msgMax.toNat) ∧
    (∃ s : State, (∀ m ∈ twoCs, s.Decodes m.1 m.2) ∧ s.NeverMatches [true] ∧
      s.rdPtr.toNat + (twoCs.flatMap (·.2) ++ [true]).length = s.esLen.toNat ∧
      s.esBits s.rdPtr.toNat (twoCs.flatMap (·.2) ++ [true]).length = twoCs.flatMap (·.2) ++ [true] ∧
      s.msgLen.toNat + twoCs.length ≤ s.config.msgMax.toNat ∧ twoCs.length < s.symLim.toNat) :=
  ⟨⟨{ oneCode (twoCs.flatMap (·.2) ++ List.replicate 9 true) (small 2 64) with symLim := 2#32 },
      decodes_of (by decide +kernel), by decide +kernel⟩,
    ⟨{ oneCode (twoCs.flatMap (·.2) ++ [true]) (small 2 64) with symLim := 3#32 },
      decodes_of (by decide +kernel), never_of (by decide +kernel), by decide +kernel⟩⟩

theorem witness_ScanRaisesCapacity :
    ∃ s : State, (∀ m ∈ twoCs, s.Decodes m.1 m.2) ∧ s.Decodes 0x63#8 [false] ∧
      s.rdPtr.toNat + (twoCs.flatMap (·.2) ++ [false]).length ≤ s.esLen.toNat ∧
      s.esBits s.rdPtr.toNat (twoCs.flatMap (·.2) ++ [false]).length = twoCs.flatMap (·.2) ++ [false] ∧
      s.msgLen.toNat + twoCs.length = s.config.msgMax.toNat ∧ s.symLim = 0#32 := by
  have h : decodesAll (oneCode (List.replicate 3 false) (small 2 64)).dtAt twoCs = true := by decide +kernel
  exact ⟨oneCode (List.replicate 3 false) (small 2 64), decodes_of h, decodes_of h (0x63#8, [false]) (by simp [twoCs]),
    by decide +kernel⟩

/-- Seven pad bits after one code: with the all-zero code 0, and with a table that has no all-zero code. -/
theorem witness_PadBitsDecodeAsSymbols :
    (∃ s : State, (∀ m ∈ [((0x63#8, [false]) : Byte × Bits)], s.Decodes m.1 m.2) ∧ s.rdPtr.toNat + 1 + 7 = s.esLen.toNat ∧
      s.esBits s.rdPtr.toNat (1 + 7) = [false] ++ List.replicate 7 false ∧ s.symLim = 0#32 ∧
      s.dtAt (idx (List.replicate 1 false)) = { valid := true, sym := 0x63#8 } ∧
      (∀ l, 1 ≤ l → l < 1 → (s.dtAt (idx (List.replicate l false))).valid = false) ∧
      s.msgLen.toNat + 1 + 7 / 1 = s.config.msgMax.toNat) ∧
    (∃ s : State, (∀ m ∈ [((0x63#8, [true]) : Byte × Bits)], s.Decodes m.1 m.2) ∧ s.rdPtr.toNat + 1 + 7 = s.esLen.toNat ∧
      s.esBits s.rdPtr.toNat (1 + 7) = [true] ++ List.replicate 7 false ∧ s.symLim = 0#32 ∧
      (∀ l, 1 ≤ l → l ≤ 15 → (s.dtAt (idx (List.replicate l false))).valid = false) ∧
      s.msgLen.toNat + 1 ≤ s.config.msgMax.toNat) := by
  refine ⟨⟨oneCode (List.replicate 8 false) (small 8 64), decodes_of (by decide +kernel), by decide +kernel, by decide +kernel,
      rfl, by decide +kernel, fun l h1 h2 => by omega, by decide +kernel⟩,
    ⟨withTable [(3, 0x63#8)] (withBits (true :: List.replicate 7 false) (small 1 64)), decodes_of (by decide +kernel),
      by decide +kernel, by decide +kernel, rfl, fun l h1 h2 => ?_, by decide +kernel⟩⟩
  exact (show ∀ l, l < 16 → 1 ≤ l →
    ((withTable [(3, 0x63#8)] (withBits (true :: List.replicate 7 false) (small 1 64))).dtAt
      (idx (List.replicate l false))).valid = false by decide +kernel) l (by omega) h1

theorem witness_MacrosAreTheirScripts : State.reset.err = none := rfl

/-- "abbccc" needs 66 bits; ES_MAX = 72 is the least multiple of 8 with that room. -/
theorem witness_EncodeCompletes :
    ∃ (s : State) (codes : Codes), codes = buildCodes (alphabetOf s.message) s.rp ∧ s.message ≠ [] ∧
      s.config.esMax.toNat % 8 = 0 ∧ (∀ a c, (a, c) ∈ codes → c.length ≤ 15) ∧
      16 + (codes.map (fun c => 12 + c.2.length)).sum + (s.message.flatMap (fun a => codeIn codes a.toNat)).length
        ≤ s.config.esMax.toNat ∧ s.config.esMax.toNat = 72 :=
  ⟨withMessage abbccc (small 8 72), _, rfl, by decide, by decide, fun a c h =>
    (show ∀ m ∈ buildCodes (alphabetOf (withMessage abbccc (small 8 72)).message) (withMessage abbccc (small 8 72)).rp,
      m.2.length ≤ 15 by decide +kernel) (a, c) h, by decide +kernel⟩

theorem witness_EncodeProducesTheStream : ∀ p : Bool, ∃ s t : State, exec .encode s = .next t ∧ s.err = none ∧ t.err = none ∧
    s.pad = p ∧ s.message = abbccc := by
  intro p
  cases p
  · exact ⟨withMessage abbccc State.reset, _, rfl, by decide +kernel⟩
  · exact ⟨withMessage abbccc { State.reset with pad := true }, _, rfl, by decide +kernel⟩

/-! The message for CodeTooLong has to be long: sixteen symbols with Fibonacci counts and the guard on (95_test_vectors.md B3.15
has one more). -/

theorem read_store (vs : List Byte) (i : Nat) : Memory.read 0#8 (store vs) i = (vs[i]?).getD 0#8 := by
  have h : ∀ (vs : List Byte) (k i : Nat), Memory.read 0#8
      (((vs.zipIdx k).map (fun p => (p.2, p.1))).filter (fun c => c.2 != 0#8)) i =
      if k ≤ i then (vs[i - k]?).getD 0#8 else 0#8 := by
    intro vs
    induction vs with
    | nil => intro k i; simp
    | cons v vs ih =>
      intro k i
      rw [List.zipIdx_cons, List.map_cons, List.filter_cons]
      have hi : i ≠ k → (if k + 1 ≤ i then (vs[i - (k + 1)]?).getD 0#8 else 0#8) =
          if k ≤ i then ((v :: vs)[i - k]?).getD 0#8 else 0#8 := by
        intro hne
        by_cases hk : k + 1 ≤ i
        · have : i - k = (i - (k + 1)) + 1 := by omega
          rw [if_pos hk, if_pos (by omega), this, List.getElem?_cons_succ]
        · rw [if_neg hk, if_neg (by omega)]
      by_cases hv : v = 0#8
      · subst hv
        rw [if_neg (by simp), ih]
        by_cases he : i = k
        · subst he; simp
        · exact hi he
      · rw [if_pos (by simpa using hv), Memory.read, ih]
        by_cases he : i = k
        · subst he; simp
        · rw [if_neg he]; exact hi he
  simpa [store] using h vs 0 i

theorem message_withMessage {vs : List Byte} (s : State) (h : vs.length < 2 ^ 32) : (withMessage vs s).message = vs := by
  have hl : (withMessage vs s).msgLen.toNat = vs.length := by
    simp only [withMessage, BitVec.toNat_ofNat]; exact Nat.mod_eq_of_lt h
  refine List.ext_getElem (by simp [hl]) fun i h1 h2 => ?_
  simp only [State.message, List.getElem_map, List.getElem_range]
  have : (withMessage vs s).msgAt i = Memory.read 0#8 (store vs) i := rfl
  rw [this, read_store, List.getElem?_eq_getElem h2]; rfl

def fibs : List (Nat × Nat) := [(0, 1), (1, 1), (2, 2), (3, 3), (4, 5), (5, 8), (6, 13), (7, 21), (8, 34), (9, 55), (10, 89),
  (11, 144), (12, 233), (13, 377), (14, 610), (15, 987)]

def fibMessage : List Byte := fibs.flatMap (fun p => List.replicate p.2 (BitVec.ofNat 8 p.1))

theorem alphabet_fibMessage : alphabetOf fibMessage = fibs := by
  have h : ∀ b : Byte, fibMessage.count b = (fibs.map (fun p => if BitVec.ofNat 8 p.1 == b then p.2 else 0)).sum := by
    intro b
    rw [fibMessage, List.count_flatMap]
    refine congrArg _ (List.map_congr_left fun p _ => ?_)
    simp [Function.comp, List.count_replicate]
  unfold alphabetOf
  simp only [h]
  decide +kernel

theorem exec_encode (s : State) : exec .encode s = .next (encodeFlow s).state := rfl

theorem exec_encode_lines (s : State) : exec .encode s = .next ((((build (countSymbols s.message
    { s with esLen := 0#32, freq := [] })).andThen serhdr).andThen pack).andThen fun t => if t.pad then padb t else .ended t).state := by
  have hm : ({ s with esLen := 0#32 } : State).message = s.message := State.message_congr rfl rfl
  show (encodeFlow s).outcome = _
  rw [encodeFlow, count, hm]
  rfl

theorem rp_withPrefix (s : State) : (withPrefix 2#4 3#15 s).rp = [true, true] := by
  show bitsOf 2 3 = [true, true]
  decide

theorem codeTooLong_of_alphabet {s : State} (hw : alphabetOf s.message = fibs) (hr : s.rp = [true, true]) :
    ∃ t, exec .encode s = .next t ∧ t.err = some .codeTooLong := by
  refine ⟨_, exec_encode_lines s, ?_⟩
  have hu : countSymbols s.message { s with esLen := 0#32, freq := [] } =
      { s with esLen := 0#32, freq := (countSymbols s.message { s with esLen := 0#32, freq := [] }).freq } :=
    countSymbols_frame _ _
  have hw' : (countSymbols s.message { s with esLen := 0#32, freq := [] }).weights = fibs :=
    (weights_count { s with esLen := 0#32 }).trans hw
  generalize countSymbols s.message { s with esLen := 0#32, freq := [] } = u at hu hw' ⊢
  have hr' : u.rp = [true, true] := by rw [State.rp_of_rpcfg (s := s) (by rw [hu]) (by rw [hu]), hr]
  have ht : tooLong (buildCodes u.weights u.rp) = [(0, 16), (1, 16)] := by rw [hw', hr']; decide +kernel
  rcases build_cases u with ⟨h, -⟩ | ⟨-, a, l, rest, -, h⟩ | ⟨-, h, -⟩
  · rw [hw'] at h; exact absurd h (by decide)
  · rw [h]; rfl
  · rw [ht] at h; exact absurd h (by decide)

theorem message_withPrefix (s : State) : (withPrefix 2#4 3#15 s).message = s.message := rfl

theorem codeTooLong_of_message {vs : List Byte} (hl : vs.length < 2 ^ 32) (ha : alphabetOf vs = fibs) :
    ∃ s t : State, exec .encode s = .next t ∧ s.err = none ∧ t.err = some .codeTooLong := by
  obtain ⟨t, ht, he⟩ := codeTooLong_of_alphabet (s := withPrefix 2#4 3#15 (withMessage vs State.reset))
    (by rw [message_withPrefix, message_withMessage _ hl, ha]) (rp_withPrefix _)
  exact ⟨_, t, ht, rfl, he⟩

theorem witness_EncodeFaultStates_codeTooLong :
    ∃ s t : State, exec .encode s = .next t ∧ s.err = none ∧ t.err = some .codeTooLong :=
  codeTooLong_of_message (vs := fibMessage) (by
    rw [fibMessage, List.length_flatMap, List.map_congr_left fun p _ => List.length_replicate]; decide +kernel) alphabet_fibMessage

theorem witness_EncodeFaultStates :
    (∃ s : State, s.msgLen = 0#32) ∧
    (∃ s t : State, exec .encode s = .next t ∧ s.err = none ∧ t.err = some .capacity ∧ s.config.esMax.toNat % 8 = 0 ∧
      t.esLen = 0#32) ∧
    (∃ s t : State, exec .encode s = .next t ∧ s.err = none ∧ t.err = some .capacity ∧ s.config.esMax.toNat % 8 = 0 ∧
      t.esLen = 64#32 ∧ (0x63, [false]) ∈ buildCodes (alphabetOf s.message) s.rp ∧ 0x63#8 ∈ s.message) :=
  ⟨⟨State.reset, rfl⟩, ⟨withMessage abbccc (small 8 56), _, rfl, by decide +kernel⟩,
    ⟨withMessage abbccc (small 8 64), _, rfl, by decide +kernel⟩⟩

def abbcccCodes : List (Byte × Bits) := [(0x61#8, [true, false]), (0x62#8, [true, true]), (0x62#8, [true, true]),
  (0x63#8, [false]), (0x63#8, [false]), (0x63#8, [false])]

/-- The stream of "abbccc" and one bit that completes no code; room for exactly the symbols. -/
theorem witness_DecodeRecoversTheSymbols :
    ∃ s : State, (∀ e ∈ abcEntries, e.2.length ≤ 15) ∧ (abcEntries.flatMap headerEntry).length < 2 ^ 16 ∧
      (∀ m ∈ abbcccCodes, DecodesIn (decodeEntryOf abcEntries) m.1 m.2) ∧
      NeverMatchesIn (decodeEntryOf abcEntries) [true] ∧ [true].length < 8 ∧
      s.stream = headerOf abcEntries ++ abbcccCodes.flatMap (·.2) ++ [true] ∧
      abbcccCodes.length = s.config.msgMax.toNat ∧ s.symLim = 0#32 :=
  ⟨withBits (headerOf abcEntries ++ abbcccCodes.flatMap (·.2) ++ [true]) (small 6 72), by decide +kernel, by decide +kernel,
    decodes_of (by decide +kernel), never_of (by decide +kernel), by decide, by decide +kernel⟩

/-- The state a decoder starts from: the stream of `t`, another message, the symbol limit `n`. -/
def receiver (n : Word) (t : State) : State := { t with symLim := n, msg := [], msgLen := 3#32 }

/-- What an encoder leaves and a receiver takes over. -/
theorem receives (s : State) (n : Word) (h : (encodeFlow s).state.err = none) : ∃ t d : State, exec .encode s = .next t ∧
    t = (encodeFlow s).state ∧ t.err = none ∧ d.config = t.config ∧ d.err = none ∧ d.symLim = n ∧ d.stream = t.stream :=
  ⟨_, receiver n (encodeFlow s).state, rfl, rfl, h, rfl, h, rfl, rfl⟩

theorem witness_RoundTripUnpadded : ∃ s t d : State, s.err = none ∧ s.msgLen.toNat ≤ s.config.msgMax.toNat ∧ s.pad = false ∧
    exec .encode s = .next t ∧ t.err = none ∧ d.config = t.config ∧ d.err = none ∧ d.symLim = 0#32 ∧ d.stream = t.stream := by
  obtain ⟨t, d, h1, -, h2, h3, h4, h5, h6⟩ := receives (withMessage abbccc (small 6 72)) 0#32 (by decide +kernel)
  exact ⟨_, t, d, rfl, by decide, rfl, h1, h2, h3, h4, h5, h6⟩

theorem witness_RoundTripWithSymbolCount : ∃ s t d : State, s.err = none ∧ s.msgLen.toNat ≤ s.config.msgMax.toNat ∧
    s.pad = true ∧ exec .encode s = .next t ∧ t.err = none ∧ d.config = t.config ∧ d.err = none ∧ d.symLim = s.msgLen ∧
    d.stream = t.stream := by
  obtain ⟨t, d, h1, -, h2, h3, h4, h5, h6⟩ := receives (withMessage abbccc { small 6 72 with pad := true }) 6#32
    (by decide +kernel)
  exact ⟨_, t, d, rfl, by decide, rfl, h1, h2, h3, h4, h5, h6⟩

/-- What the table alone fixes. -/
theorem hlen_of_codes {t : State} {cs : List (Nat × Bits)} (h : t.ct = (withCodes cs State.reset).ct) :
    t.hlen = (withCodes cs State.reset).hlen := by
  unfold State.hlen
  rw [State.canonicalOrder_of_ct h]
  exact congrArg _ (List.map_congr_left fun a _ => by rw [State.ctAt_of_ct h])

/-- Six pad bits and the code 0 of "c": twelve symbols fit MSG_MAX = 12 and not 11; with RP = "0" no code is all zeros. -/
theorem witness_RoundTripPadded :
    (∀ m ∈ [12, 11], ∃ s t d : State, s.err = none ∧ s.msgLen.toNat ≤ s.config.msgMax.toNat ∧ s.pad = true ∧
      exec .encode s = .next t ∧ t.err = none ∧ d.config = t.config ∧ d.err = none ∧ d.symLim = 0#32 ∧
      d.stream = t.stream ∧ t.esLen.toNat - (16 + t.hlen + (t.payload s.message).length) = 6 ∧
      (t.ctAt 0x63).valid = true ∧ (∀ x ∈ (t.ctAt 0x63).code, x = false) ∧
      s.msgLen.toNat + 6 / (t.ctAt 0x63).len.toNat = 12 ∧ s.config.msgMax.toNat = m) ∧
    (∃ s t d : State, s.err = none ∧ s.msgLen.toNat ≤ s.config.msgMax.toNat ∧ s.pad = true ∧
      exec .encode s = .next t ∧ t.err = none ∧ d.config = t.config ∧ d.err = none ∧ d.symLim = 0#32 ∧
      d.stream = t.stream ∧ t.esLen.toNat - (16 + t.hlen + (t.payload s.message).length) = 5 ∧
      ∀ z, z < 256 → (t.ctAt z).valid = true → ∃ x ∈ (t.ctAt z).code, x = true) := by
  refine ⟨fun m hm => ?_, ?_⟩
  · have hm : m = 12 ∨ m = 11 := by simpa using hm
    rcases hm with rfl | rfl
    · obtain ⟨t, d, h1, h0, h2, h3, h4, h5, h6⟩ := receives (withMessage abbccc { small 12 72 with pad := true }) 0#32
        (by decide +kernel)
      have hc : t.ct = (withCodes abcCodes State.reset).ct := by rw [h0]; decide +kernel
      have he : t.esLen = 72#32 := by rw [h0]; decide +kernel
      refine ⟨_, t, d, rfl, by decide, rfl, h1, h2, h3, h4, h5, h6, ?_⟩
      rw [hlen_of_codes hc, State.payload_of_ct hc, State.ctAt_of_ct hc, he]
      decide +kernel
    · obtain ⟨t, d, h1, h0, h2, h3, h4, h5, h6⟩ := receives (withMessage abbccc { small 11 72 with pad := true }) 0#32
        (by decide +kernel)
      have hc : t.ct = (withCodes abcCodes State.reset).ct := by rw [h0]; decide +kernel
      have he : t.esLen = 72#32 := by rw [h0]; decide +kernel
      refine ⟨_, t, d, rfl, by decide, rfl, h1, h2, h3, h4, h5, h6, ?_⟩
      rw [hlen_of_codes hc, State.payload_of_ct hc, State.ctAt_of_ct hc, he]
      decide +kernel
  · obtain ⟨t, d, h1, h0, h2, h3, h4, h5, h6⟩ := receives
      (withPrefix 1#4 0#15 (withMessage abbccc { small 6 80 with pad := true })) 0#32 (by decide +kernel)
    have hc : t.ct = (withCodes [(97, [true, true, false]), (98, [true, true, true]), (99, [true, false])] State.reset).ct := by
      rw [h0]; decide +kernel
    have he : t.esLen = 80#32 := by rw [h0]; decide +kernel
    refine ⟨_, t, d, rfl, by decide, rfl, h1, h2, h3, h4, h5, h6, ?_⟩
    rw [hlen_of_codes hc, State.payload_of_ct hc, he]
    simp only [State.ctAt_of_ct hc]
    decide +kernel

/-- A state with the invariant that is not the reset state. -/
theorem witness_inv : State.Inv { small 1 16 with symLim := 1#32 } where
  config := by decide
  msgLen := by decide
  esLen := by decide
  rdPtr := by decide
  rpVal := by decide
  errInfo := fun _ => rfl
  msgWf := Memory.wf_nil _
  msgBelow := Memory.below_nil _
  esWf := Memory.wf_nil _
  esBelow := Memory.below_nil _
  freqWf := Memory.wf_nil _
  freqBelow := Memory.below_nil _
  ctWf := Memory.wf_nil _
  ctBelow := Memory.below_nil _
  ctCanonical _ := rfl
  dtWf := Memory.wf_nil _
  dtBelow := Memory.below_nil _
  dtCanonical _ _ := rfl
  dtZero := rfl

theorem witness_FrameOfStreamCommands : ∃ s t u v w : State, exec .serhdr s = .next t ∧ exec .pack s = .next u ∧
    exec .padb s = .next v ∧ exec .encode s = .next w := ⟨State.reset, _, _, _, _, rfl, rfl, rfl, rfl⟩

theorem witness_FrameOfMessageCommands : ∃ s t u v : State, s.Inv ∧ exec .realign s = .next t ∧ exec .scan s = .next u ∧
    exec .decode s = .next v := ⟨_, _, _, _, witness_inv, rfl, rfl, rfl⟩

theorem witness_FrameOfTableCommands : ∃ s t u v : State, exec .count s = .next t ∧ exec .build s = .next u ∧
    exec .deshdr s = .next v ∧ s.rdPtr.toNat ≤ s.esLen.toNat := ⟨State.reset, _, _, _, rfl, rfl, rfl, by decide⟩

theorem witness_CommandsRaiseOnlyTheirFaults : ∃ s t : State, s.Inv ∧ s.err = none ∧ exec .build s = .next t ∧
    t.err = some .emptyAlphabet := ⟨_, _, witness_inv, rfl, rfl, by decide +kernel⟩

theorem witness_DecodingIgnoresTheEncoder : ∃ s t u : State, exec .scan s = .next t ∧ exec .decode s = .next u :=
  ⟨State.reset, _, _, rfl, rfl⟩

theorem witness_StepKeepsTheInvariant : ∃ s t : State, s.Inv ∧ step s = .next t := ⟨_, _, witness_inv, rfl⟩

/-- The least and the greatest parameters. -/
theorem witness_ResetMeetsTheInvariant : Config.wf { msgMax := 1#32, esMax := 16#32 } ∧
    Config.wf { msgMax := 0xFFFFFFFF#32, esMax := 0xFFFFFFF8#32 } := by decide

theorem witness_EveryCommandIsDefinedFromReset : Config.wf { msgMax := 1#32, esMax := 16#32 } := by decide

end Sys2Proof.Tests
end

section
/-! PROOFS. The family 10_state.md: what the host's accesses do and return, the fields of the register and table words, the
values after reset, and the invariant that every step keeps. -/

namespace Sys2Proof.Laws

/-- The laws of the encoding, for every instruction. -/
theorem Encoding.holds (i : Instr) : Encoding.Statement i :=
  match i with
  | .nop => Encoding.nop
  | .sreset => Encoding.sreset
  | .clrerr => Encoding.clrerr
  | .realign => Encoding.realign
  | .count => Encoding.count
  | .build => Encoding.build
  | .serhdr => Encoding.serhdr
  | .pack => Encoding.pack
  | .padb => Encoding.padb
  | .encode => Encoding.encode
  | .deshdr => Encoding.deshdr
  | .scan => Encoding.scan
  | .decode => Encoding.decode

end Sys2Proof.Laws

namespace Sys2Proof.Machine

/-! ## Command words -/

/-- Decoding gives back the instruction that was encoded (30_encoding.md R91). -/
theorem decode_encode (i : Instr) : decode (encode i) = .ok i := by
  obtain ⟨-, -, -, hdecode, -⟩ := Laws.Encoding.holds i
  exact hdecode

/-- Every row of the opcode map matches all 32 bits, with the word of its instruction (30_encoding.md R91, R92). -/
theorem opcodeMap_rows : ∀ r ∈ opcodeMap, r.mask = BitVec.allOnes 32 ∧ r.matchWord = encode r.instr := by decide

/-- A word decodes to a command only if it is that command's word (30_encoding.md R91). -/
theorem encode_of_decode {w : Word} {i : Instr} (h : decode w = .ok i) : encode i = w := by
  unfold decode at h
  split at h
  · next r hfind =>
    obtain ⟨hmask, hword⟩ := opcodeMap_rows r (List.mem_of_find?_eq_some hfind)
    have hselects : r.selects w = true := List.find?_some (p := fun r : OpcodeRow => r.selects w) hfind
    rw [OpcodeRow.selects, beq_iff_eq, hmask, BitVec.and_allOnes, hword] at hselects
    cases h
    exact hselects.symm
  · split at h <;> cases h

/-- The latch lets SRESET and CLRERR pass, and every command while no fault is latched (60_exceptions.md R284). -/
theorem acceptsCommand_of_decode {s : State} {w : Word} {i : Instr} (hd : decode w = .ok i)
    (h : s.err = none ∨ i = .sreset ∨ i = .clrerr) : acceptsCommand s w = true := by
  rw [acceptsCommand_iff, ← encode_of_decode hd]
  rcases h with h | rfl | rfl
  · exact .inl h
  · exact .inr (.inl (by decide))
  · exact .inr (.inr (by decide))

/-- The access that `withFetchWord` puts first writes the word of `i` to CMD. -/
theorem State.withFetchWord_encode (s : State) (i : Instr) :
    s.withFetchWord 32 (encode i).toNat = { s with script := .writeReg 0#8 (encode i) :: s.script } := by
  rw [State.withFetchWord, Nat.mod_eq_of_lt (encode i).isLt, BitVec.ofNat_toNat, BitVec.setWidth_eq]

/-! ## The fields of register and table words -/

section Fields
variable (e : CodeEntry)

/-- Every bit of a CT word: VALID in bit 31, LEN from bit 16 on, CBITS from bit 0 on (10_state.md R40). -/
theorem CodeEntry.getLsbD_word (i : Nat) :
    e.word.getLsbD i = if i = 31 then e.valid else if 16 ≤ i then e.len.getLsbD (i - 16) else e.cbits.getLsbD i := by
  by_cases h31 : i = 31
  · simp [CodeEntry.word, h31]
  by_cases h16 : 16 ≤ i
  · have hcbits : e.cbits.getLsbD i = false := BitVec.getLsbD_of_ge _ _ (by omega)
    by_cases h32 : i < 32
    · have hlow : i < 31 := by omega
      simp [CodeEntry.word, h31, h16, hcbits, h32, hlow]
    · have hlen : e.len.getLsbD (i - 16) = false := BitVec.getLsbD_of_ge _ _ (by omega)
      simp [CodeEntry.word, h31, h16, h32, hlen]
  · have hlow : i < 31 := by omega
    have h32 : i < 32 := by omega
    simp [CodeEntry.word, h31, h16, hlow, h32]

theorem CodeEntry.word_valid : e.word.getLsbD 31 = e.valid := e.getLsbD_word 31

theorem CodeEntry.word_len : e.word.extractLsb' 16 4 = e.len := by
  refine BitVec.eq_of_getLsbD_eq fun i hi => ?_
  rw [BitVec.getLsbD_extractLsb', e.getLsbD_word, if_neg (by omega), if_pos (by omega), Nat.add_sub_cancel_left]
  simp [hi]

theorem CodeEntry.word_cbits : e.word.extractLsb' 0 15 = e.cbits := by
  refine BitVec.eq_of_getLsbD_eq fun i hi => ?_
  rw [BitVec.getLsbD_extractLsb', e.getLsbD_word, if_neg (by omega), if_neg (by omega), Nat.zero_add]
  simp [hi]

/-- Bits 30:20 of a CT word read 0 (10_state.md R40). -/
theorem CodeEntry.word_high : e.word.extractLsb' 20 11 = 0#11 := by
  refine BitVec.eq_of_getLsbD_eq fun i hi => ?_
  rw [BitVec.getLsbD_extractLsb', e.getLsbD_word, if_neg (by omega), if_pos (by omega),
    BitVec.getLsbD_of_ge _ _ (by omega)]
  simp

theorem CodeEntry.word_bit15 : e.word.getLsbD 15 = false :=
  (e.getLsbD_word 15).trans (BitVec.getLsbD_of_ge _ _ (Nat.le_refl 15))

/-- The CT word as the host reads it: each field in its place, 0 elsewhere (10_state.md R40). -/
theorem CodeEntry.word_fields :
    e.word.getLsbD 31 = e.valid ∧ e.word.extractLsb' 16 4 = e.len ∧ e.word.extractLsb' 0 15 = e.cbits ∧
      e.word.extractLsb' 20 11 = 0#11 ∧ e.word.getLsbD 15 = false :=
  ⟨e.word_valid, e.word_len, e.word_cbits, e.word_high, e.word_bit15⟩

end Fields

section Rpcfg
variable (s : State)

/-- The RPCFG word is a CT word with VALID = 0 (10_state.md R28, R40). -/
theorem State.rpcfgWord_eq : s.rpcfgWord = CodeEntry.word { valid := false, len := s.rpLen, cbits := s.rpVal } := by
  simp [State.rpcfgWord, CodeEntry.word]

/-- Bits 31:20 of the RPCFG word read 0 (10_state.md R28). -/
theorem State.rpcfgWord_high : s.rpcfgWord.extractLsb' 20 12 = 0#12 := by
  refine BitVec.eq_of_getLsbD_eq fun i hi => ?_
  rw [BitVec.getLsbD_extractLsb', s.rpcfgWord_eq, CodeEntry.getLsbD_word, if_pos (by omega : 16 ≤ 20 + i),
    BitVec.getLsbD_of_ge _ _ (by omega)]
  simp

/-- The RPCFG word as the host reads it: each field in its place, 0 elsewhere (10_state.md R28). -/
theorem State.rpcfgWord_fields :
    s.rpcfgWord.extractLsb' 16 4 = s.rpLen ∧ s.rpcfgWord.extractLsb' 0 15 = s.rpVal ∧ s.rpcfgWord.getLsbD 15 = false ∧
      s.rpcfgWord.extractLsb' 20 12 = 0#12 := by
  refine ⟨?_, ?_, ?_, s.rpcfgWord_high⟩ <;> rw [s.rpcfgWord_eq]
  · exact CodeEntry.word_len _
  · exact CodeEntry.word_cbits _
  · exact CodeEntry.word_bit15 _

end Rpcfg

theorem toNat_keepLow {n : Nat} (k : Nat) (v : BitVec n) : (keepLow k v).toNat = v.toNat % 2 ^ k := by
  rw [keepLow, BitVec.toNat_ofNat]
  exact Nat.mod_eq_of_lt ((Nat.mod_le _ _).trans_lt v.isLt)

/-- With RPLEN = 0 the string RP is empty (10_state.md R28, R29). -/
theorem State.rp_eq_nil {s : State} (h : s.rpLen = 0#4) : s.rp = [] := by simp [State.rp, h]

theorem State.statusWord_of_none {s : State} (h : s.err = none) : s.statusWord = 0#32 := by
  simp [State.statusWord, State.errCode, h]

theorem State.statusWord_of_some {s : State} {f : FaultCode} (h : s.err = some f) :
    s.statusWord = f.code.setWidth 32 := by
  simp [State.statusWord, State.errCode, h]

theorem State.ctrlWord_eq (s : State) : s.ctrlWord = if s.pad then 1#32 else 0#32 := by
  cases h : s.pad <;> simp [State.ctrlWord, h]

/-- VALID and SYM of a DT word share no bit (10_state.md R42). -/
theorem DecodeEntry.word_eq (e : DecodeEntry) :
    e.word = if e.valid = true then 0x100#32 + e.sym.setWidth 32 else 0#32 := by
  have hdisjoint : 0x100#32 &&& e.sym.setWidth 32 = 0#32 := by
    refine BitVec.eq_of_getLsbD_eq fun i hi => ?_
    have hbit : (0x100#32).getLsbD i = decide (i = 8) := by interval_cases i <;> rfl
    by_cases h : i = 8 <;> simp [hbit, h]
  rw [DecodeEntry.word, BitVec.add_eq_or_of_and_eq_zero _ _ hdisjoint]

theorem CodeEntry.ofHostWord_of_zero {w : Word} (h : w.extractLsb' 16 4 = 0#4) :
    CodeEntry.ofHostWord w = CodeEntry.invalid := if_pos h

theorem CodeEntry.ofHostWord_of_ne {w : Word} (h : w.extractLsb' 16 4 ≠ 0#4) :
    CodeEntry.ofHostWord w =
      { valid := true, len := w.extractLsb' 16 4, cbits := keepLow (w.extractLsb' 16 4).toNat (w.extractLsb' 0 15) } :=
  if_neg h

/-! ## Host accesses -/

theorem HostAccess.commandWord_writeReg {r : BitVec 8} (h : r ≠ 0#8) (w : Word) :
    (HostAccess.writeReg r w).commandWord = none := if_neg h

/-- Registers 12 to 255 are reserved (10_state.md R36). -/
theorem State.readRegister_of_reserved (s : State) {r : BitVec 8} (h : 12 ≤ r.toNat) : s.readRegister r = 0#32 := by
  unfold State.readRegister
  split
  case h_12 => rfl
  all_goals omega

theorem State.writeRegister_of_reserved (s : State) {r : BitVec 8} (h : 12 ≤ r.toNat) (w : Word) :
    s.writeRegister r w = s := by
  unfold State.writeRegister
  split
  case h_7 => rfl
  all_goals omega

section Accesses
variable (s : State)

/-- A read of a register returns `readRegister` and changes nothing of the block (20_memory.md R67). -/
theorem State.reads_register (r : BitVec 8) : s.Reads (.readReg r) (s.readRegister r) := State.access_eq rfl rfl

theorem State.reads_msg (i : Nat) : s.Reads (.readMsg i) (s.hostReadMsg i) := State.access_eq rfl rfl

theorem State.reads_esByte (j : Nat) : s.Reads (.readEsByte j) (s.hostReadEsByte j) := State.access_eq rfl rfl

theorem State.reads_freq (a : Nat) : s.Reads (.readFreq a) (s.hostReadFreq a) := State.access_eq rfl rfl

theorem State.reads_ct {a : Nat} (h : a < nSym) : s.Reads (.readCt a) (s.ctAt a).word :=
  State.access_eq rfl (congrArg s.report (if_pos h))

theorem State.reads_ct_outside {a : Nat} (h : nSym ≤ a) : s.Reads (.readCt a) 0#32 :=
  State.access_eq rfl (congrArg s.report (if_neg (Nat.not_lt.mpr h)))

theorem State.reads_dt (k : Nat) : s.Reads (.readDt k) (s.hostReadDt k) := State.access_eq rfl rfl

theorem State.reads_reserved {r : BitVec 8} (h : 12 ≤ r.toNat) : s.Reads (.readReg r) 0#32 :=
  s.readRegister_of_reserved h ▸ s.reads_register r

theorem State.access_writeReg {r : BitVec 8} (h : r ≠ 0#8) (w : Word) : s.Access (.writeReg r w) (s.writeRegister r w) :=
  State.access_host (HostAccess.commandWord_writeReg h w)

theorem State.access_writeReg_reserved {r : BitVec 8} (h : 12 ≤ r.toNat) (w : Word) : s.Access (.writeReg r w) s := by
  have hne : r ≠ 0#8 := by rintro rfl; exact absurd h (by decide)
  simpa only [State.writeRegister_of_reserved s h] using s.access_writeReg hne w

theorem State.access_writeMsg {i : Nat} (h : i < s.config.msgMax.toNat) (v : Byte) :
    s.Access (.writeMsg i v) (s.setMsg i v) := State.access_eq rfl (if_pos h)

theorem State.access_writeMsg_outside {i : Nat} (h : s.config.msgMax.toNat ≤ i) (v : Byte) : s.Access (.writeMsg i v) s :=
  State.access_eq rfl (if_neg (Nat.not_lt.mpr h))

theorem State.access_writeEsByte {j : Nat} (h : j < s.config.esMax.toNat / 8) (v : Byte) :
    s.Access (.writeEsByte j v) (s.setEsByte j v) := State.access_eq rfl (if_pos h)

theorem State.access_writeEsByte_outside {j : Nat} (h : s.config.esMax.toNat / 8 ≤ j) (v : Byte) :
    s.Access (.writeEsByte j v) s := State.access_eq rfl (if_neg (Nat.not_lt.mpr h))

theorem State.access_writeFreq {a : Nat} (h : a < nSym) (w : Word) : s.Access (.writeFreq a w) (s.setFreq a w) :=
  State.access_eq rfl (if_pos h)

theorem State.access_writeFreq_outside {a : Nat} (h : nSym ≤ a) (w : Word) : s.Access (.writeFreq a w) s :=
  State.access_eq rfl (if_neg (Nat.not_lt.mpr h))

theorem State.access_writeCt {a : Nat} (h : a < nSym) (w : Word) :
    s.Access (.writeCt a w) (s.setCt a (CodeEntry.ofHostWord w)) := State.access_eq rfl (if_pos h)

theorem State.access_writeCt_outside {a : Nat} (h : nSym ≤ a) (w : Word) : s.Access (.writeCt a w) s :=
  State.access_eq rfl (if_neg (Nat.not_lt.mpr h))

end Accesses

/-! ## Reset -/

/-- The reset state has the values of 10_state.md R45, whatever the model's own two lists hold. -/
theorem resetFor_atReset (c : Config) (rest : List HostAccess) (vs : List Word) :
    State.AtReset c { State.resetFor c with script := rest, readings := vs } where
  status := rfl
  errInfo := rfl
  ctrl := rfl
  rpcfg := by
    show ((0#4).setWidth 32 <<< 16) ||| (0#15).setWidth 32 = 0#32
    decide
  msgLen := rfl
  esLen := rfl
  rdPtr := rfl
  symLim := rfl
  ncode := by
    have hcoded : State.codedSymbols { State.resetFor c with script := rest, readings := vs } = [] :=
      List.filter_eq_nil_iff.mpr fun a _ => by simp [State.ctAt, State.resetFor, CodeEntry.invalid]
    show BitVec.ofNat 32 (State.codedSymbols _).length = 0#32
    rw [hcoded]
    rfl
  msgMax := rfl
  esMax := rfl
  msg _ := rfl
  es _ := BitVec.getLsbD_zero
  freq _ := rfl
  ct _ := rfl
  dt _ := rfl

theorem resetState_atReset (s : State) : (resetState s).AtReset s.config := resetFor_atReset _ _ _

theorem State.Inv.resetFor {c : Config} (h : c.wf) : (State.resetFor c).Inv where
  config := h
  msgLen := Nat.zero_le _
  esLen := Nat.zero_le _
  rdPtr := Nat.zero_le _
  rpVal := Nat.one_pos
  errInfo _ := rfl
  msgWf := Memory.wf_nil _
  msgBelow := Memory.below_nil _
  esWf := Memory.wf_nil _
  esBelow := Memory.below_nil _
  freqWf := Memory.wf_nil _
  freqBelow := Memory.below_nil _
  ctWf := Memory.wf_nil _
  ctBelow := Memory.below_nil _
  ctCanonical _ := CodeEntry.canonical_invalid
  dtWf := Memory.wf_nil _
  dtBelow := Memory.below_nil _
  dtCanonical _ _ := rfl
  dtZero := rfl

/-! ## The invariant -/

/-- The host's script is not the block's state. -/
theorem State.Inv.withScript {s : State} (h : s.Inv) (rest : List HostAccess) : ({ s with script := rest } : State).Inv :=
  { h with }

theorem State.Inv.report {s : State} (h : s.Inv) (v : Word) : (s.report v).Inv := { h with }

theorem State.Inv.resetState {s : State} (h : s.Inv) : (resetState s).Inv := { State.Inv.resetFor h.config with }

theorem pack_inv {s : State} (h : s.Inv) : (pack s).state.Inv := packFrom_inv h

theorem padb_inv {s : State} (h : s.Inv) : (padb s).state.Inv := padLoop_inv h

theorem encodeFlow_inv {s : State} (h : s.Inv) : (encodeFlow s).state.Inv := by
  have hstart : ({ s with esLen := 0#32 } : State).Inv := { h with esLen := Nat.zero_le _ }
  have hpack := (((count_inv hstart).andThen fun _ => build_inv).andThen fun _ => serhdr_inv).andThen fun _ => pack_inv
  refine hpack.andThen fun t ht => ?_
  split
  · exact padb_inv ht
  · exact ht

theorem decodeFlow_inv {s : State} (h : s.Inv) : (decodeFlow s).state.Inv := by
  have hstart : ({ s with rdPtr := 0#32, msgLen := 0#32 } : State).Inv :=
    { h with msgLen := Nat.zero_le _, rdPtr := Nat.zero_le _ }
  exact (deshdr_inv hstart).andThen fun _ => scan_inv

/-- What an outcome that is a next state answers. -/
theorem State.Inv.of_next {s t : State} (h : s.Inv) (ht : (.next s : Host.Outcome State Fault Refusal) = .next t) :
    t.Inv := by
  cases ht
  exact h

/-- Every command keeps the invariant. -/
theorem exec_inv {i : Instr} {s t : State} (h : s.Inv) (ht : exec i s = .next t) : t.Inv := by
  cases i with
  | nop => exact h.of_next ht
  | sreset => exact h.resetState.of_next ht
  | clrerr => exact h.clearLatch.of_next ht
  | realign => exact (realign_inv h).of_next ht
  | count => exact (count_inv h).of_next ht
  | build => exact (build_inv h).of_next ht
  | serhdr => exact (serhdr_inv h).of_next ht
  | pack => exact (pack_inv h).of_next ht
  | padb => exact (padb_inv h).of_next ht
  | encode => exact (encodeFlow_inv h).of_next ht
  | deshdr => exact (deshdr_inv h).of_next ht
  | scan => exact (scan_inv h).of_next ht
  | decode => exact (decodeFlow_inv h).of_next ht

/-- A write of CMD keeps it, ignored, illegal or run. -/
theorem issueCommand_inv {w : Word} {s t : State} (h : s.Inv) (ht : issueCommand w s = .next t) : t.Inv := by
  unfold issueCommand at ht
  split at ht
  · split at ht
    · exact exec_inv h ht
    · exact (h.latch _ _).of_next ht
  · exact h.of_next ht

/-- A register write keeps it: out-of-range lengths and cursors are ignored, and RPVAL keeps its low RPLEN bits. -/
theorem State.Inv.writeRegister {s : State} (h : s.Inv) (r : BitVec 8) (w : Word) : (s.writeRegister r w).Inv := by
  unfold State.writeRegister
  split
  · exact { h with }
  · exact { h with rpVal := by rw [toNat_keepLow]; exact Nat.mod_lt _ (Nat.two_pow_pos _) }
  · split
    · next hw => exact { h with msgLen := hw }
    · exact h
  · split
    · next hw => exact { h with esLen := hw }
    · exact h
  · split
    · next hw => exact { h with rdPtr := hw }
    · exact h
  · exact { h with }
  · exact h

/-- Every host access that starts no command keeps it. -/
theorem State.Inv.hostAccess {s : State} (h : s.Inv) (a : HostAccess) : (hostAccess a s).Inv := by
  cases a with
  | writeReg r w => exact h.writeRegister r w
  | writeMsg i v =>
    rw [Machine.hostAccess, State.hostWriteMsg]
    split
    · next hi => exact h.setMsg hi v
    · exact h
  | writeEsByte j v =>
    rw [Machine.hostAccess, State.hostWriteEsByte]
    split
    · next hj => exact h.setEsByte hj v
    · exact h
  | writeFreq a w =>
    rw [Machine.hostAccess, State.hostWriteFreq]
    split
    · next ha => exact h.setFreq ha w
    · exact h
  | writeCt a w =>
    rw [Machine.hostAccess, State.hostWriteCt]
    split
    · next ha => exact h.setCt ha (CodeEntry.canonical_ofHostWord w)
    · exact h
  | writeDt k w => exact h
  | readReg r => exact h.report _
  | readMsg i => exact h.report _
  | readEsByte j => exact h.report _
  | readFreq a => exact h.report _
  | readCt a => exact h.report _
  | readDt k => exact h.report _
  | hardwareReset => exact h.resetState

/-- All that a step can do: nothing, the start of a command, or another access. -/
theorem step_cases (s : State) :
    (s.script = [] ∧ step s = .next s) ∨
      (∃ w rest, s.script = .writeReg 0#8 w :: rest ∧ step s = issueCommand w { s with script := rest }) ∨
      ∃ a rest, s.script = a :: rest ∧ a.commandWord = none ∧ step s = .next (hostAccess a { s with script := rest }) := by
  cases hs : s.script with
  | nil => exact .inl ⟨rfl, step_idle hs⟩
  | cons a rest =>
    cases ha : a.commandWord with
    | none => exact .inr (.inr ⟨a, rest, rfl, ha, step_access hs ha⟩)
    | some w =>
      obtain rfl := HostAccess.commandWord_eq_some.mp ha
      exact .inr (.inl ⟨w, rest, rfl, step_command hs⟩)

/-! ## The obligations -/

/-- Settles O58: the store operations keep the invariant, so every command, every other access and the idle step do. -/
theorem stepKeepsTheInvariant : Obligations.StepKeepsTheInvariant := by
  intro s t h ht
  rcases step_cases s with ⟨-, he⟩ | ⟨w, rest, -, he⟩ | ⟨a, rest, -, -, he⟩
  · exact h.of_next (he ▸ ht)
  · exact issueCommand_inv (h.withScript rest) (he ▸ ht)
  · exact ((h.withScript rest).hostAccess a).of_next (he ▸ ht)

/-- Settles O11: the write masks RPVAL with `keepLow`, and the word read back has the two fields and zeros. -/
theorem rpcfgWriteIsMasked : Obligations.RpcfgWriteIsMasked := by
  intro s w
  obtain ⟨hlen, hval, hbit15, hhigh⟩ := (s.writeRegister 4#8 w).rpcfgWord_fields
  exact ⟨_, _, s.access_writeReg (by decide) w, rfl, toNat_keepLow _ _, State.reads_register _ _, hlen, hval, hbit15, hhigh,
    fun h => State.rp_eq_nil h⟩

/-- Settles O15: in range the access is the write of one element, out of range it leaves the state. -/
theorem hostStoreWrites : Obligations.HostStoreWrites := by
  intro s
  refine ⟨fun i v h => ?msg, fun i v => (s.access_writeMsg_outside · v), fun j v h => ?es,
    fun j v => (s.access_writeEsByte_outside · v), fun a w h => ?freq,
    fun a w h => ⟨s.access_writeFreq_outside h w, s.access_writeCt_outside h w⟩, fun k w => State.access_eq rfl rfl⟩
  case msg =>
    exact ⟨_, s.access_writeMsg h v, rfl, by simp [State.msgAt_setMsg], fun j hj => by simp [State.msgAt_setMsg, hj]⟩
  case es =>
    exact ⟨_, s.access_writeEsByte h v, rfl, by simp [State.esByte_setEsByte],
      fun k hk => by simp [State.esByte_setEsByte, hk]⟩
  case freq =>
    exact ⟨_, s.access_writeFreq h w, rfl, by simp [State.freqAt_setFreq], fun b hb => by simp [State.freqAt_setFreq, hb]⟩

/-- Settles O17: the entry written is `CodeEntry.ofHostWord`, the word read is `CodeEntry.word`. -/
theorem ctHostAccess : Obligations.CtHostAccess := by
  intro s a w ha
  refine ⟨⟨_, s.access_writeCt ha w, rfl, fun b hb => ?_, fun h0 => ?_, fun h0 => ?_⟩,
    _, s.reads_ct ha, CodeEntry.word_fields _⟩
  · rw [State.ctAt_setCt, if_neg hb]
  · rw [State.ctAt_setCt, if_pos rfl, CodeEntry.ofHostWord_of_zero h0]
    rfl
  · rw [State.ctAt_setCt, if_pos rfl, CodeEntry.ofHostWord_of_ne h0]
    exact ⟨rfl, rfl, toNat_keepLow _ _⟩

/-- Settles O3: the word that passes the latch is issued, and decoding it gives the command. -/
theorem stepRunsDecodedCommand : Obligations.StepRunsDecodedCommand := by
  refine ⟨fun s w i rest hs hd h => ?_, fun s i h => ?_, fun s a rest => step_access, fun s => step_idle⟩
  · rw [step_command hs]
    exact issueCommand_runs (acceptsCommand_of_decode hd h) hd
  · rw [State.withFetchWord_encode, step_command_next]
    exact issueCommand_runs (acceptsCommand_of_decode (decode_encode i) (.inl h)) (decode_encode i)

/-- Settles O8: both resets are `resetState`. -/
theorem resetStateValues : Obligations.ResetStateValues := by
  refine ⟨fun c => resetFor_atReset c [] [], resetFor_atReset _ [] [], fun s t h => ?_, fun s t rest hs h => ?_⟩
  · cases h
    exact resetState_atReset s
  · rw [step_access hs rfl] at h
    cases h
    exact resetState_atReset { s with script := rest }

/-- Settles O12: each is the arm of `writeRegister` of that number. -/
theorem operandRegisterWrites : Obligations.OperandRegisterWrites := by
  intro s w
  refine ⟨?_, ?_, ?_, ?_, ?_⟩ <;> exact s.access_writeReg (by decide) w

/-- Settles O13: `readRegister` and `writeRegister` have no arm for these numbers. -/
theorem reservedAndReadOnlyRegisters : Obligations.ReservedAndReadOnlyRegisters := by
  refine ⟨fun s r w h => ⟨s.reads_reserved h, s.access_writeReg_reserved h w⟩, fun s w => ?_⟩
  refine ⟨?_, ?_, ?_, ?_, ?_⟩ <;> exact s.access_writeReg (by decide) w

/-- Settles O14: what a read returns is the word of the register or of the element. -/
theorem hostReadsReturnTheState : Obligations.HostReadsReturnTheState := by
  intro s
  refine ⟨s.reads_register _, ?status, s.reads_register _, ?ctrl, ?rpcfg, s.reads_register _, s.reads_register _,
    s.reads_register _, s.reads_register _, s.reads_register _, s.reads_register _, s.reads_register _,
    fun r => s.reads_reserved, s.reads_msg, s.reads_esByte, s.reads_freq, fun a ha => ?ct, fun a => s.reads_ct_outside,
    fun k => ?dt⟩
  case status =>
    have hread : s.Reads (.readReg 1#8) s.statusWord := s.reads_register _
    cases h : s.err with
    | none => rwa [State.statusWord_of_none h] at hread
    | some f => rwa [State.statusWord_of_some h] at hread
  case ctrl => exact s.ctrlWord_eq ▸ s.reads_register 3#8
  case rpcfg => exact ⟨_, s.reads_register _, s.rpcfgWord_fields⟩
  case ct => exact ⟨_, s.reads_ct ha, CodeEntry.word_fields _⟩
  case dt =>
    have hread := s.reads_dt k
    rwa [State.hostReadDt, DecodeEntry.word_eq, ← ite_and] at hread

/-- Settles O59: at reset the registers are 0 and the stores are empty. -/
theorem resetMeetsTheInvariant : Obligations.ResetMeetsTheInvariant :=
  ⟨fun _ => State.Inv.resetFor, State.Inv.resetFor (by decide)⟩

end Sys2Proof.Machine
end

section
/-! PROOFS. The family 20_memory.md: the bytes and the bits of ES are one store. -/

namespace Sys2Proof.Machine

/-! ## Bytes as runs of bits -/

/-- Bit `k` of a bit string, first bit first (00_scope.md R9). -/
theorem getElem_bitsOf (n v k : Nat) (h : k < (bitsOf n v).length) : (bitsOf n v)[k] = v.testBit (n - 1 - k) := by
  induction n generalizing k with
  | zero => simp at h
  | succ n ih =>
    cases k with
    | zero => rfl
    | succ k =>
      rw [length_bitsOf] at h
      simp only [bitsOf, List.getElem_cons_succ]
      rw [ih, show n + 1 - 1 - (k + 1) = n - 1 - k by omega]

/-- The bits of a byte (20_memory.md R62, R64). -/
theorem State.esBit_of_byte (s : State) (j : Nat) {k : Nat} (h : k < 8) :
    s.esBit (8 * j + k) = (s.esByte j).getLsbD (7 - k) := by
  rw [State.esBit, show (8 * j + k) / 8 = j by omega, show (8 * j + k) % 8 = k by omega]

/-- A byte, first bit first, is the run of its eight bits. -/
theorem State.esBits_of_byte (s : State) (j : Nat) : s.esBits (8 * j) 8 = bitsOf 8 (s.esByte j).toNat := by
  refine List.ext_getElem (by simp) fun k hk hk' => ?_
  rw [State.length_esBits] at hk
  rw [State.getElem_esBits, s.esBit_of_byte j hk, getElem_bitsOf]
  rfl

theorem State.toNat_esByte (s : State) (j : Nat) : (s.esByte j).toNat = val (s.esBits (8 * j) 8) := by
  rw [State.esBits_of_byte, val_bitsOf (s.esByte j).isLt]

/-- A byte is the one whose eight bits are known. -/
theorem State.esByte_of_esBits {s : State} {j : Nat} {v : Byte} (h : s.esBits (8 * j) 8 = bitsOf 8 v.toNat) :
    s.esByte j = v :=
  BitVec.eq_of_toNat_eq (by rw [State.toNat_esByte, h, val_bitsOf v.isLt])

/-- The eight bits of the byte written, and every other bit. -/
theorem State.esBit_setEsByte (s : State) (j p : Nat) (v : Byte) :
    (s.setEsByte j v).esBit p = if p / 8 = j then v.getLsbD (7 - p % 8) else s.esBit p := by
  rw [State.esBit, State.esByte_setEsByte]
  split <;> rfl

/-! ## The obligation -/

/-- Settles O16: a byte is the run of its eight bits, and a write of a byte or of a bit is read back bit by bit. -/
theorem esBytesAndBitsAreOneStore : Obligations.EsBytesAndBitsAreOneStore := by
  intro s
  refine ⟨fun p => rfl, s.toNat_esByte, fun j v hj => ⟨_, s.access_writeEsByte hj v, fun k hk => ?host, fun p hp => ?frame⟩,
    fun p b j k hk => ?engine, fun h => ?twoBytes⟩
  case host => rw [State.esBit_of_byte _ j hk, State.esByte_setEsByte, if_pos rfl]
  case frame => rw [State.esBit_setEsByte, if_neg hp]
  case engine => rw [← State.esBit_of_byte _ j hk, ← State.esBit_of_byte _ j hk, State.esBit_setEsBit]
  case twoBytes =>
    have hbytes : s.esBits 0 8 ++ s.esBits 8 8 = bitsOf 8 (0x00#8).toNat ++ bitsOf 8 (0x29#8).toNat :=
      (s.esBits_add 0 8 8).symm.trans h
    obtain ⟨hfirst, hsecond⟩ := List.append_inj hbytes (by simp)
    exact ⟨State.esByte_of_esBits hfirst, State.esByte_of_esBits hsecond⟩

end Sys2Proof.Machine
end

section
/-! PROOFS. The family 30_encoding.md: the command words and what an illegal one does, what the pseudo-instructions load, the
stream ENCODE makes, and the frames of the commands. -/

namespace Sys2Proof.Machine

/-! ## Command words -/

theorem exists_row_of_opcode : ∀ n < 13, ∃ r ∈ opcodeMap, r.instr.opcode = n := by decide

theorem toNat_encode (i : Instr) : (encode i).toNat = i.opcode := by
  obtain ⟨-, -, hopcode, -, -⟩ := Laws.Encoding.holds i
  exact hopcode

theorem commandWordWellFormed_iff {w : Word} :
    commandWordWellFormed w = true ↔ w.extractLsb' 8 24 = 0#24 ∧ (w.extractLsb' 0 8).toNat < 13 := by
  simp [commandWordWellFormed, zeroFieldClear, opcodeAssigned]

/-- A word with bits 31:8 zero and an opcode of the map is the word of the command of that row (30_encoding.md R90, R92). -/
theorem exists_encode_eq {w : Word} (h : commandWordWellFormed w = true) : ∃ i, encode i = w := by
  obtain ⟨hzero, hopcode⟩ := commandWordWellFormed_iff.mp h
  obtain ⟨r, -, hr⟩ := exists_row_of_opcode _ hopcode
  refine ⟨r.instr, BitVec.eq_of_toNat_eq ?_⟩
  have hhigh : (w.extractLsb' 8 24).toNat = 0 := by rw [hzero]; rfl
  rw [toNat_encode, hr]
  simp only [BitVec.extractLsb'_toNat, Nat.shiftRight_eq_div_pow] at hhigh ⊢
  omega

/-- A word is illegal exactly when it is not well formed (30_encoding.md R91). -/
theorem decode_error_iff {w : Word} : (∃ r, decode w = .error r) ↔ ¬ commandWordWellFormed w = true := by
  cases hd : decode w with
  | ok i =>
    obtain ⟨-, hwf, -⟩ := Laws.Encoding.holds i
    rw [encode_of_decode hd] at hwf
    simp [hwf]
  | error r =>
    refine ⟨fun _ hwf => ?_, fun _ => ⟨r, rfl⟩⟩
    obtain ⟨i, rfl⟩ := exists_encode_eq hwf
    rw [decode_encode] at hd
    cases hd

theorem illegal_iff {w : Word} :
    (w.extractLsb' 8 24 ≠ 0#24 ∨ 13 ≤ (w.extractLsb' 0 8).toNat) ↔ ∃ r, decode w = .error r := by
  rw [decode_error_iff, commandWordWellFormed_iff, not_and_or, Nat.not_lt]

/-- Settles O2: decoding inverts encoding both ways, so the illegal words are those that no command encodes to. -/
theorem decodeAndEncodeAgree : Obligations.DecodeAndEncodeAgree := by
  refine ⟨fun i => ⟨?wellFormed, decode_encode i⟩, fun w i => encode_of_decode, fun w => illegal_iff, fun r hr => ?row⟩
  case wellFormed =>
    obtain ⟨hwf, -⟩ := Laws.Encoding.holds i
    exact hwf
  case row =>
    obtain ⟨hmask, hword⟩ := opcodeMap_rows r hr
    exact ⟨hmask, hword, hword ▸ toNat_encode r.instr⟩

/-- Settles O1: the words of the map are the encodings of their commands, the others are given with their reasons. -/
theorem opcodeMapWordsDecode : Obligations.OpcodeMapWordsDecode := by
  refine ⟨decode_encode .nop, decode_encode .sreset, decode_encode .clrerr, decode_encode .realign, decode_encode .count,
    decode_encode .build, decode_encode .serhdr, decode_encode .pack, decode_encode .padb, decode_encode .encode,
    decode_encode .deshdr, decode_encode .scan, decode_encode .decode, ?_⟩
  decide

/-! ## Illegal words -/

/-- A command always answers a next state (log entry 13). -/
theorem exec_next (i : Instr) (s : State) : ∃ t, exec i s = .next t := by
  cases i <;> exact ⟨_, rfl⟩

theorem issueCommand_next (w : Word) (s : State) : ∃ t, issueCommand w s = .next t := by
  unfold issueCommand
  split
  · split
    · exact exec_next _ s
    · exact ⟨_, rfl⟩
  · exact ⟨_, rfl⟩

/-- An illegal word is not SRESET's or CLRERR's, so the latch ignores it (60_exceptions.md R284). -/
theorem issueCommand_illegal_ignored {w : Word} {s : State} {r : IllegalWord} (hd : decode w = .error r) (h : s.err ≠ none) :
    issueCommand w s = .next s := by
  refine issueCommand_ignored h ?_ ?_ <;> rintro rfl
  · exact absurd ((decode_encode .sreset).symm.trans hd) nofun
  · exact absurd ((decode_encode .clrerr).symm.trans hd) nofun

/-- What a write of an illegal word to CMD leads to (30_encoding.md R94). -/
theorem State.access_illegal (s : State) {w : Word} {r : IllegalWord} (hd : decode w = .error r) :
    s.Access (.writeReg 0#8 w) (if s.err = none then s.latch .illegalCommand w else s) := by
  intro rest
  rw [step_command_next]
  split
  · next h => exact issueCommand_illegal (s := { s with script := rest }) h hd
  · next h => exact issueCommand_illegal_ignored (s := { s with script := rest }) hd h

/-- A state in which every command but NOP and CLRERR changes something: two symbols, one stream bit, empty tables. -/
def changeable : State := { State.reset with msgLen := 2#32, esLen := 1#32 }

theorem changeable_inv : changeable.Inv :=
  { State.Inv.resetFor (c := Config.examples) (by decide) with
    msgLen := by decide
    esLen := by decide }

theorem nop_or_clrerr_of_unchanged {i : Instr} (h : exec i changeable = .next changeable) : i = .nop ∨ i = .clrerr := by
  have changes {r : CommandResult} (hr : r.state ≠ changeable) (he : r.outcome = .next changeable) : False :=
    hr (Host.Outcome.next.inj he)
  cases i with
  | nop => exact .inl rfl
  | clrerr => exact .inr rfl
  | sreset => cases h
  | _ => exact (changes (by decide) h).elim

/-- If a write of a command's word leaves a state that lets it pass, so does the command. -/
theorem exec_of_access_unchanged {s : State} {w : Word} {i : Instr} (hd : decode w = .ok i)
    (hpass : s.err = none ∨ i = .sreset ∨ i = .clrerr) (h : s.Access (.writeReg 0#8 w) s) : exec i s = .next s := by
  have hrun := h s.script
  rwa [step_command_next, issueCommand_runs (acceptsCommand_of_decode hd hpass) hd] at hrun

/-- Only NOP's word changes nothing in every state of the invariant (30_encoding.md R94). -/
theorem eq_encode_nop_of_unchanged {w : Word} (h : ∀ s : State, s.Inv → s.Access (.writeReg 0#8 w) s) :
    w = encode .nop := by
  cases hd : decode w with
  | error r =>
    have hsame := State.access_unique (changeable.access_illegal hd) (h _ changeable_inv)
    exact absurd (congrArg State.err hsame) nofun
  | ok i =>
    rcases nop_or_clrerr_of_unchanged (exec_of_access_unchanged hd (.inl rfl) (h _ changeable_inv)) with rfl | rfl
    · exact (encode_of_decode hd).symm
    · have hlatched := exec_of_access_unchanged hd (.inr (.inr rfl)) (h _ (changeable_inv.latch .capacity 0#32))
      cases hlatched

/-- Settles O4: an illegal word latches its fault or is ignored; each other command changes `changeable`, or, for CLRERR,
that state with a fault latched; and a command always answers a next state. -/
theorem illegalWordRaisesIllegalCommand : Obligations.IllegalWordRaisesIllegalCommand := by
  refine ⟨fun s w hw => ?_, rfl, fun w => eq_encode_nop_of_unchanged, fun s w rest => issueCommand_next w _⟩
  obtain ⟨r, hd⟩ := illegal_iff.mp hw
  exact s.access_illegal hd

/-! ## What the pseudo-instructions load -/

/-- The state after the accesses `as`, none of which starts a command. -/
def afterAccesses (as : List HostAccess) (s : State) : State := as.foldl (fun t a => hostAccess a t) s

theorem afterAccesses_append (as bs : List HostAccess) (s : State) :
    afterAccesses (as ++ bs) s = afterAccesses bs (afterAccesses as s) := List.foldl_append

/-- A script of accesses that start no command makes them one after the other (30_encoding.md R124). -/
theorem run_accesses {as : List HostAccess} (h : ∀ a ∈ as, a.commandWord = none) (s : State) (rest : List HostAccess) :
    run as.length { s with script := as ++ rest } = .next { afterAccesses as s with script := rest } := by
  induction as generalizing s with
  | nil => rfl
  | cons a as ih =>
    have hstep := step_access_next s (as ++ rest) (h a (List.mem_cons_self ..))
    rw [hostAccess_script] at hstep
    rw [List.length_cons, List.cons_append, run, hstep]
    exact ih (fun b hb => h b (List.mem_cons_of_mem _ hb)) (hostAccess a s)

/-- The elements `vs` written from index `k` on. -/
def Memory.writeAll {α : Type} [DecidableEq α] (d : α) : List α → Nat → List (Nat × α) → List (Nat × α)
  | [], _, m => m
  | v :: vs, k, m => Memory.writeAll d vs (k + 1) (Memory.write d m k v)

theorem Memory.read_writeAll {α : Type} [DecidableEq α] (d : α) (vs : List α) (k : Nat) (m : List (Nat × α)) (i : Nat) :
    Memory.read d (Memory.writeAll d vs k m) i =
      if k ≤ i then (vs[i - k]?).getD (Memory.read d m i) else Memory.read d m i := by
  induction vs generalizing k m with
  | nil => simp [Memory.writeAll]
  | cons v vs ih =>
    rw [Memory.writeAll, ih, Memory.read_write]
    rcases Nat.lt_trichotomy i k with hi | rfl | hi
    · rw [if_neg (by omega), if_neg (by omega), if_neg (by omega)]
    · simp
    · have hindex : i - k = (i - (k + 1)) + 1 := by omega
      rw [if_pos (by omega), if_neg (by omega), if_pos (by omega), hindex, List.getElem?_cons_succ]

/-- WRS of symbols in range. -/
theorem afterAccesses_writeMsg (vs : List Byte) (k : Nat) (s : State) (h : k + vs.length ≤ s.config.msgMax.toNat) :
    afterAccesses ((vs.zipIdx k).map (fun p => .writeMsg p.2 p.1)) s =
      { s with msg := Memory.writeAll 0#8 vs k s.msg } := by
  induction vs generalizing k s with
  | nil => rfl
  | cons v vs ih =>
    rw [List.length_cons] at h
    show afterAccesses _ (s.hostWriteMsg k v) = _
    rw [State.hostWriteMsg, if_pos (by omega), ih (k + 1) (s.setMsg k v) (by rw [State.setMsg_config]; omega)]
    rfl

/-- WRS of stream bytes in range. -/
theorem afterAccesses_writeEsByte (vs : List Byte) (k : Nat) (s : State) (h : k + vs.length ≤ s.config.esMax.toNat / 8) :
    afterAccesses ((vs.zipIdx k).map (fun p => .writeEsByte p.2 p.1)) s =
      { s with es := Memory.writeAll 0#8 vs k s.es } := by
  induction vs generalizing k s with
  | nil => rfl
  | cons v vs ih =>
    rw [List.length_cons] at h
    show afterAccesses _ (s.hostWriteEsByte k v) = _
    rw [State.hostWriteEsByte, if_pos (by omega), ih (k + 1) (s.setEsByte k v) (by rw [State.setEsByte_config]; omega)]
    rfl

/-- WR of a length in range. -/
theorem afterAccesses_msgLen {s : State} {n : Nat} (h : n ≤ s.config.msgMax.toNat) :
    afterAccesses [.writeReg Script.regMsgLen (BitVec.ofNat 32 n)] s = { s with msgLen := BitVec.ofNat 32 n } := by
  refine if_pos ?_
  rw [BitVec.toNat_ofNat]
  exact (Nat.mod_le _ _).trans h

theorem afterAccesses_esLen {s : State} {n : Nat} (h : n ≤ s.config.esMax.toNat) :
    afterAccesses [.writeReg Script.regEsLen (BitVec.ofNat 32 n)] s = { s with esLen := BitVec.ofNat 32 n } := by
  refine if_pos ?_
  rw [BitVec.toNat_ofNat]
  exact (Nat.mod_le _ _).trans h

/-- What MSGSYM leaves (30_encoding.md R125). -/
theorem afterAccesses_msgSym {vs : List Byte} {s : State} (h : vs.length ≤ s.config.msgMax.toNat) :
    afterAccesses (Script.msgSym vs) s =
      { s with msg := Memory.writeAll 0#8 vs 0 s.msg, msgLen := BitVec.ofNat 32 vs.length } := by
  rw [Script.msgSym, afterAccesses_append, afterAccesses_writeMsg vs 0 s (by omega)]
  exact afterAccesses_msgLen h

/-- What ESBYTES leaves (30_encoding.md R125). -/
theorem afterAccesses_esBytes {bs : List Byte} {s : State} (h : 8 * bs.length ≤ s.config.esMax.toNat) :
    afterAccesses (Script.esBytes bs) s =
      { s with es := Memory.writeAll 0#8 bs 0 s.es, esLen := BitVec.ofNat 32 (8 * bs.length) } := by
  rw [Script.esBytes, afterAccesses_append, afterAccesses_writeEsByte bs 0 s (by omega)]
  exact afterAccesses_esLen h

/-- The bytes ESBITS writes: the string zero-filled to whole bytes (30_encoding.md R125). -/
def bytesOfBits (b : Bits) : List Byte := (List.range ((b.length + 7) / 8)).map (Script.byteOfBits b)

theorem length_bytesOfBits (b : Bits) : (bytesOfBits b).length = (b.length + 7) / 8 := by simp [bytesOfBits]

/-- What ESBITS leaves (30_encoding.md R125). -/
theorem afterAccesses_esBits {b : Bits} {s : State} (h8 : s.config.esMax.toNat % 8 = 0)
    (h : b.length ≤ s.config.esMax.toNat) :
    afterAccesses (Script.esBits b) s =
      { s with es := Memory.writeAll 0#8 (bytesOfBits b) 0 s.es, esLen := BitVec.ofNat 32 b.length } := by
  have hbytes := afterAccesses_esBytes (bs := bytesOfBits b) (s := s) (by rw [length_bytesOfBits]; omega)
  rw [bytesOfBits] at hbytes
  rw [Script.esBits, afterAccesses_append, hbytes]
  exact afterAccesses_esLen h

theorem msgSym_commandWord {vs : List Byte} {a : HostAccess} (h : a ∈ Script.msgSym vs) : a.commandWord = none := by
  rcases List.mem_append.mp h with h | h
  · obtain ⟨p, -, rfl⟩ := List.mem_map.mp h
    rfl
  · rw [List.mem_singleton.mp h]
    rfl

theorem esBytes_commandWord {bs : List Byte} {a : HostAccess} (h : a ∈ Script.esBytes bs) : a.commandWord = none := by
  rcases List.mem_append.mp h with h | h
  · obtain ⟨p, -, rfl⟩ := List.mem_map.mp h
    rfl
  · rw [List.mem_singleton.mp h]
    rfl

theorem esBits_commandWord {b : Bits} {a : HostAccess} (h : a ∈ Script.esBits b) : a.commandWord = none := by
  rcases List.mem_append.mp h with h | h
  · exact esBytes_commandWord h
  · rw [List.mem_singleton.mp h]
    rfl

/-- Bit `k` of byte `j` of a zero-filled string (20_memory.md R62). -/
theorem getLsbD_byteOfBits (b : Bits) (j : Nat) {k : Nat} (hk : k < 8) :
    (Script.byteOfBits b j).getLsbD (7 - k) = (b[8 * j + k]?).getD false := by
  have hbits := bitsOf_eq_of_val (n := 8) (b := (List.range 8).map (fun k => (b[8 * j + k]?).getD false)) (by simp)
  have hbit := congrArg (·[k]?) hbits
  simp only [List.getElem?_map, List.getElem?_range hk, List.getElem?_eq_getElem (by simpa using hk : k < (bitsOf 8 _).length),
    getElem_bitsOf, Option.map_some, Option.some.injEq] at hbit
  rw [Script.byteOfBits, BitVec.getLsbD_ofNat, hbit, decide_eq_true (by omega), Bool.true_and]

/-- Writing the bytes of a string writes the string and its zero fill, bit by bit. -/
theorem esBit_writeAll_bytesOfBits {b : Bits} {s t : State} (h : t.es = Memory.writeAll 0#8 (bytesOfBits b) 0 s.es)
    (p : Nat) : t.esBit p = if p / 8 < (b.length + 7) / 8 then (b[p]?).getD false else s.esBit p := by
  have hbyte : t.esByte (p / 8) = ((bytesOfBits b)[p / 8]?).getD (s.esByte (p / 8)) := by
    rw [State.esByte, h, Memory.read_writeAll, if_pos (Nat.zero_le _), Nat.sub_zero]
    rfl
  rw [State.esBit, hbyte]
  split
  · next hp =>
    rw [bytesOfBits, List.getElem?_map, List.getElem?_range hp, Option.map_some, Option.getD_some,
      getLsbD_byteOfBits b _ (by omega), Nat.div_add_mod]
  · next hp =>
    rw [List.getElem?_eq_none (by rw [length_bytesOfBits]; omega), Option.getD_none]
    rfl

/-- The length and the value of a string of at most 15 bits in their fields (30_encoding.md R125). -/
theorem codeWord_eq {b : Bits} (h : b.length ≤ 15) :
    Script.codeWord b =
      CodeEntry.word { valid := false, len := BitVec.ofNat 4 b.length, cbits := BitVec.ofNat 15 (val b) } := by
  have hlen : BitVec.ofNat 32 b.length = (BitVec.ofNat 4 b.length).setWidth 32 := BitVec.eq_of_toNat_eq (by simp; omega)
  have hval : val b < 2 ^ 15 := (val_lt b).trans_le (Nat.pow_le_pow_right (by decide) h)
  have hcbits : BitVec.ofNat 32 (val b) = (BitVec.ofNat 15 (val b)).setWidth 32 := BitVec.eq_of_toNat_eq (by simp; omega)
  simp [Script.codeWord, CodeEntry.word, hlen, hcbits]

theorem codeWord_len {b : Bits} (h : b.length ≤ 15) : (Script.codeWord b).extractLsb' 16 4 = BitVec.ofNat 4 b.length := by
  rw [codeWord_eq h, CodeEntry.word_len]

/-- Masking the value of a string to the string's length changes nothing (10_state.md R28, R41). -/
theorem codeWord_cbits {b : Bits} (h : b.length ≤ 15) :
    keepLow ((Script.codeWord b).extractLsb' 16 4).toNat ((Script.codeWord b).extractLsb' 0 15) =
      BitVec.ofNat 15 (val b) := by
  have hval : val b < 2 ^ 15 := (val_lt b).trans_le (Nat.pow_le_pow_right (by decide) h)
  have hlen : (BitVec.ofNat 4 b.length).toNat = b.length := by simp; omega
  rw [codeWord_len h, codeWord_eq h, CodeEntry.word_cbits, keepLow, hlen, BitVec.toNat_ofNat, Nat.mod_eq_of_lt hval,
    Nat.mod_eq_of_lt (val_lt b)]

/-- SETRP makes the string RP (10_state.md R29). -/
theorem rp_setRp (s : State) {b : Bits} (h : b.length ≤ 15) :
    (s.writeRegister Script.regRpcfg (Script.codeWord b)).rp = b := by
  have hval : val b < 2 ^ 15 := (val_lt b).trans_le (Nat.pow_le_pow_right (by decide) h)
  show bitsOf ((Script.codeWord b).extractLsb' 16 4).toNat
    (keepLow ((Script.codeWord b).extractLsb' 16 4).toNat ((Script.codeWord b).extractLsb' 0 15)).toNat = b
  rw [codeWord_cbits h, codeWord_len h, BitVec.toNat_ofNat, BitVec.toNat_ofNat, Nat.mod_eq_of_lt hval,
    Nat.mod_eq_of_lt (by omega), bitsOf_val]

/-- SETCODE makes the entry BUILD would make of the code (10_state.md R41, 41_tree_builder.md R161). -/
theorem ofHostWord_codeWord {b : Bits} (hb : b ≠ []) (h : b.length ≤ 15) :
    CodeEntry.ofHostWord (Script.codeWord b) = CodeEntry.ofCode b := by
  have hpos := List.length_pos_iff.mpr hb
  have hne : (Script.codeWord b).extractLsb' 16 4 ≠ 0#4 := by
    rw [codeWord_len h]
    intro h0
    have hzero := congrArg BitVec.toNat h0
    simp only [BitVec.toNat_ofNat] at hzero
    omega
  rw [CodeEntry.ofHostWord_of_ne hne, codeWord_cbits h, codeWord_len h]
  rfl

/-- Settles O18: the scripts write the elements and the length one access after the other; the single accesses write the
fields of the word `codeWord`. -/
theorem pseudoInstructionsLoadTheirOperands : Obligations.PseudoInstructionsLoadTheirOperands := by
  intro s
  refine ⟨fun vs h => ?msgsym, fun b h8 h => ?esbits, fun b h => ?setrp, fun a b ha hb h => ?setcode, fun a ha => ?clrcode⟩
  case msgsym =>
    have hrun := run_accesses (fun a => msgSym_commandWord (vs := vs) (a := a)) s s.script
    rw [afterAccesses_msgSym h] at hrun
    have hread (i : Nat) : Memory.read 0#8 (Memory.writeAll 0#8 vs 0 s.msg) i = (vs[i]?).getD (s.msgAt i) := by
      rw [Memory.read_writeAll, if_pos (Nat.zero_le i), Nat.sub_zero]
      rfl
    have hlen : (BitVec.ofNat 32 vs.length).toNat = vs.length := by
      rw [BitVec.toNat_ofNat, Nat.mod_eq_of_lt (h.trans_lt s.config.msgMax.isLt)]
    refine ⟨_, hrun, rfl, ?_, fun i hi => ?_⟩
    · refine List.ext_getElem (by simp [hlen]) fun i hi hi' => ?_
      simp [State.message, State.msgAt, hread, hi']
    · simp [State.msgAt, hread, hi]
  case esbits =>
    have hrun := run_accesses (fun a => esBits_commandWord (b := b) (a := a)) s s.script
    rw [afterAccesses_esBits h8 h] at hrun
    have hlen : (BitVec.ofNat 32 b.length).toNat = b.length := by
      rw [BitVec.toNat_ofNat, Nat.mod_eq_of_lt (h.trans_lt s.config.esMax.isLt)]
    refine ⟨_, hrun, rfl, ?_, fun p hp => ?_⟩
    · refine List.ext_getElem (by simp [State.stream, hlen]) fun i hi hi' => ?_
      simp only [State.stream, State.getElem_esBits, Nat.zero_add]
      rw [esBit_writeAll_bytesOfBits (s := s) rfl, if_pos (by omega), List.getElem?_eq_getElem hi', Option.getD_some]
    · rw [esBit_writeAll_bytesOfBits (s := s) rfl, if_neg (by omega)]
  case setrp => exact ⟨_, s.access_writeReg (by decide) _, rfl, rp_setRp s h⟩
  case setcode =>
    refine ⟨_, s.access_writeCt ha _, rfl, ?_, ?_, fun c hc => ?_⟩
    · rw [State.ctAt_setCt, if_pos rfl, ofHostWord_codeWord hb h]
      rfl
    · rw [State.ctAt_setCt, if_pos rfl, ofHostWord_codeWord hb h, CodeEntry.code_ofCode h]
    · rw [State.ctAt_setCt, if_neg hc]
  case clrcode =>
    refine ⟨_, s.access_writeCt ha _, rfl, ?_, fun c hc => ?_⟩
    · rw [State.ctAt_setCt, if_pos rfl, CodeEntry.ofHostWord_of_zero (by decide)]
    · rw [State.ctAt_setCt, if_neg hc]

/-! ## The stream of ENCODE -/

/-- Settles O46: the lines of an ENCODE without fault append the header, the codes and the padding. -/
theorem encodeProducesTheStream : Obligations.EncodeProducesTheStream := by
  intro s t hx _ ht
  obtain ⟨s1, s2, s3, s4, hrun⟩ := encodeRun_of_exec hx ht
  obtain ⟨-, hstream, hvalid⟩ := hrun.stream
  rw [State.header_eq_headerOf] at hstream
  exact ⟨t.canonicalOrder, t.isCanonicalOrder, hvalid, hstream⟩

end Sys2Proof.Machine
end
section
/-! PROOFS. The frames of the commands (30_encoding.md R93): what each can leave, whether it ends or raises. -/

namespace Sys2Proof.Machine

/-! ## Ended or raised -/

/-- Every write made before a raise stays, so a result says what was written: it ended in a state of `Q`, or latched a fault
over one (00_scope.md R12). -/
def CommandResult.Leaves (r : CommandResult) (Q : State → Prop) : Prop :=
  ∃ u, Q u ∧ (r = .ended u ∨ ∃ f info, r = .raised (u.latch f info))

section Leaves
variable {P Q : State → Prop} {s t : State} {r : CommandResult}

theorem CommandResult.Leaves.ended (h : Q s) : (CommandResult.ended s).Leaves Q := ⟨s, h, .inl rfl⟩

theorem CommandResult.Leaves.raised (h : Q s) (f : FaultCode) (info : Word) : (raise f info s).Leaves Q :=
  ⟨s, h, .inr ⟨f, info, rfl⟩⟩

theorem CommandResult.Leaves.mono (h : r.Leaves P) (hPQ : ∀ u, P u → Q u) : r.Leaves Q := by
  obtain ⟨u, hu, hr⟩ := h
  exact ⟨u, hPQ u hu, hr⟩

/-- What the first line leaves stays if it raises, and is what the second line starts from if not. -/
theorem CommandResult.Leaves.andThen {next : State → CommandResult} (h : r.Leaves P) (hPQ : ∀ u, P u → Q u)
    (hnext : ∀ u, P u → (next u).Leaves Q) : (r.andThen next).Leaves Q := by
  obtain ⟨u, hu, rfl | ⟨f, info, rfl⟩⟩ := h
  · exact hnext u hu
  · exact .raised (hPQ u hu) f info

/-- The next state of a command differs from one of `Q` at most in the latch, and in ERRINFO only with a fault. -/
theorem CommandResult.Leaves.next (h : r.Leaves Q) (ht : r.outcome = .next t) :
    ∃ u, Q u ∧ t = { u with err := t.err, errInfo := t.errInfo } ∧ (t.err = none → t.errInfo = u.errInfo) := by
  obtain ⟨u, hu, rfl | ⟨f, info, rfl⟩⟩ := h <;> cases ht
  · exact ⟨u, hu, rfl, fun _ => rfl⟩
  · exact ⟨u, hu, rfl, nofun⟩

end Leaves

/-! ## The stream -/

/-- Some bits were appended to the stream. -/
def Grown (s u : State) : Prop := ∃ b, Appended b s u

theorem Grown.refl (s : State) : Grown s s := ⟨[], Appended.refl s⟩

theorem Grown.trans {s t u : State} (h : Grown s t) (k : Grown t u) : Grown s u := by
  obtain ⟨b, hb⟩ := h
  obtain ⟨c, hc⟩ := k
  exact ⟨b ++ c, hb.trans hc⟩

theorem esAppend_leaves (b : Bits) (s : State) : (esAppend b s).Leaves (Grown s) := by
  rcases esAppend_cases b s with ⟨-, t, ht, ha⟩ | ⟨-, hr⟩
  · exact ht ▸ .ended ⟨b, ha⟩
  · exact hr ▸ .raised (Grown.refl s) _ _

/-- An append and what comes after it. -/
theorem esAppend_andThen_leaves {b : Bits} {s : State} {next : State → CommandResult}
    (h : ∀ u, (next u).Leaves (Grown u)) : ((esAppend b s).andThen next).Leaves (Grown s) :=
  (esAppend_leaves b s).andThen (fun _ hu => hu) fun u hu => (h u).mono fun _ => hu.trans

theorem serhdr_leaves (s : State) : (serhdr s).Leaves (Grown s) := by
  rcases serhdr_cases s with ⟨-, t, ht, ha⟩ | ⟨-, hr⟩
  · exact ht ▸ .ended ⟨_, ha⟩
  · exact hr ▸ .raised (Grown.refl s) _ _

theorem packFrom_leaves (m : List Byte) (i : Nat) (s : State) : (packFrom i m s).Leaves (Grown s) := by
  induction m generalizing i s with
  | nil => exact .ended (Grown.refl s)
  | cons a m ih =>
    rw [packFrom]
    split
    · exact esAppend_andThen_leaves fun u => ih (i + 1) u
    · exact .raised (Grown.refl s) _ _

theorem padLoop_leaves (k : Nat) (s : State) : (padLoop k s).Leaves (Grown s) := by
  induction k generalizing s with
  | zero => exact .ended (Grown.refl s)
  | succ k ih =>
    rw [padLoop]
    split
    · exact .ended (Grown.refl s)
    · exact esAppend_andThen_leaves ih

/-! ## The tables -/

theorem count_frame (s : State) : (count s).state = { s with freq := (count s).state.freq } :=
  countSymbols_frame s.message { s with freq := [] }

theorem freqAt_countSymbols_of_ge (syms : List Byte) (s : State) {a : Nat} (h : 256 ≤ a) :
    (countSymbols syms s).freqAt a = s.freqAt a := by
  induction syms generalizing s with
  | nil => rfl
  | cons b syms ih =>
    have hne : a ≠ b.toNat := by have := b.isLt; omega
    show (countSymbols syms (s.setFreq b.toNat (s.freqAt b.toNat + 1#32))).freqAt a = _
    rw [ih, State.freqAt_setFreq, if_neg hne]

/-- BUILD has a code for symbols of the alphabet only (41_tree_builder.md R161). -/
theorem lookup_buildCodes_of_ge {s : State} (hw : s.weights ≠ []) {a : Nat} (h : nSym ≤ a) :
    (buildCodes s.weights s.rp).lookup a = none := by
  rw [Option.eq_none_iff_forall_ne_some]
  intro c hc
  have hsymbols := s.weights_alphabet.symbols
  have hmem : a ∈ (buildCodes s.weights s.rp).map (·.1) := List.mem_map.mpr ⟨_, mem_of_lookup hc, rfl⟩
  obtain ⟨p, hp, rfl⟩ := List.mem_map.mp ((buildCodes_symbols hw hsymbols).mem_iff.mp hmem)
  exact absurd (hsymbols p hp) (Nat.not_lt.mpr h)

/-- BUILD leaves a new CT with no entry past 255 (41_tree_builder.md R150). -/
theorem build_leaves (s : State) :
    (build s).Leaves fun u => u = { s with ct := u.ct } ∧ ∀ a, 256 ≤ a → u.ctAt a = CodeEntry.invalid := by
  rcases build_cases s with ⟨-, hr⟩ | ⟨-, a, l, rest, -, hr⟩ | ⟨hw, -, hr⟩
  · exact hr ▸ .raised ⟨rfl, fun _ _ => rfl⟩ _ _
  · exact hr ▸ .raised ⟨rfl, fun _ _ => rfl⟩ _ _
  · refine hr ▸ .ended ⟨?_, fun a ha => ?_⟩
    · rw [writeCodes_frame]
    · rw [ctAt_writeCodes (buildCodes_nodup hw s.weights_alphabet), lookup_buildCodes_of_ge hw ha]
      rfl

/-- RDPTR moved forward, and not past ESLEN unless it was (10_state.md R32). -/
def Advanced (s u : State) : Prop :=
  s.rdPtr.toNat ≤ u.rdPtr.toNat ∧ u.rdPtr.toNat ≤ max s.rdPtr.toNat s.esLen.toNat

theorem Advanced.refl (s : State) : Advanced s s := ⟨Nat.le_refl _, Nat.le_max_left _ _⟩

theorem Advanced.trans {s t u : State} (h : Advanced s t) (hes : t.esLen = s.esLen) (k : Advanced t u) : Advanced s u := by
  obtain ⟨h1, h2⟩ := h
  obtain ⟨k1, k2⟩ := k
  rw [hes] at k2
  exact ⟨h1.trans k1, by omega⟩

theorem advanced_skip {s : State} {n : Nat} (h : s.rdPtr.toNat + n ≤ s.esLen.toNat) : Advanced s (s.skip n) := by
  have hlt := s.esLen.isLt
  rw [Advanced, State.skip_rdPtr (by omega)]
  omega

/-- DT was written and RDPTR moved forward (43_header_codec.md R210). -/
structure Parsed (s u : State) : Prop where
  rest : u = { s with dt := u.dt, rdPtr := u.rdPtr }
  advanced : Advanced s u

theorem Parsed.refl (s : State) : Parsed s s := ⟨rfl, Advanced.refl s⟩

theorem Parsed.trans {s t u : State} (h : Parsed s t) (k : Parsed t u) : Parsed s u :=
  ⟨by rw [k.rest, h.rest], h.advanced.trans (by rw [h.rest]) k.advanced⟩

theorem parsed_setDt_skip {s : State} {n : Nat} (k : Nat) (e : DecodeEntry) (h : s.rdPtr.toNat + n ≤ s.esLen.toNat) :
    Parsed s ((s.setDt k e).skip n) :=
  ⟨rfl, advanced_skip (s := s.setDt k e) h⟩

theorem parseEntries_leaves (k : Nat) {fin : Nat} {s : State} (hfin : fin ≤ s.esLen.toNat) :
    (parseEntries k fin s).Leaves (Parsed s) := by
  induction k generalizing s with
  | zero => exact .ended (Parsed.refl s)
  | succ k ih =>
    rw [parseEntries]
    dsimp only
    split
    · exact .ended (Parsed.refl s)
    split
    · exact .raised (Parsed.refl s) _ _
    split
    · exact .raised (Parsed.refl s) _ _
    · refine CommandResult.Leaves.mono (ih hfin) fun u => (parsed_setDt_skip (s := s) _ _ ?_).trans
      omega

theorem deshdr_leaves (s : State) : (deshdr s).Leaves (Parsed s) := by
  have hclear : Parsed s { s with dt := [] } := ⟨rfl, Advanced.refl s⟩
  unfold deshdr
  dsimp only
  split
  · exact .raised hclear _ _
  next h16 =>
  rw [State.avail_eq] at h16
  have hfield : s.rdPtr.toNat + 16 ≤ s.esLen.toNat := by
    have h : ¬ s.esLen.toNat - s.rdPtr.toNat < 16 := h16
    omega
  have hskip : Parsed s (({ s with dt := [] } : State).skip 16) := ⟨rfl, advanced_skip (s := { s with dt := [] }) hfield⟩
  split
  · exact .raised hskip _ _
  next hlen =>
  rw [State.avail_eq] at hlen
  refine (parseEntries_leaves _ ?_).mono fun u => hskip.trans
  obtain ⟨-, hupper⟩ := hskip.advanced
  rw [Nat.max_eq_right (by omega)] at hupper
  have hes : (({ s with dt := [] } : State).skip 16).esLen = s.esLen := rfl
  rw [hes] at hlen ⊢
  omega

/-! ## The message -/

/-- Symbols were appended to the message and RDPTR moved forward (44_bitpacker_decoder.md R240). -/
structure Scanned (s u : State) : Prop where
  emitted : ∃ m, Emitted m u.rdPtr.toNat s u
  advanced : Advanced s u

theorem Scanned.refl (s : State) : Scanned s s := ⟨⟨[], Emitted.refl s⟩, Advanced.refl s⟩

theorem Scanned.trans {s t u : State} (h : Scanned s t) (k : Scanned t u) : Scanned s u := by
  obtain ⟨⟨m, hm⟩, ha⟩ := h
  obtain ⟨⟨n, hn⟩, kb⟩ := k
  exact ⟨⟨m ++ n, hm.trans hn⟩, ha.trans (by rw [hm.rest]) kb⟩

theorem scanned_skip {s : State} {n : Nat} (h : s.rdPtr.toNat + n ≤ s.esLen.toNat) : Scanned s (s.skip n) := by
  have hlt : s.rdPtr.toNat + n < 2 ^ 32 := h.trans_lt s.esLen.isLt
  exact ⟨⟨[], (State.skip_rdPtr hlt).symm ▸ emitted_skip hlt⟩, advanced_skip h⟩

/-- Symbols emitted with RDPTR where it was. -/
theorem scanned_of_emitted {m : List Byte} {s u : State} (h : Emitted m s.rdPtr.toNat s u) : Scanned s u := by
  have hrd : u.rdPtr.toNat = s.rdPtr.toNat := h.rdPtr
  exact ⟨⟨m, hrd.symm ▸ h⟩, by rw [Advanced, hrd]; omega⟩

/-- `MsgAppend` with a length in range appends at most one symbol, and the length stays in range. -/
theorem msgAppend_leaves (v : Byte) {s : State} (h : s.msgLen.toNat ≤ s.config.msgMax.toNat) :
    (msgAppend v s).Leaves fun u =>
      (∃ m, Emitted m s.rdPtr.toNat s u) ∧ u.msgLen.toNat ≤ u.config.msgMax.toNat := by
  rcases msgAppend_cases v s with ⟨hne, -⟩ | ⟨-, hr⟩
  · have hlt : s.msgLen.toNat < s.config.msgMax.toNat := lt_of_le_of_ne h fun e => hne (BitVec.eq_of_toNat_eq e)
    obtain ⟨t, ht, he⟩ := msgAppend_fits (v := v) hlt
    refine ht ▸ .ended ⟨⟨[v], he⟩, ?_⟩
    rw [he.msgLen, he.keeps.1]
    exact hlt
  · exact hr ▸ .raised ⟨⟨[], Emitted.refl s⟩, h⟩ _ _

/-- Each pass of SCAN takes one of the `k` bits left (44_bitpacker_decoder.md R240). -/
theorem scanLoop_leaves (k : Nat) (c : Bits) (n : Nat) {s : State}
    (hk : s.rdPtr.toNat + k ≤ max s.rdPtr.toNat s.esLen.toNat) (hm : s.msgLen.toNat ≤ s.config.msgMax.toNat) :
    (scanLoop k c n s).Leaves (Scanned s) := by
  induction k generalizing c n s with
  | zero =>
    rw [scanLoop]
    split
    · exact .raised (Scanned.refl s) _ _
    · exact .ended (Scanned.refl s)
  | succ k ih =>
    have hskip : Scanned s (s.skip 1) := scanned_skip (by omega)
    have hrd : (s.skip 1).rdPtr.toNat = s.rdPtr.toNat + 1 := State.skip_rdPtr (by have := s.esLen.isLt; omega)
    have hleft : s.rdPtr.toNat + 1 + k ≤ s.esLen.toNat := by omega
    rw [scanLoop]
    split
    · refine (msgAppend_leaves _ (s := s.skip 1) hm).andThen (fun u ⟨⟨m, he⟩, _⟩ => hskip.trans (scanned_of_emitted he))
        fun u ⟨⟨m, he⟩, hmu⟩ => ?_
      have hu : Scanned s u := hskip.trans (scanned_of_emitted he)
      split
      · exact .ended hu
      · refine (ih [] (n + 1) ?_ hmu).mono fun w => hu.trans
        rw [he.rdPtr, hrd, he.rest]
        exact hleft.trans (Nat.le_max_right _ _)
    · have hkskip : (s.skip 1).rdPtr.toNat + k ≤ max (s.skip 1).rdPtr.toNat (s.skip 1).esLen.toNat := by
        rw [hrd]
        exact hleft.trans (Nat.le_max_right _ _)
      exact (ih _ n hkskip hm).mono fun w => hskip.trans

theorem scan_leaves {s : State} (h : s.msgLen.toNat ≤ s.config.msgMax.toNat) : (scan s).Leaves (Scanned s) :=
  scanLoop_leaves _ _ _ (by rw [State.avail_eq]; omega) h

/-- REALIGN writes the elements below the number of chunks and MSGLEN (40_frequency_model.md R131). -/
theorem realign_leaves (s : State) :
    (realign s).Leaves fun u =>
      u = { s with msg := u.msg, msgLen := u.msgLen } ∧ ∀ i, s.chunkCount ≤ i → u.msgAt i = s.msgAt i := by
  unfold realign
  dsimp only
  split
  · exact .raised ⟨rfl, fun _ _ => rfl⟩ _ _
  · refine .ended ⟨by rw [writeChunks_frame], fun i hi => ?_⟩
    show (writeChunks (List.range s.chunkCount) s).msgAt i = _
    rw [msgAt_writeChunks, if_neg (by simpa using hi)]

/-! ## The whole flows -/

/-- ENCODE's first three lines: ESLEN is 0 and FREQ and CT are new (45_macro_system.md R260). -/
def TablesSet (s u : State) : Prop := u = { s with esLen := 0#32, freq := u.freq, ct := u.ct }

theorem count_build_leaves (s : State) :
    ((count { s with esLen := 0#32 }).andThen build).Leaves (TablesSet s) := by
  have hcount : TablesSet s (count { s with esLen := 0#32 }).state := by rw [TablesSet, count_frame]
  refine (CommandResult.Leaves.ended hcount).andThen (fun _ h => h) fun u hu => ?_
  refine (build_leaves u).mono fun v ⟨hv, _⟩ => ?_
  rw [TablesSet, hv, hu]

/-- ENCODE: the tables, then appends from the first bit on. -/
theorem encodeFlow_leaves (s : State) : (encodeFlow s).Leaves fun u => ∃ v, TablesSet s v ∧ Grown v u := by
  have append {r : CommandResult} {next : State → CommandResult} (h : r.Leaves fun u => ∃ v, TablesSet s v ∧ Grown v u)
      (hnext : ∀ u, (next u).Leaves (Grown u)) : (r.andThen next).Leaves fun u => ∃ v, TablesSet s v ∧ Grown v u :=
    h.andThen (fun _ hu => hu) fun u ⟨v, hv, hg⟩ => (hnext u).mono fun w hw => ⟨v, hv, hg.trans hw⟩
  refine append (append (append ?tables serhdr_leaves) fun u => packFrom_leaves _ 0 u) fun u => ?pad
  case tables => exact (count_build_leaves s).mono fun u hu => ⟨u, hu, Grown.refl u⟩
  case pad =>
    split
    · exact padLoop_leaves 7 u
    · exact .ended (Grown.refl u)

/-- DECODE: DESHDR and SCAN with both cursors at 0 (45_macro_system.md R262). -/
theorem decodeFlow_leaves (s : State) :
    (decodeFlow s).Leaves fun u => ∃ v, Parsed { s with rdPtr := 0#32, msgLen := 0#32 } v ∧ Scanned v u := by
  refine (deshdr_leaves _).andThen (fun v hv => ⟨v, hv, Scanned.refl v⟩) fun v hv => ?_
  have hm : v.msgLen.toNat ≤ v.config.msgMax.toNat := by
    rw [hv.rest]
    exact Nat.zero_le _
  exact (scan_leaves hm).mono fun u hu => ⟨v, hv, hu⟩

/-! ## The obligations -/

/-- What an append and a fault after it change. -/
theorem Grown.frame {s u t : State} (h : Grown s u) (ht : t = { u with err := t.err, errInfo := t.errInfo }) :
    t = { s with es := t.es, esLen := t.esLen, err := t.err, errInfo := t.errInfo } ∧ s.esLen.toNat ≤ t.esLen.toNat ∧
      ∀ q, q < s.esLen.toNat ∨ t.esLen.toNat ≤ q → t.esBit q = s.esBit q := by
  obtain ⟨b, hb⟩ := h
  have hes : t.es = u.es := by rw [ht]
  have hlen : t.esLen.toNat = s.esLen.toNat + b.length := by rw [ht]; exact hb.esLen
  refine ⟨by rw [ht, hb.rest], by omega, fun q hq => ?_⟩
  rw [State.esBit_of_es hes, hb.others q (by omega)]

/-- Settles O52: SERHDR, PACK and PADB append, ENCODE appends from ESLEN = 0 after COUNT and BUILD. -/
theorem frameOfStreamCommands : Obligations.FrameOfStreamCommands := by
  intro s t
  refine ⟨fun i hi hx => ?append, fun hx => ?encode⟩
  case append =>
    have hleaves : ∃ r : CommandResult, r.Leaves (Grown s) ∧ r.outcome = .next t := by
      rcases hi with rfl | rfl | rfl
      · exact ⟨_, serhdr_leaves s, hx⟩
      · exact ⟨_, packFrom_leaves _ 0 s, hx⟩
      · exact ⟨_, padLoop_leaves 7 s, hx⟩
    obtain ⟨r, hr, hnext⟩ := hleaves
    obtain ⟨u, hu, ht, herr⟩ := hr.next hnext
    obtain ⟨hrest, hlen, hbits⟩ := hu.frame ht
    obtain ⟨b, hb⟩ := hu
    exact ⟨hrest, hlen, hbits, fun h => (herr h).trans (by rw [hb.rest])⟩
  case encode =>
    obtain ⟨u, ⟨v, hv, hu⟩, ht, herr⟩ := (encodeFlow_leaves s).next hx
    obtain ⟨hrest, -, hbits⟩ := hu.frame ht
    have hes : v.es = s.es := by rw [hv]
    obtain ⟨b, hb⟩ := hu
    refine ⟨by rw [hrest, hv], fun q hq => ?_, fun h => (herr h).trans (by rw [hb.rest, hv])⟩
    rw [hbits q (.inr hq), State.esBit_of_es hes]

/-- What symbols emitted and a fault after them change. -/
theorem Scanned.frame {s u t : State} (h : Scanned s u) (ht : t = { u with err := t.err, errInfo := t.errInfo }) :
    t = { s with msg := t.msg, msgLen := t.msgLen, rdPtr := t.rdPtr, err := t.err, errInfo := t.errInfo } ∧
      s.msgLen.toNat ≤ t.msgLen.toNat ∧ Advanced s t ∧
      ∀ i, i < s.msgLen.toNat ∨ t.msgLen.toNat ≤ i → t.msgAt i = s.msgAt i := by
  obtain ⟨⟨m, hm⟩, hadv⟩ := h
  have hmsg : t.msgAt = u.msgAt := by rw [ht]; rfl
  have hrd : t.rdPtr = u.rdPtr := by rw [ht]
  have hlen : t.msgLen.toNat = s.msgLen.toNat + m.length := by rw [ht]; exact hm.msgLen
  refine ⟨by rw [ht, hm.rest], by omega, by rwa [Advanced, hrd], fun i hi => ?_⟩
  rw [hmsg, hm.others i (by omega)]

/-- Settles O53: REALIGN writes the chunks, SCAN appends symbols, DECODE parses the header first. -/
theorem frameOfMessageCommands : Obligations.FrameOfMessageCommands := by
  intro s t hinv
  refine ⟨fun hx => ?realign, fun hx => ?scan, fun hx => ?decode⟩
  case realign =>
    obtain ⟨u, ⟨hu, hmsg⟩, ht, herr⟩ := (realign_leaves s).next hx
    refine ⟨by rw [ht, hu], fun i hi => ?_, fun h => (herr h).trans (by rw [hu])⟩
    rw [ht]
    exact hmsg i hi
  case scan =>
    obtain ⟨u, hu, ht, herr⟩ := (scan_leaves hinv.msgLen).next hx
    obtain ⟨hrest, hlen, ⟨hlower, hupper⟩, hmsg⟩ := hu.frame ht
    obtain ⟨⟨m, hm⟩, -⟩ := hu
    exact ⟨hrest, hlen, hlower, hupper, hmsg, fun h => (herr h).trans (by rw [hm.rest])⟩
  case decode =>
    obtain ⟨u, ⟨v, hv, hu⟩, ht, herr⟩ := (decodeFlow_leaves s).next hx
    obtain ⟨hrest, -, ⟨-, hupper⟩, hmsg⟩ := hu.frame ht
    obtain ⟨hparsed, -, hfrom⟩ := hv
    have hes : v.esLen = s.esLen := by rw [hparsed]
    have hmsgs : v.msgAt = s.msgAt := by rw [hparsed]; rfl
    obtain ⟨⟨m, hm⟩, -⟩ := hu
    refine ⟨by rw [hrest, hparsed], ?_, fun i hi => ?_, fun h => (herr h).trans (by rw [hm.rest, hparsed])⟩
    · have hle : v.rdPtr.toNat ≤ max 0 s.esLen.toNat := hfrom
      rw [hes] at hupper
      omega
    · rw [hmsg i (.inr hi), hmsgs]

/-- Settles O54: COUNT writes FREQ at symbol values, BUILD writes CT at the symbols of the alphabet, DESHDR parses. -/
theorem frameOfTableCommands : Obligations.FrameOfTableCommands := by
  intro s t
  refine ⟨fun hx => ?count, fun hx => ?build, fun hx => ?deshdr⟩
  case count =>
    cases hx
    exact ⟨count_frame s, fun a ha => freqAt_countSymbols_of_ge _ _ ha⟩
  case build =>
    obtain ⟨u, ⟨hu, hct⟩, ht, herr⟩ := (build_leaves s).next hx
    refine ⟨by rw [ht, hu], fun a ha => ?_, fun h => (herr h).trans (by rw [hu])⟩
    rw [ht]
    exact hct a ha
  case deshdr =>
    obtain ⟨u, ⟨hu, hadv⟩, ht, herr⟩ := (deshdr_leaves s).next hx
    have hrd : t.rdPtr = u.rdPtr := by rw [ht]
    refine ⟨by rw [ht, hu], fun hr => ?_, fun h => (herr h).trans (by rw [hu])⟩
    obtain ⟨hlower, hupper⟩ := hadv
    rw [Nat.max_eq_right hr] at hupper
    exact hrd ▸ ⟨hlower, hupper⟩

end Sys2Proof.Machine
end
section
/-! PROOFS. The family 40_frequency_model.md: the symbols REALIGN writes and the counts COUNT leaves. -/

namespace Sys2Proof.Machine

/-! ## REALIGN -/

/-- The symbol of a chunk: its value is not cut to 8 bits, since a chunk has at most 7 (40_frequency_model.md R132). -/
theorem State.toNat_chunkSymbol (s : State) (j : Nat) : (BitVec.ofNat 8 (val (s.chunk j))).toNat = val (s.chunk j) :=
  Nat.mod_eq_of_lt ((s.val_chunk_lt j).trans (by decide))

/-- The number of chunks fits MSGLEN, whatever MSG_MAX is. -/
theorem State.toNat_chunkCount (s : State) : (BitVec.ofNat 32 s.chunkCount).toNat = s.chunkCount := by
  refine Nat.mod_eq_of_lt ?_
  have hes := s.esLen.isLt
  unfold State.chunkCount realignW
  omega

/-- All that REALIGN does when the chunks fit MSG: below the number of chunks MSG holds their symbols, from there on it is as
before, and MSGLEN is the number of chunks (40_frequency_model.md R131). -/
theorem realign_fits {s : State} (h : s.chunkCount ≤ s.config.msgMax.toNat) :
    ∃ t, realign s = .ended t ∧ t = { s with msg := t.msg, msgLen := BitVec.ofNat 32 s.chunkCount } ∧
      ∀ i, t.msgAt i = if i < s.chunkCount then BitVec.ofNat 8 (val (s.chunk i)) else s.msgAt i := by
  refine ⟨_, if_neg (Nat.not_lt.mpr h), by rw [writeChunks_frame], fun i => ?_⟩
  have hmsg := msgAt_writeChunks (List.range s.chunkCount) s i
  rwa [if_congr List.mem_range rfl rfl] at hmsg

/-- REALIGN when they do not: Capacity before any write (40_frequency_model.md R131). -/
theorem realign_capacity {s : State} (h : s.config.msgMax.toNat < s.chunkCount) :
    realign s = .raised (s.latch .capacity (BitVec.ofNat 32 s.chunkCount)) :=
  if_pos h

/-- Settles O19: the loop writes the symbols of the chunks, and the check before it raises with nothing written. -/
theorem realignWritesChunks : Obligations.RealignWritesChunks := by
  intro s
  refine ⟨fun hfit => ?fits, fun hover => ?capacity, rfl⟩
  case fits =>
    obtain ⟨t, hended, hframe, hmsg⟩ := realign_fits hfit
    have hlen : t.msgLen = BitVec.ofNat 32 s.chunkCount := by rw [hframe]
    refine ⟨t, congrArg CommandResult.outcome hended, ?rest, ?length, fun j hj => ?written, fun i hi => ?kept⟩
    case rest => rw [hlen]; exact hframe
    case length => rw [hlen]; exact s.toNat_chunkCount
    case written => rw [(hmsg j).trans (if_pos hj)]; exact s.toNat_chunkSymbol j
    case kept => exact (hmsg i).trans (if_neg (Nat.not_lt.mpr hi))
  case capacity => exact congrArg CommandResult.outcome (realign_capacity hover)

/-! ## COUNT -/

theorem State.msgAt_mem_message (s : State) {i : Nat} (h : i < s.msgLen.toNat) : s.msgAt i ∈ s.message :=
  List.mem_map_of_mem (List.mem_range.mpr h)

/-- The occurrences of a symbol in the message are the indices below MSGLEN that hold it (10_state.md R30). -/
theorem State.count_message (s : State) (a : Byte) :
    s.message.count a = ((List.range s.msgLen.toNat).filter (fun i => (s.msgAt i).toNat = a.toNat)).length := by
  unfold State.message
  rw [List.count_eq_countP, List.countP_map, List.countP_eq_length_filter]
  refine congrArg List.length (List.filter_congr fun i _ => ?_)
  simp only [Function.comp_apply, beq_eq_decide, ← BitVec.toNat_inj]

/-- Settles O20: FREQ holds the occurrences in the message, which add up to its length. -/
theorem countCountsSymbols : Obligations.CountCountsSymbols := by
  intro s
  obtain ⟨t, hended, hframe, -, hcount⟩ := count_spec s
  have hfreq : ∀ a, a < 256 → (t.freqAt a).toNat = s.message.count (BitVec.ofNat 8 a) := fun a ha => by
    have h := hcount (BitVec.ofNat 8 a)
    rwa [BitVec.toNat_ofNat, Nat.mod_eq_of_lt ha] at h
  refine ⟨t, congrArg CommandResult.outcome hended, hframe, fun a ha => ?counts, ?sum, fun i hi => ?weight⟩
  case counts => rw [hfreq a ha, s.count_message, BitVec.toNat_ofNat, Nat.mod_eq_of_lt ha]
  case sum =>
    calc ((List.range 256).map fun a => (t.freqAt a).toNat).sum
      _ = ((List.range 256).map fun a => s.message.count (BitVec.ofNat 8 a)).sum :=
          congrArg List.sum (List.map_congr_left fun a ha => hfreq a (List.mem_range.mp ha))
      _ = s.message.length := sum_count_eq_length s.message
      _ = s.msgLen.toNat := s.length_message
  case weight =>
    rw [hcount]
    exact List.count_pos_iff.mpr (s.msgAt_mem_message hi)

end Sys2Proof.Machine
end
section
/-! PROOFS. The family 41_tree_builder.md: what BUILD writes and when it raises, the bounds and the optimality of its codes, the
merge loop over the queue as a set and in arena form, and BUILD and ENCODE as functions of their inputs. -/

namespace Sys2Proof.Machine

/-! ## A BUILD without fault -/

/-- What CT holds after it (41_tree_builder.md R161). -/
theorem builtCodes_of_exec {s t : State} (hx : exec .build s = .next t) (hn : t.err = none) :
    s.weights ≠ [] ∧ BuiltCodes s t := by
  obtain ⟨hended, -⟩ := build_of_exec hx hn
  exact ⟨(build_ended hended).1, (build_builtCodes hended).2⟩

/-- Settles O29: no code of the alphabet begins another, and CT holds no others (41_tree_builder.md R168). -/
theorem buildIsPrefixFree : Obligations.BuildIsPrefixFree := by
  intro s t hx hn a b _ _ hab ha hb
  obtain ⟨hw, hbuilt⟩ := builtCodes_of_exec hx hn
  exact buildCodes_prefixFree hw s.weights_alphabet.symbols _ _ _ _ (hbuilt.mem a ha) (hbuilt.mem b hb) hab

/-! ## Optimality -/

/-- The sum of weight times length over an alphabet, taken over the codes themselves (41_tree_builder.md R163). -/
theorem totalLength_eq_sum {ws : List (Nat × Nat)} {codes : Codes} {W : Nat → Nat} {code : Nat → Bits}
    (hp : (codes.map (·.1)).Perm (ws.map (·.1))) (hW : ∀ p ∈ ws, W p.1 = p.2) (hc : ∀ m ∈ codes, code m.1 = m.2) :
    totalLength ws code = (codes.map (fun m => W m.1 * m.2.length)).sum := by
  calc totalLength ws code
    _ = ((ws.map (·.1)).map (fun a => W a * (code a).length)).sum := by
        rw [totalLength, List.map_map]
        exact congrArg List.sum (List.map_congr_left fun p hp => by simp [hW p hp])
    _ = ((codes.map (·.1)).map (fun a => W a * (code a).length)).sum := (hp.map _).sum_eq.symm
    _ = (codes.map (fun m => W m.1 * m.2.length)).sum := by
        rw [List.map_map]
        exact congrArg List.sum (List.map_congr_left fun m hm => by simp [hc m hm])

/-- The weights of an alphabet, each with the length of the string that `code` assigns to its symbol. -/
def weightedLengths (ws : List (Nat × Nat)) (code : Nat → Bits) : List (Nat × Nat) :=
  ws.map (fun p => (p.2, (code p.1).length))

theorem lengthCost_weightedLengths (ws : List (Nat × Nat)) (code : Nat → Bits) :
    lengthCost (weightedLengths ws code) = totalLength ws code := by
  simp [lengthCost, weightedLengths, totalLength, Function.comp_def]

theorem map_fst_weightedLengths (ws : List (Nat × Nat)) (code : Nat → Bits) :
    (weightedLengths ws code).map (·.1) = ws.map (·.2) := by
  simp [weightedLengths]

/-- Kraft's inequality for the assignment. -/
theorem kraft_weightedLengths_le {ws : List (Nat × Nat)} {code : Nat → Bits}
    (h : (ws.map (fun p => code p.1)).Pairwise Unrelated) : kraft (weightedLengths ws code) ≤ 1 := by
  have heq : kraft (weightedLengths ws code) = kraftSum (ws.map (fun p => code p.1)) := by
    simp [kraft, kraftSum, weightedLengths, Function.comp_def]
  rw [heq]
  exact kraftSum_le_one _ (fun c hc => List.le_sum_of_mem (List.mem_map_of_mem (f := List.length) hc)) h

/-- With the guard off the codes of an alphabet are the shortest: of one symbol since no other code is empty, of two or more by
the exchange argument of Laws/Huffman.lean (41_tree_builder.md R163). -/
theorem buildCodes_optimal {ws : List (Nat × Nat)} (hws : ws ≠ []) {W : Nat → Nat} (hW : ∀ p ∈ ws, W p.1 = p.2)
    {other : Nat → Bits} (hne : ∀ p ∈ ws, other p.1 ≠ []) (hu : (ws.map (fun p => other p.1)).Pairwise Unrelated) :
    ((buildCodes ws []).map (fun m => W m.1 * m.2.length)).sum ≤ totalLength ws other := by
  by_cases h1 : ws.length = 1
  · obtain ⟨w, rfl⟩ := List.length_eq_one_iff.mp h1
    have hpos : 1 ≤ (other w.1).length := List.length_pos_iff.mpr (hne w (by simp))
    have hle : w.2 * 1 ≤ w.2 * (other w.1).length := Nat.mul_le_mul_left _ hpos
    simpa [buildCodes_single, totalLength, hW w (by simp)] using hle
  · rw [buildCodes_off h1, ← lengthCost_weightedLengths]
    exact treeCodes_cost_le hws hW (map_fst_weightedLengths ws other ▸ List.Perm.refl _) (kraft_weightedLengths_le hu)

/-- Settles O33: the table costs what the codes of the alphabet cost, and those are optimal. -/
theorem buildIsOptimal : Obligations.BuildIsOptimal := by
  intro s t other hoff hx hn hne hu
  obtain ⟨hw, hbuilt⟩ := builtCodes_of_exec hx hn
  have halpha := s.weights_alphabet
  have hmem : ∀ p ∈ s.weights, p.1 < 256 ∧ s.freqAt p.1 ≠ 0#32 := fun p hp => State.exists_mem_weights.mp ⟨p.2, hp⟩
  have hW : ∀ p ∈ s.weights, (s.freqAt p.1).toNat = p.2 := fun p hp => (State.mem_weights.mp hp).2.1.symm
  have hpairs : (s.weights.map (fun p => other p.1)).Pairwise Unrelated := by
    refine List.pairwise_map.mpr (halpha.sorted.imp_of_mem fun {p q} hp hq hlt => ?_)
    obtain ⟨hp256, hp0⟩ := hmem p hp
    obtain ⟨hq256, hq0⟩ := hmem q hq
    exact hu p.1 q.1 hp256 hq256 (Nat.ne_of_lt hlt) hp0 hq0
  rw [totalLength_eq_sum (W := fun a => (s.freqAt a).toNat) (buildCodes_symbols hw halpha.symbols) hW
    fun m hm => (hbuilt.code m.1 m.2 hm).2.1, State.rp_eq_nil hoff]
  exact buildCodes_optimal (W := fun a => (s.freqAt a).toNat) hw hW (fun p hp => hne p.1 (hmem p hp).1 (hmem p hp).2) hpairs

/-! ## The size of the alphabet -/

/-- An alphabet has at most 256 symbols. -/
theorem Alphabet.length_le {ws : List (Nat × Nat)} (h : Alphabet ws) : ws.length ≤ 256 := by
  have hsub : ws.map (·.1) ⊆ List.range 256 := fun a ha => by
    obtain ⟨p, hp, rfl⟩ := List.mem_map.mp ha
    exact List.mem_range.mpr (h.symbols p hp)
  simpa using (h.nodup.subperm hsub).length_le

/-- No symbols, no codes. -/
theorem buildCodes_nil (rp : Bits) : buildCodes [] rp = [] := by
  unfold buildCodes
  split <;> rfl

/-! ## Where BUILD raises -/

/-- Settles O21: with no symbol of weight not 0 the first check raises. -/
theorem buildRejectsEmptyAlphabet : Obligations.BuildRejectsEmptyAlphabet := by
  intro s hzero
  have hw : s.weights = [] := List.eq_nil_iff_forall_not_mem.mpr fun p hp => by
    obtain ⟨hlt, hne⟩ := State.exists_mem_weights.mp ⟨p.2, hp⟩
    exact hne (hzero p.1 hlt)
  rcases build_cases s with ⟨-, hr⟩ | ⟨hne, -⟩ | ⟨hne, -⟩
  · exact ⟨_, congrArg CommandResult.outcome hr, rfl, fun a => rfl⟩
  · exact absurd hw hne
  · exact absurd hw hne

/-- ERRINFO of CodeTooLong: the length above the symbol (41_tree_builder.md R160). -/
theorem toNat_codeTooLongInfo {a l : Nat} (ha : a < 256) (hl : l ≤ 256) :
    ((BitVec.ofNat 32 l <<< 16) ||| BitVec.ofNat 32 a).toNat = l * 2 ^ 16 + a := by
  have hshift : (BitVec.ofNat 32 l <<< 16).toNat = 2 ^ 16 * l := by
    rw [BitVec.toNat_shiftLeft, BitVec.toNat_ofNat, Nat.shiftLeft_eq]
    omega
  rw [BitVec.toNat_or, hshift, BitVec.toNat_ofNat, Nat.mod_eq_of_lt (by omega), ← Nat.two_pow_add_eq_or_of_lt (by omega),
    Nat.mul_comm]

/-- The smallest symbol with a code of more than 15 bits is the first the check lists (41_tree_builder.md R160). -/
theorem tooLong_eq_cons {codes : Codes} (hn : (codes.map (·.1)).Nodup) {a : Nat} {c : Bits} (ha : a < nSym)
    (hc : (a, c) ∈ codes) (hlong : codeMax < c.length) (hmin : ∀ b d, (b, d) ∈ codes → b < a → d.length ≤ codeMax) :
    ∃ rest, tooLong codes = (a, c.length) :: rest := by
  have hmem : (a, c.length) ∈ tooLong codes := (mem_tooLong hn).mpr ⟨ha, c, hc, hlong, rfl⟩
  have hsorted := tooLong_sorted codes
  rcases htl : tooLong codes with _ | ⟨⟨b, l⟩, rest⟩ <;> rw [htl] at hmem hsorted
  · cases hmem
  · rcases List.mem_cons.mp hmem with heq | hrest
    · exact ⟨rest, by rw [heq]⟩
    · have hba : b < a := (List.pairwise_cons.mp hsorted).1 _ hrest
      obtain ⟨-, d, hd, hdlong, -⟩ := (mem_tooLong hn).mp (htl ▸ List.mem_cons_self (a := (b, l)))
      have := hmin b d hd hba
      omega

/-- Settles O23: the check's first entry is the smallest offender, and the bounds of the lengths bound K. -/
theorem buildRejectsLongCodes : Obligations.BuildRejectsLongCodes := by
  intro s a c hc hlong hmin
  have halpha := s.weights_alphabet
  have hw : s.weights ≠ [] := by
    intro hnil
    rw [hnil, buildCodes_nil] at hc
    cases hc
  have ha : a < 256 := by
    have hsym : a ∈ (buildCodes s.weights s.rp).map (·.1) := List.mem_map.mpr ⟨_, hc, rfl⟩
    obtain ⟨p, hp, rfl⟩ := List.mem_map.mp ((buildCodes_symbols hw halpha.symbols).mem_iff.mp hsym)
    exact halpha.symbols p hp
  have hoff : s.rpLen = 0#4 → 17 ≤ s.weights.length ∧ c.length ≤ s.weights.length := fun h => by
    rw [State.rp_eq_nil h] at hc
    have := buildCodes_length_off hw hc
    omega
  have hon : s.rpLen ≠ 0#4 → 16 ≤ s.weights.length ∧ c.length ≤ s.weights.length := fun h => by
    have := buildCodes_length_on hw halpha.symbols (State.rp_ne_nil.mp h) hc
    omega
  have hc256 : c.length ≤ 256 := by
    have := halpha.length_le
    by_cases h : s.rpLen = 0#4
    · have := hoff h; omega
    · have := hon h; omega
  refine ⟨?_, ha, hc256, fun h => (hoff h).1, fun h => (hon h).1⟩
  obtain ⟨rest, htl⟩ := tooLong_eq_cons (buildCodes_nodup hw halpha) ha hc hlong hmin
  rcases build_cases s with ⟨hnil, -⟩ | ⟨-, b, l, r, hbl, hr⟩ | ⟨-, hnil, -⟩
  · exact absurd hnil hw
  · rw [htl] at hbl
    cases hbl
    exact ⟨_, congrArg CommandResult.outcome hr, rfl, fun _ => rfl, toNat_codeTooLongInfo ha hc256⟩
  · rw [htl] at hnil
    cases hnil

/-! ## What BUILD writes -/

theorem CodeEntry.cbits_ofCode {c : Bits} (h : c.length ≤ codeMax) : (CodeEntry.ofCode c).cbits.toNat = val c :=
  Nat.mod_eq_of_lt ((val_lt c).trans_le (Nat.pow_le_pow_right (by decide) h))

/-- NCODE after a BUILD without fault: the coded symbols are the alphabet (10_state.md R34, 41_tree_builder.md R161). -/
theorem BuiltCodes.ncode {s t : State} (h : BuiltCodes s t) : t.ncode = s.weights.length := by
  have hcoded : t.codedSymbols = s.weights.map (·.1) := by
    have hw : s.weights.map (·.1) = (List.range nSym).filter (fun a => (s.freqAt a).toNat != 0) := by
      rw [State.weights, List.filter_map, List.map_map]
      exact List.map_id _
    rw [hw]
    refine List.filter_congr fun a ha => ?_
    rw [Bool.eq_iff_iff, h.alpha, State.exists_mem_weights, bne_iff_ne, ne_eq, ← BitVec.toNat_inj]
    exact and_iff_right (List.mem_range.mp ha)
  rw [State.ncode, hcoded, List.length_map]

/-- Settles O22: no code is too long, so BUILD writes one entry a code. -/
theorem buildWritesTheCodes : Obligations.BuildWritesTheCodes := by
  intro s hw hl
  obtain ⟨t, ht, hframe, hct⟩ := build_fits hw hl
  have hbuilt := (build_builtCodes ht).2
  have halpha := s.weights_alphabet
  refine ⟨t, congrArg CommandResult.outcome ht, hframe, fun a c hc => ?codes, fun a ha => ?valid, hbuilt.inval, ?ncode⟩
  case codes =>
    have hentry : t.ctAt a = CodeEntry.ofCode c := by rw [hct, lookup_of_mem (buildCodes_nodup hw halpha) hc]
    obtain ⟨hvalid, hcode, hlen⟩ := hbuilt.code a c hc
    refine ⟨List.length_pos_iff.mpr (buildCodes_nonempty hw halpha.symbols hc), hvalid, hlen, ?_, hcode⟩
    rw [hentry, CodeEntry.cbits_ofCode (hl a c hc)]
  case valid => rw [hbuilt.alpha, State.exists_mem_weights, and_iff_right ha]
  case ncode =>
    rw [← hbuilt.ncode]
    exact t.reads_register 9#8

/-- Settles O24: the bounds of the codes of the alphabet, read off CT. -/
theorem buildCodeLengthBounds : Obligations.BuildCodeLengthBounds := by
  intro s t hx hn a _ hv
  obtain ⟨hw, hbuilt⟩ := builtCodes_of_exec hx hn
  have hc := hbuilt.mem a hv
  rw [(hbuilt.code a _ hc).2.2]
  generalize (t.ctAt a).code = c at hc ⊢
  have hoff : s.rpLen = 0#4 → 1 ≤ c.length ∧ c.length ≤ max 1 (s.weights.length - 1) := fun h =>
    buildCodes_length_off hw (State.rp_eq_nil h ▸ hc)
  have hon : s.rpLen ≠ 0#4 → min 2 s.weights.length ≤ c.length ∧ c.length ≤ s.weights.length := fun h =>
    buildCodes_length_on hw s.weights_alphabet.symbols (State.rp_ne_nil.mp h) hc
  refine ⟨fun h _ => ?_, fun h _ => ?_, fun h _ => ?_, fun h _ => ?_⟩
  · have := hoff h; omega
  · have := hoff h; omega
  · have := hon h; omega
  · have := hon h; omega

/-! ## Weights -/

/-- The sum of the weights of an alphabet (41_tree_builder.md R157). -/
theorem Alphabet.sum_lt {ws : List (Nat × Nat)} (h : Alphabet ws) : (ws.map (·.2)).sum < 2 ^ 40 := by
  have hsum := List.sum_le_card_nsmul (ws.map (·.2)) (2 ^ 32 - 1) fun w hw => by
    obtain ⟨p, hp, rfl⟩ := List.mem_map.mp hw
    have := (h.weights p hp).2
    omega
  rw [List.length_map, smul_eq_mul] at hsum
  have := h.length_le
  omega

/-- No node of the merge weighs more than the queue it is made from (41_tree_builder.md R157). -/
theorem weight_le_of_mem_mergeLoop {k id : Nat} {q : List Node} {n : Node} (h : n ∈ mergeLoop k id q) :
    n.weight ≤ (q.map (·.weight)).sum :=
  mergeLoop_weight k id q ▸ List.le_sum_of_mem (List.mem_map_of_mem h)

/-- Settles O28: the merges keep the sum of the weights, S without the dummy and 2S + 1 with it. -/
theorem nodeWeightsFit : Obligations.NodeWeightsFit := by
  intro s
  have hsum := s.weights_alphabet.sum_lt
  refine ⟨fun a => (s.freqAt a).isLt, hsum, rfl, fun k n hn => ?off, fun k n hn => ?on⟩
  case off => simpa only [leaves_weights] using weight_le_of_mem_mergeLoop hn
  case on =>
    have hle := weight_le_of_mem_mergeLoop hn
    simp only [List.map_append, List.map_cons, List.map_nil, List.sum_append, List.sum_singleton, leaves_weights,
      dummyLeaf] at hle
    omega

/-! ## The queue as a set -/

/-- A pass over the queue as a set is the pass of the merge loop, in whatever order the list has the nodes
(41_tree_builder.md R155). -/
theorem MergePass.mergeLoop_eq {id j : Nat} {q q' r : List Node} (h : MergePass (id, q) (j, q')) (hp : r.Perm q) :
    ∃ r', r'.Perm q' ∧ r.length = r'.length + 1 ∧ r' ≠ [] ∧ ∀ k, mergeLoop (k + 1) id r = mergeLoop k j r' := by
  cases h with
  | @pass _ _ _ lo hi rest taken first second put =>
    obtain ⟨r1, h1, hp1⟩ := extractMin_unique (hp.trans taken) fun n hn => (Node.keyLt_iff lo n).mpr (first n hn)
    obtain ⟨r2, h2, hp2⟩ := extractMin_unique hp1 fun n hn => (Node.keyLt_iff hi n).mpr (second n hn)
    have hlen1 := extractMin_length h1
    have hlen2 := extractMin_length h2
    refine ⟨mergeNodes id lo hi :: r2, (hp2.cons _).trans put.symm, by rw [List.length_cons]; omega, nofun, fun k => ?_⟩
    simp only [mergeLoop, h1, h2]

/-- Every run of the loop over the queue as a set ends with the node the merge loop ends with. -/
theorem mergeLoop_of_passes {p : Nat × List Node} {id : Nat} {n : Node}
    (h : Relation.ReflTransGen MergePass p (id, [n])) {r : List Node} (hr : r.Perm p.2) :
    mergeLoop (r.length - 1) p.1 r = [n] := by
  induction h using Relation.ReflTransGen.head_induction_on generalizing r with
  | refl =>
    rw [List.perm_singleton.mp hr]
    rfl
  | head hpass _ ih =>
    obtain ⟨r', hr', hlen, hne, heq⟩ := MergePass.mergeLoop_eq hpass hr
    have hpos := List.length_pos_iff.mpr hne
    rw [show r.length - 1 = r'.length - 1 + 1 by omega, heq]
    exact ih hr'

/-- The nodes of a queue have ids below `id`, no two the same, as the merge loop keeps them (41_tree_builder.md R153, R155). -/
structure FreshIds (id : Nat) (q : List Node) : Prop where
  below : ∀ n ∈ q, n.id < id
  nodup : (q.map (·.id)).Nodup

theorem FreshIds.perm {id : Nat} {q r : List Node} (h : FreshIds id q) (hp : q.Perm r) : FreshIds id r :=
  ⟨fun n hn => h.below n (hp.mem_iff.mpr hn), (hp.map (·.id)).nodup_iff.mp h.nodup⟩

theorem FreshIds.tail {id : Nat} {n : Node} {q : List Node} (h : FreshIds id (n :: q)) : FreshIds id q :=
  ⟨fun m hm => h.below m (List.mem_cons_of_mem _ hm), (List.nodup_cons.mp h.nodup).2⟩

/-- A node that takes the next id is new. -/
theorem FreshIds.cons {id : Nat} {n : Node} {q : List Node} (h : FreshIds id q) (hn : n.id = id) :
    FreshIds (id + 1) (n :: q) := by
  refine ⟨fun m hm => ?_, List.nodup_cons.mpr ⟨fun hmem => ?_, h.nodup⟩⟩
  · rcases List.mem_cons.mp hm with rfl | hm
    · omega
    · exact Nat.lt_succ_of_lt (h.below m hm)
  · obtain ⟨m, hm, he⟩ := List.mem_map.mp hmem
    have hlt := h.below m hm
    have he : m.id = n.id := he
    omega

/-- The merge loop is a run of passes over the queue as a set (41_tree_builder.md R155). -/
theorem passes_of_mergeLoop {k id : Nat} {q : List Node} (hlen : q.length = k + 1) (hids : FreshIds id q) :
    Relation.ReflTransGen MergePass (id, q) (id + k, mergeLoop k id q) := by
  induction k generalizing id q with
  | zero => exact .refl
  | succ k ih =>
    obtain ⟨lo, hi, q1, q2, h1, h2, hp, heq⟩ := mergeLoop_succ (q := q) (by omega) k id
    have hp1 := (extractMin_spec h1).1
    have hp2 := (extractMin_spec h2).1
    have hids1 := (hids.perm hp1).tail
    have hids2 := (hids1.perm hp2).tail
    have hpass : MergePass (id, q) (id + 1, mergeNodes id lo hi :: q2) :=
      .pass hp (fun n hn => (Node.keyLt_iff lo n).mp (extractMin_strict h1 hids.nodup n (hp2.mem_iff.mpr hn)))
        (fun n hn => (Node.keyLt_iff hi n).mp (extractMin_strict h2 hids1.nodup n hn)) (List.Perm.refl _)
    have hlen2 := hp.length_eq
    simp only [List.length_cons] at hlen2
    have hrest := ih (id := id + 1) (q := mergeNodes id lo hi :: q2) (by simp only [List.length_cons]; omega)
      (hids2.cons rfl)
    rw [heq, Nat.add_comm k 1, ← Nat.add_assoc]
    exact .head hpass hrest

/-- The node that the loop over the queue as a set leaves: there is one, and it is the merge loop's. -/
theorem mergesTo_iff {q : List Node} (hq : q ≠ []) (hids : FreshIds q.length q) {n : Node} :
    MergesTo q n ↔ mergeLoop (q.length - 1) q.length q = [n] := by
  constructor
  · rintro ⟨id, h⟩
    exact mergeLoop_of_passes h (List.Perm.refl q)
  · intro h
    have hpos := List.length_pos_of_ne_nil hq
    have hrun := passes_of_mergeLoop (k := q.length - 1) (by omega) hids
    rw [h] at hrun
    exact ⟨_, hrun⟩

theorem exists_mergesTo {q : List Node} (hq : q ≠ []) (hids : FreshIds q.length q) : ∃ n, MergesTo q n := by
  obtain ⟨n, hn, -⟩ := treeCodes_node hq
  exact ⟨n, (mergesTo_iff hq hids).mpr hn⟩

/-- Its members are the codes. -/
theorem MergesTo.treeCodes_eq {q : List Node} {n : Node} (h : MergesTo q n) (hq : q ≠ []) (hids : FreshIds q.length q) :
    treeCodes q = n.members := by
  rw [treeCodes, (mergesTo_iff hq hids).mp h]

/-- It weighs what the queue weighed (41_tree_builder.md R156). -/
theorem MergesTo.weight_eq {q : List Node} {n : Node} (h : MergesTo q n) (hq : q ≠ []) (hids : FreshIds q.length q) :
    n.weight = (q.map (·.weight)).sum := by
  have hsum := mergeLoop_weight (q.length - 1) q.length q
  rw [(mergesTo_iff hq hids).mp h] at hsum
  simpa using hsum

theorem leaves_ne_nil {ws : List (Nat × Nat)} (h : ws ≠ []) : leaves ws ≠ [] := by
  rw [← List.length_pos_iff, length_leaves]
  exact List.length_pos_iff.mpr h

theorem leaves_freshIds (ws : List (Nat × Nat)) : FreshIds ws.length (leaves ws) := by
  refine ⟨fun n hn => ?_, leaves_ids ws ▸ List.nodup_range⟩
  rw [← List.mem_range, ← leaves_ids]
  exact List.mem_map_of_mem hn

/-- The dummy takes the id after the leaves' (42_prefix_guard.md R181). -/
theorem guardedLeaves_freshIds (ws : List (Nat × Nat)) : FreshIds (ws.length + 1) (leaves ws ++ [dummyLeaf ws]) :=
  FreshIds.perm (FreshIds.cons (leaves_freshIds ws) rfl) (List.perm_append_singleton _ _).symm

/-- With the guard on the codes are the rewrite of the guarded merge's without the dummy (41_tree_builder.md R150). -/
theorem buildCodes_of_ne_nil {ws : List (Nat × Nat)} {rp : Bits} (h : rp ≠ []) :
    buildCodes ws rp = rewriteCollisions rp (removeDummy (treeCodes (leaves ws ++ [dummyLeaf ws]))) := if_neg h

/-- Settles O26: the runs of passes over the queue as a set end where the merge loop ends, whose members BUILD's codes are. -/
theorem buildMergesTheTwoSmallest : Obligations.BuildMergesTheTwoSmallest := by
  intro ws _ hws
  have hoff : FreshIds (leaves ws).length (leaves ws) := length_leaves ws ▸ leaves_freshIds ws
  have hon : FreshIds (leaves ws ++ [dummyLeaf ws]).length (leaves ws ++ [dummyLeaf ws]) := by
    rw [List.length_append, length_leaves]
    exact guardedLeaves_freshIds ws
  have hne := leaves_ne_nil hws
  have hne' : leaves ws ++ [dummyLeaf ws] ≠ [] := by simp
  refine ⟨exists_mergesTo hne hoff, fun n hn => ⟨?weight, fun h2 => ?codes⟩, exists_mergesTo hne' hon,
    fun n rp hn hrp => ?guarded⟩
  case weight => rw [hn.weight_eq hne hoff, leaves_weights]
  case codes => rw [buildCodes_off (Nat.ne_of_gt h2), hn.treeCodes_eq hne hoff]
  case guarded =>
    rw [buildCodes_of_ne_nil hrp, hn.treeCodes_eq hne' hon, rewriteCollisions, removeDummy]
    have hfilter : n.members.filter (fun c => c.1 != dummySymbol) = n.members.filter (fun m => m.1 ≠ 256) :=
      List.filter_congr fun m _ => by rw [Bool.eq_iff_iff, bne_iff_ne, decide_eq_true_iff]
    rw [hfilter]
    refine List.map_congr_left fun m _ => ?_
    simp only [startsWith_iff]
    split <;> rfl

/-! ## The arena -/

/-- The (weight, id) pair that the arena's queue holds for a node (41_tree_builder.md R159). -/
def Node.key (n : Node) : Nat × Nat := (n.weight, n.id)

theorem arenaExtractMin_map_key (q : List Node) :
    arenaExtractMin (q.map Node.key) = (extractMin q).map (fun p => (p.1.key, p.2.map Node.key)) := by
  induction q with
  | nil => rfl
  | cons x xs ih =>
    rw [List.map_cons, arenaExtractMin, ih, extractMin]
    rcases extractMin xs with _ | ⟨m, rest⟩
    · rfl
    · have hkey : arenaKeyLt x.key m.key = x.keyLt m := rfl
      simp only [Option.map_some, hkey]
      split <;> rfl

theorem getElem?_append_of_some {ar : List ArenaNode} {i : Nat} {n : ArenaNode} (h : ar[i]? = some n) (x : List ArenaNode) :
    (ar ++ x)[i]? = some n := (List.getElem?_append_left (List.getElem?_eq_some_iff.mp h).1).trans h

/-- The subtree of the arena below the node `id`, with the codes of its symbols; children come before their parent. -/
inductive ArenaTree (ar : List ArenaNode) : Nat → Codes → Prop where
  | leaf {id w a : Nat} (h : ar[id]? = some (.leaf w a)) : ArenaTree ar id [(a, [])]
  | merged {id w l r : Nat} {cl cr : Codes} (h : ar[id]? = some (.merged w l r)) (hl : l < id) (hr : r < id)
      (left : ArenaTree ar l cl) (right : ArenaTree ar r cr) :
      ArenaTree ar id (cl.map (fun m => (m.1, false :: m.2)) ++ cr.map (fun m => (m.1, true :: m.2)))

section ArenaTree
variable {ar : List ArenaNode} {id : Nat} {codes : Codes}

theorem ArenaTree.lt_length (h : ArenaTree ar id codes) : id < ar.length := by
  cases h with
  | leaf h => exact (List.getElem?_eq_some_iff.mp h).1
  | merged h => exact (List.getElem?_eq_some_iff.mp h).1

/-- A node put at the end of the arena leaves the subtrees before it. -/
theorem ArenaTree.append (h : ArenaTree ar id codes) (x : List ArenaNode) : ArenaTree (ar ++ x) id codes := by
  induction h with
  | leaf h => exact .leaf (getElem?_append_of_some h x)
  | merged h hl hr _ _ ihl ihr => exact .merged (getElem?_append_of_some h x) hl hr ihl ihr

/-- The paths read off the arena are the codes of the subtree: a node's depth is at most its id. -/
theorem ArenaTree.paths_eq (h : ArenaTree ar id codes) {fuel : Nat} (hf : id < fuel) : arenaPaths ar fuel id = codes := by
  induction h generalizing fuel with
  | leaf h =>
    obtain ⟨k, rfl⟩ := Nat.exists_eq_succ_of_ne_zero (Nat.ne_of_gt (Nat.zero_lt_of_lt hf))
    simp only [arenaPaths, h]
  | merged h hl hr _ _ ihl ihr =>
    obtain ⟨k, rfl⟩ := Nat.exists_eq_succ_of_ne_zero (Nat.ne_of_gt (Nat.zero_lt_of_lt hf))
    simp only [arenaPaths, h, ihl (fuel := k) (by omega), ihr (fuel := k) (by omega)]

end ArenaTree

/-- The arena holds the queue: each node's members are the codes of the subtree at its id, and the newest node is in the
queue. -/
structure ArenaHolds (ar : List ArenaNode) (q : List Node) : Prop where
  tree : ∀ n ∈ q, ArenaTree ar n.id n.members
  newest : ∃ n ∈ q, n.id + 1 = ar.length

/-- One merge in both forms (41_tree_builder.md R155, R159). -/
theorem ArenaHolds.merge {ar : List ArenaNode} {q q2 : List Node} {lo hi : Node} (h : ArenaHolds ar q)
    (hp : q.Perm (lo :: hi :: q2)) :
    ArenaHolds (ar ++ [.merged (lo.weight + hi.weight) lo.id hi.id]) (mergeNodes ar.length lo hi :: q2) := by
  have hlo := h.tree lo (hp.mem_iff.mpr (by simp))
  have hhi := h.tree hi (hp.mem_iff.mpr (by simp))
  refine ⟨fun n hn => ?_, mergeNodes ar.length lo hi, List.mem_cons_self, by simp [mergeNodes]⟩
  rcases List.mem_cons.mp hn with rfl | hn
  · exact .merged List.getElem?_concat_length hlo.lt_length hhi.lt_length (hlo.append _) (hhi.append _)
  · exact (h.tree n (hp.mem_iff.mpr (by simp [hn]))).append _

/-- The loop in both forms: the arena grows by one node a pass, and ends with the node the merge loop leaves. -/
theorem ArenaHolds.loop {k : Nat} {ar : List ArenaNode} {q : List Node} (h : ArenaHolds ar q) (hlen : q.length = k + 1) :
    (arenaLoop k ar (q.map Node.key)).length = ar.length + k ∧
      ArenaHolds (arenaLoop k ar (q.map Node.key)) (mergeLoop k ar.length q) := by
  induction k generalizing ar q with
  | zero => exact ⟨rfl, h⟩
  | succ k ih =>
    obtain ⟨lo, hi, q1, q2, h1, h2, hp, heq⟩ := mergeLoop_succ (q := q) (by omega) k ar.length
    have hstep : arenaLoop (k + 1) ar (q.map Node.key) =
        arenaLoop k (ar ++ [.merged (lo.weight + hi.weight) lo.id hi.id])
          ((mergeNodes ar.length lo hi :: q2).map Node.key) := by
      simp only [arenaLoop, arenaExtractMin_map_key, h1, h2, Option.map_some]
      rfl
    have hlen2 := hp.length_eq
    simp only [List.length_cons] at hlen2
    obtain ⟨hl, hh⟩ := ih (h.merge hp) (by simp only [List.length_cons]; omega)
    rw [List.length_append, List.length_singleton] at hl hh
    rw [hstep, heq]
    exact ⟨by omega, hh⟩

/-- The leaves in both forms (41_tree_builder.md R153, R159). -/
theorem arenaHolds_leaves {ws : List (Nat × Nat)} (hws : ws ≠ []) :
    ArenaHolds (ws.map (fun p => .leaf p.2 p.1)) (leaves ws) := by
  refine ⟨fun n hn => ?_, ?_⟩
  · obtain ⟨⟨p, i⟩, hp, rfl⟩ := List.mem_map.mp hn
    refine .leaf (w := p.2) ?_
    rw [List.getElem?_map, List.mem_zipIdx_iff_getElem?.mp hp]
    rfl
  · have hpos := List.length_pos_iff.mpr hws
    have hmem : ws.length - 1 ∈ (leaves ws).map (·.id) := by
      rw [leaves_ids, List.mem_range]
      omega
    obtain ⟨n, hn, hid⟩ := List.mem_map.mp hmem
    refine ⟨n, hn, ?_⟩
    rw [List.length_map]
    omega

/-- The arena of an alphabet: its size, and the codes read from its last node (41_tree_builder.md R159). -/
theorem arena_spec {ws : List (Nat × Nat)} (hws : ws ≠ []) :
    (arenaOf ws).length = 2 * ws.length - 1 ∧ arenaCodes ws = treeCodes (leaves ws) := by
  have hpos := List.length_pos_iff.mpr hws
  have hof : arenaOf ws = arenaLoop (ws.length - 1) (ws.map fun p => .leaf p.2 p.1) ((leaves ws).map Node.key) := by
    rw [arenaOf, leaves, List.map_map]
    rfl
  obtain ⟨hlen, hholds⟩ := (arenaHolds_leaves hws).loop (k := ws.length - 1) (by rw [length_leaves]; omega)
  rw [← hof, List.length_map] at hlen hholds
  obtain ⟨n, hn, htree⟩ := treeCodes_node (leaves_ne_nil hws)
  rw [length_leaves] at hn
  rw [hn] at hholds
  obtain ⟨m, hm, hnewest⟩ := hholds.newest
  obtain rfl := List.mem_singleton.mp hm
  refine ⟨by omega, ?_⟩
  rw [arenaCodes, htree, ← hnewest, Nat.add_sub_cancel]
  exact (hholds.tree m hm).paths_eq (Nat.lt_succ_self _)

/-- The dummy is the last leaf (42_prefix_guard.md R181). -/
theorem leaves_withDummy (ws : List (Nat × Nat)) : leaves (withDummy ws) = leaves ws ++ [dummyLeaf ws] := by
  rw [leaves, withDummy, List.zipIdx_append, List.map_append]
  simp [leaves, dummyLeaf]

/-- Settles O27: both loops make the same merges, and the leaves and the merges number the arena. -/
theorem arenaFormGivesTheSameCodes : Obligations.ArenaFormGivesTheSameCodes := by
  intro ws halpha hws
  obtain ⟨hlen, hcodes⟩ := arena_spec hws
  obtain ⟨hlen', hcodes'⟩ := arena_spec (ws := withDummy ws) (by simp [withDummy])
  have hsize : (withDummy ws).length = ws.length + 1 := by simp [withDummy]
  have h256 := halpha.length_le
  rw [leaves_withDummy] at hcodes'
  exact ⟨hcodes, hcodes', hlen, by omega, by omega, by omega⟩

/-! ## Functions of their inputs -/

/-- RP is a function of RPCFG (10_state.md R28, R29). -/
theorem State.rp_of_rpcfgWord {s s' : State} (h : s.rpcfgWord = s'.rpcfgWord) : s.rp = s'.rp := by
  obtain ⟨hlen, hval, -⟩ := s.rpcfgWord_fields
  obtain ⟨hlen', hval', -⟩ := s'.rpcfgWord_fields
  exact State.rp_of_rpcfg (by rw [← hlen, ← hlen', h]) (by rw [← hval, ← hval', h])

/-- The alphabet is a function of the elements of FREQ (41_tree_builder.md R150 line 2). -/
theorem State.weights_congr {s s' : State} (h : ∀ a, a < nSym → s.freqAt a = s'.freqAt a) : s.weights = s'.weights := by
  unfold State.weights
  exact congrArg _ (List.map_congr_left fun a ha => by rw [h a (List.mem_range.mp ha)])

/-- Two results leave related states, both ended or both raised. -/
def CommandResult.Match (R : State → State → Prop) : CommandResult → CommandResult → Prop
  | .ended u, .ended v => R u v
  | .raised u, .raised v => R u v
  | _, _ => False

section Match
variable {R : State → State → Prop} {r r' : CommandResult}

theorem CommandResult.Match.andThen {f g : State → CommandResult} (h : r.Match R r')
    (hfg : ∀ u v, R u v → (f u).Match R (g v)) : (r.andThen f).Match R (r'.andThen g) := by
  cases r <;> cases r'
  case ended.ended => exact hfg _ _ h
  case raised.raised => exact h
  all_goals exact absurd h id

theorem CommandResult.Match.next {t t' : State} (h : r.Match R r') (ht : r.outcome = .next t)
    (ht' : r'.outcome = .next t') : R t t' := by
  cases r <;> cases r' <;> cases ht <;> cases ht'
  case ended.ended => exact h
  case raised.raised => exact h
  all_goals exact absurd h id

/-- From the same alphabet and the same RP BUILD takes the same branch and writes the same entries, so what the fault latch and
the writes of CT keep of two states holds of the two results (41_tree_builder.md R162). -/
theorem build_match {s s' : State} (hw : s.weights = s'.weights) (hr : s.rp = s'.rp)
    (hclear : R { s with ct := [] } { s' with ct := [] })
    (hlatch : ∀ u v f info, R u v → R (u.latch f info) (v.latch f info))
    (hset : ∀ u v a e, R u v → R (u.setCt a e) (v.setCt a e)) : (build s).Match R (build s') := by
  have hwrite : ∀ (codes : Codes) u v, R u v → R (writeCodes codes u) (writeCodes codes v) := by
    intro codes
    induction codes with
    | nil => exact fun _ _ h => h
    | cons c codes ih => exact fun u v h => ih _ _ (hset u v _ _ h)
  have hws : ({ s with ct := [] } : State).weights = s'.weights := (State.weights_of_freq rfl).trans hw
  have hws' : ({ s' with ct := [] } : State).weights = s'.weights := State.weights_of_freq rfl
  have hrp : ({ s with ct := [] } : State).rp = s'.rp := hr
  have hrp' : ({ s' with ct := [] } : State).rp = s'.rp := rfl
  unfold build
  simp only [hws, hws', hrp, hrp', raise_eq]
  split
  · exact hlatch _ _ _ _ hclear
  split
  · exact hlatch _ _ _ _ hclear
  · exact hwrite _ _ _ hclear

end Match

/-- Two states that ENCODE's lines after BUILD do not tell apart: parameters, PAD, message, table, latch and stream. -/
structure EncodesAlike (s s' : State) : Prop where
  config : s.config = s'.config
  pad : s.pad = s'.pad
  message : s.message = s'.message
  ct : s.ct = s'.ct
  err : s.err = s'.err
  esLen : s.esLen = s'.esLen
  stream : s.stream = s'.stream

section EncodesAlike
variable {s s' t t' : State}

theorem EncodesAlike.latch (h : EncodesAlike s s') (f : FaultCode) (info info' : Word) :
    EncodesAlike (s.latch f info) (s'.latch f info') :=
  ⟨h.config, h.pad, h.message, h.ct, rfl, h.esLen, h.stream⟩

theorem EncodesAlike.setCt (h : EncodesAlike s s') (a : Nat) (e : CodeEntry) :
    EncodesAlike (s.setCt a e) (s'.setCt a e) :=
  ⟨h.config, h.pad, h.message, congrArg (Memory.write CodeEntry.invalid · a e) h.ct, h.err, h.esLen, h.stream⟩

/-- The same bits appended to both. -/
theorem EncodesAlike.appended (h : EncodesAlike s s') {b : Bits} (hb : Appended b s t) (hb' : Appended b s' t') :
    EncodesAlike t t' := by
  have hmsg : ∀ {u v : State}, Appended b u v → v.message = u.message := fun huv => by
    rw [huv.rest]
    exact State.message_congr rfl rfl
  refine ⟨?_, ?_, ?_, ?_, ?_, BitVec.eq_of_toNat_eq ?_, ?_⟩
  · rw [hb.rest, hb'.rest]; exact h.config
  · rw [hb.rest, hb'.rest]; exact h.pad
  · rw [hmsg hb, hmsg hb', h.message]
  · rw [hb.rest, hb'.rest]; exact h.ct
  · rw [hb.rest, hb'.rest]; exact h.err
  · rw [hb.esLen, hb'.esLen, h.esLen]
  · rw [hb.stream, hb'.stream, h.stream]

/-- What a command that appends `b` or raises Capacity can do: it needs room for all of it (00_scope.md R11). -/
def AppendsOrRaises (b : Bits) (s : State) (r : CommandResult) : Prop :=
  (s.esLen.toNat + b.length ≤ s.config.esMax.toNat ∧ ∃ t, r = .ended t ∧ Appended b s t) ∨
    (s.config.esMax.toNat < s.esLen.toNat + b.length ∧ r = .raised (s.latch .capacity s.esLen))

theorem EncodesAlike.match_of_appends (h : EncodesAlike s s') {b : Bits} {r r' : CommandResult}
    (hr : AppendsOrRaises b s r) (hr' : AppendsOrRaises b s' r') : r.Match EncodesAlike r' := by
  unfold AppendsOrRaises at hr
  rw [h.esLen, h.config] at hr
  rcases hr with ⟨hfit, t, rfl, hb⟩ | ⟨hfull, rfl⟩ <;> rcases hr' with ⟨hfit', t', rfl, hb'⟩ | ⟨hfull', rfl⟩
  · exact h.appended hb hb'
  · omega
  · omega
  · rw [← h.esLen]
    exact h.latch _ _ _

theorem EncodesAlike.esAppend_match (h : EncodesAlike s s') (b : Bits) :
    (esAppend b s).Match EncodesAlike (esAppend b s') :=
  h.match_of_appends (esAppend_cases b s) (esAppend_cases b s')

theorem serhdr_appendsOrRaises (s : State) : AppendsOrRaises s.header s (serhdr s) := by
  rw [AppendsOrRaises, State.length_header, ← Nat.add_assoc]
  exact serhdr_cases s

theorem EncodesAlike.serhdr_match (h : EncodesAlike s s') : (serhdr s).Match EncodesAlike (serhdr s') :=
  h.match_of_appends (serhdr_appendsOrRaises s) ((State.header_of_ct h.ct).1 ▸ serhdr_appendsOrRaises s')

theorem EncodesAlike.packFrom_match (h : EncodesAlike s s') (m : List Byte) (i : Nat) :
    (packFrom i m s).Match EncodesAlike (packFrom i m s') := by
  induction m generalizing i s s' with
  | nil => exact h
  | cons a m ih =>
    rw [packFrom, packFrom, State.ctAt_of_ct h.ct]
    split
    · exact (h.esAppend_match _).andThen fun u v huv => ih huv (i + 1)
    · exact h.latch _ _ _

theorem EncodesAlike.padLoop_match (h : EncodesAlike s s') (k : Nat) :
    (padLoop k s).Match EncodesAlike (padLoop k s') := by
  induction k generalizing s s' with
  | zero => exact h
  | succ k ih =>
    rw [padLoop, padLoop, h.esLen]
    split
    · exact h
    · exact (h.esAppend_match _).andThen fun u v huv => ih huv

/-- ENCODE from COUNT on reads the message, RPCFG, PAD and the parameters only (41_tree_builder.md R162). -/
theorem encodeFlow_match (hmsg : s.message = s'.message) (hrp : s.rp = s'.rp) (hpad : s.pad = s'.pad)
    (hcfg : s.config = s'.config) (herr : s.err = s'.err) : (encodeFlow s).Match EncodesAlike (encodeFlow s') := by
  obtain ⟨u, hu, hframe, hw, -⟩ := count_spec { s with esLen := 0#32 }
  obtain ⟨u', hu', hframe', hw', -⟩ := count_spec { s' with esLen := 0#32 }
  have hbuild : (build u).Match EncodesAlike (build u') := by
    refine build_match (hw.trans ((congrArg alphabetOf hmsg).trans hw'.symm)) ?rp ?clear
      (fun _ _ f info h => h.latch f info info) fun _ _ a e h => h.setCt a e
    case rp => rw [hframe, hframe']; exact hrp
    case clear => rw [hframe, hframe']; exact ⟨hcfg, hpad, hmsg, rfl, herr, rfl, rfl⟩
  unfold encodeFlow
  rw [hu, hu', CommandResult.ended_andThen, CommandResult.ended_andThen]
  refine ((hbuild.andThen fun _ _ h => h.serhdr_match).andThen fun v v' h => ?pack).andThen fun v v' h => ?pad
  case pack =>
    unfold pack
    rw [h.message]
    exact h.packFrom_match _ 0
  case pad =>
    rw [h.pad]
    split
    · exact h.padLoop_match 7
    · exact h

end EncodesAlike

/-- Settles O32: BUILD reads FREQ and RPCFG only, and ENCODE the message, RPCFG, PAD and the parameters. -/
theorem buildDependsOnFreqAndRpcfg : Obligations.BuildDependsOnFreqAndRpcfg := by
  refine ⟨fun s s' t t' hfreq hrp hx hx' a => ?build, fun s s' t t' hmsg hrp hpad hcfg herr herr' hx hx' => ?encode⟩
  case build =>
    have hmatch : (build s).Match (fun u v => u.ct = v.ct) (build s') :=
      build_match (State.weights_congr hfreq) (State.rp_of_rpcfgWord hrp) rfl (fun _ _ _ _ h => h)
        fun _ _ a e h => congrArg (Memory.write CodeEntry.invalid · a e) h
    exact State.ctAt_of_ct (hmatch.next hx hx') a
  case encode =>
    have halike := (encodeFlow_match hmsg (State.rp_of_rpcfgWord hrp) hpad hcfg (herr.trans herr'.symm)).next hx hx'
    exact ⟨halike.err, halike.esLen, halike.stream⟩

end Sys2Proof.Machine
end
section
/-! PROOFS. The family 42_prefix_guard.md: the code of an alphabet of one symbol, the codes with the guard on against RP and
against the codes with it off, and what reads RP and the encoder's tables. -/

namespace Sys2Proof.Machine

/-! ## The code of one symbol -/

/-- An alphabet of one symbol (42_prefix_guard.md R185). -/
theorem State.weights_of_single {s : State} {a : Nat} (ha : a < 256) (hne : s.freqAt a ≠ 0#32)
    (hzero : ∀ b, b < 256 → b ≠ a → s.freqAt b = 0#32) : s.weights = [(a, (s.freqAt a).toNat)] := by
  have hmem : ∀ p, p ∈ s.weights ↔ p ∈ [(a, (s.freqAt a).toNat)] := fun ⟨b, w⟩ => by
    rw [List.mem_singleton, Prod.mk.injEq]
    constructor
    · intro hp
      obtain ⟨hb, hb0⟩ := State.exists_mem_weights.mp ⟨w, hp⟩
      obtain rfl : b = a := by_contra fun hba => hb0 (hzero b hb hba)
      exact ⟨rfl, (State.mem_weights.mp hp).2.1⟩
    · rintro ⟨rfl, rfl⟩
      exact State.mem_weights.mpr ⟨ha, rfl, fun h => hne (BitVec.eq_of_toNat_eq h)⟩
  exact List.perm_singleton.mp
    ((List.perm_ext_iff_of_nodup s.weights_alphabet.nodup.of_map (List.nodup_singleton _)).mpr hmem)

/-- Its code "0" collides with RP = "0" only (42_prefix_guard.md R185; guard off, 41_tree_builder.md R158). -/
theorem buildCodes_singleton (w : Nat × Nat) (hw : w.1 < nSym) (rp : Bits) :
    buildCodes [w] rp = [(w.1, if rp = [false] then [true] else [false])] := by
  by_cases hrp : rp = []
  · subst hrp
    rfl
  · have hcollides : startsWith [false] rp = true ↔ rp = [false] := by
      rw [startsWith_iff]
      refine ⟨fun h => ?_, fun h => h ▸ List.prefix_rfl⟩
      exact h.eq_of_length_le (List.length_pos_iff.mpr hrp)
    have hsymbols : ∀ p ∈ [w], p.1 < nSym := fun p hp => List.mem_singleton.mp hp ▸ hw
    rw [buildCodes_on (List.cons_ne_nil w []) hsymbols hrp, treeCodes_single]
    show [if startsWith [false] rp = true then (w.1, [true]) else (w.1, [false])] = _
    rw [← apply_ite (Prod.mk w.1), if_congr hcollides rfl rfl]

/-- Settles O25: the one code is short, so BUILD ends and writes it alone. -/
theorem buildOfOneSymbol : Obligations.BuildOfOneSymbol := by
  intro s a ha hne hzero
  have hws := State.weights_of_single ha hne hzero
  have hcodes := buildCodes_singleton (a, (s.freqAt a).toNat) ha s.rp
  rw [← hws] at hcodes
  have hshort : ∀ b c, (b, c) ∈ buildCodes s.weights s.rp → c.length ≤ 15 := fun b c hc => by
    rw [hcodes, List.mem_singleton] at hc
    rw [(Prod.mk.inj hc).2, apply_ite List.length, List.length_singleton, List.length_singleton, ite_self]
    omega
  obtain ⟨t, ht, hframe, -⟩ := build_fits (hws ▸ List.cons_ne_nil _ _) hshort
  have hbuilt := (build_builtCodes ht).2
  obtain ⟨hvalid, hcode, -⟩ := hbuilt.code a _ (hcodes ▸ List.mem_singleton_self _)
  refine ⟨t, congrArg CommandResult.outcome ht, hframe, hvalid, hcode, fun b hba => hbuilt.inval b ?_⟩
  refine Bool.eq_false_iff.mpr fun hb => hba ?_
  obtain ⟨w, hw⟩ := (hbuilt.alpha b).mp hb
  rw [hws, List.mem_singleton] at hw
  exact congrArg Prod.fst hw

/-! ## The guard on -/

/-- Settles O30: the rewrite leaves no code that starts with RP, and CT holds no others. -/
theorem buildAvoidsReservedPrefix : Obligations.BuildAvoidsReservedPrefix := by
  intro s t hon hx hn a _ hv
  exact buildCodes_avoid (State.rp_ne_nil.mp hon) ((builtCodes_of_exec hx hn).2.mem a hv)

/-- Each code with the guard on is "0" and the code with the guard off, first bit flipped on a collision (42_prefix_guard.md R182,
R184). -/
theorem guardedCode_mem_buildCodes {ws : List (Nat × Nat)} {rp : Bits} (h2 : 2 ≤ ws.length) (hs : ∀ p ∈ ws, p.1 < nSym)
    (hrp : rp ≠ []) {a : Nat} {c : Bits} (h : (a, c) ∈ buildCodes ws []) :
    (a, if rp <+: false :: c then true :: c else false :: c) ∈ buildCodes ws rp := by
  have hws : ws ≠ [] := List.length_pos_iff.mp (by omega)
  rw [buildCodes_off (by omega)] at h
  rw [buildCodes_on hws hs hrp]
  refine mem_rewriteCollisions.mpr ⟨false :: c, List.mem_map_of_mem (f := fun m => (m.1, false :: m.2)) h, ?_⟩
  exact (if_congr (startsWith_iff _ _) rfl rfl).symm

/-- The codes with the guard off fit when those with the guard on do, being one bit shorter (42_prefix_guard.md R182). -/
theorem length_lt_of_guarded {ws : List (Nat × Nat)} {rp : Bits} {n : Nat} (h2 : 2 ≤ ws.length) (hs : ∀ p ∈ ws, p.1 < nSym)
    (hrp : rp ≠ []) (hn : ∀ a c, (a, c) ∈ buildCodes ws rp → c.length ≤ n) {a : Nat} {c : Bits}
    (h : (a, c) ∈ buildCodes ws []) : c.length < n := by
  have hlen := hn a _ (guardedCode_mem_buildCodes h2 hs hrp h)
  rwa [apply_ite List.length, List.length_cons, List.length_cons, ite_self] at hlen

/-- Two symbols of weight not 0. -/
theorem State.two_le_length_weights {s : State} {a b : Nat} (ha : a < 256) (hb : b < 256) (hab : a ≠ b)
    (hane : s.freqAt a ≠ 0#32) (hbne : s.freqAt b ≠ 0#32) : 2 ≤ s.weights.length := by
  obtain ⟨v, hv⟩ := State.exists_mem_weights.mpr ⟨ha, hane⟩
  obtain ⟨w, hw⟩ := State.exists_mem_weights.mpr ⟨hb, hbne⟩
  have hsub : [(a, v), (b, w)] ⊆ s.weights := by simp [hv, hw]
  have hnodup : [(a, v), (b, w)].Nodup := by simp [hab]
  exact (hnodup.subperm hsub).length_le

/-- Settles O31: the codes with the guard off fit too, and both tables hold the codes of the same alphabet. -/
theorem guardedCodesExtendUnguarded : Obligations.GuardedCodesExtendUnguarded := by
  intro s t a b hon ha hb hab hane hbne hx hn
  obtain ⟨hended, herr⟩ := build_of_exec hx hn
  obtain ⟨hw, hlen⟩ := build_ended hended
  have hbuilt := (build_builtCodes hended).2
  have h2 := State.two_le_length_weights ha hb hab hane hbne
  have hsymbols := s.weights_alphabet.symbols
  have hrp := State.rp_ne_nil.mp hon
  have hweights : ({ s with rpLen := 0#4 } : State).weights = s.weights := State.weights_of_freq rfl
  have hoff : ({ s with rpLen := 0#4 } : State).rp = [] := State.rp_eq_nil rfl
  obtain ⟨u, hu, hframe, -⟩ := build_fits (s := { s with rpLen := 0#4 }) (hweights ▸ hw) fun x c hc => by
    rw [hweights, hoff] at hc
    exact (length_lt_of_guarded h2 hsymbols hrp hlen hc).le
  have hbuilt' := (build_builtCodes hu).2
  have hvalid : ∀ x, (t.ctAt x).valid = (u.ctAt x).valid := fun x => by
    rw [Bool.eq_iff_iff, hbuilt.alpha, hbuilt'.alpha, hweights]
  refine ⟨u, congrArg CommandResult.outcome hu, by rw [hframe]; exact herr, fun x _ => ⟨hvalid x, fun hv => ?_⟩⟩
  have hcode := hbuilt'.mem x (hvalid x ▸ hv)
  rw [hweights, hoff] at hcode
  exact (hbuilt.code x _ (guardedCode_mem_buildCodes h2 hsymbols hrp hcode)).2.1

/-! ## What reads RP and the encoder's tables -/

/-- Other contents of the encoder's registers and tables: a new RPCFG, and PAD, FREQ and CT by functions of what they held, so
that one edit can keep them (the identity) and another replace them (a constant). -/
structure EncoderEdit where
  rpLen : BitVec 4
  rpVal : BitVec 15
  pad : Bool → Bool
  freq : List (Nat × Word) → List (Nat × Word)
  ct : List (Nat × CodeEntry) → List (Nat × CodeEntry)

/-- A new RPCFG alone. -/
def EncoderEdit.ofRpcfg (l : BitVec 4) (v : BitVec 15) : EncoderEdit := ⟨l, v, id, id, id⟩

/-- The state with the edit made: every other field is as it was. -/
def EncoderEdit.apply (e : EncoderEdit) (s : State) : State :=
  { s with rpLen := e.rpLen, rpVal := e.rpVal, pad := e.pad s.pad, freq := e.freq s.freq, ct := e.ct s.ct }

/-- The edit changes nothing else in what `g` leaves: the edited state leads to the edited result, ended or raised alike. -/
def EncoderEdit.Commutes (e : EncoderEdit) (g : State → CommandResult) : Prop :=
  ∀ s, (g s).Match (fun u v => v = e.apply u) (g (e.apply s))

/-- Two results that branch on the same test. In the proofs below `Iff.rfl` says that the test reads no field of the edit. -/
theorem CommandResult.Match.ite {R : State → State → Prop} {p p' : Prop} [Decidable p] [Decidable p']
    {r r' q q' : CommandResult} (hp : p ↔ p') (hr : r.Match R r') (hq : q.Match R q') :
    (if p then r else q).Match R (if p' then r' else q') := by
  by_cases h : p
  · rwa [if_pos h, if_pos (hp.mp h)]
  · rwa [if_neg h, if_neg (mt hp.mpr h)]

section EncoderEdit
variable {e : EncoderEdit} {g h : State → CommandResult} {s t : State}

theorem EncoderEdit.Commutes.andThen (hg : e.Commutes g) (hh : e.Commutes h) : e.Commutes fun s => (g s).andThen h :=
  fun s => (hg s).andThen fun u _ huv => huv ▸ hh u

theorem EncoderEdit.Commutes.next (hg : e.Commutes g) (ht : (g s).outcome = .next t) :
    (g (e.apply s)).outcome = .next (e.apply t) :=
  congrArg Host.Outcome.next ((hg s).next ht rfl)

/-! ### The stream -/

theorem EncoderEdit.setEsBits_apply (s : State) (p : Nat) (b : Bits) :
    (e.apply s).setEsBits p b = e.apply (s.setEsBits p b) := by
  induction b generalizing s p with
  | nil => rfl
  | cons x b ih => exact ih (s.setEsBit p x) (p + 1)

theorem EncoderEdit.esAppend_commutes (b : Bits) : e.Commutes (esAppend b) := by
  intro s
  refine .ite Iff.rfl rfl ?_
  exact congrArg (fun u : State => { u with esLen := BitVec.ofNat 32 (s.esLen.toNat + b.length) }) (setEsBits_apply s _ b)

theorem EncoderEdit.esAppendAll_commutes (bs : List Bits) : e.Commutes (esAppendAll bs) := by
  induction bs with
  | nil => exact fun _ => rfl
  | cons b bs ih => exact (esAppend_commutes b).andThen ih

theorem EncoderEdit.padLoop_commutes (k : Nat) : e.Commutes (padLoop k) := by
  induction k with
  | zero => exact fun _ => rfl
  | succ k ih => exact fun s => .ite Iff.rfl rfl ((esAppend_commutes [false]).andThen ih s)

/-- PACK reads CT, so the edit must keep it; it may change the other fields. -/
theorem EncoderEdit.packFrom_commutes (hct : e.ct = id) (m : List Byte) (i : Nat) : e.Commutes (packFrom i m) := by
  induction m generalizing i with
  | nil => exact fun _ => rfl
  | cons a m ih =>
    intro s
    have hcode : (e.apply s).ctAt a.toNat = s.ctAt a.toNat := State.ctAt_of_ct (congrFun hct s.ct) _
    rw [packFrom, packFrom, hcode]
    exact .ite Iff.rfl ((esAppend_commutes _).andThen (ih (i + 1)) s) rfl

/-- SERHDR reads CT, so the edit must keep it. -/
theorem EncoderEdit.serhdr_commutes (hct : e.ct = id) : e.Commutes serhdr := by
  intro s
  have hs : (e.apply s).ct = s.ct := congrFun hct s.ct
  have hentry : (e.apply s).entryBits = s.entryBits := by
    funext a
    rw [State.entryBits, State.entryBits, State.ctAt_of_ct hs]
  rw [serhdr, serhdr, (State.header_of_ct hs).2, State.canonicalOrder_of_ct hs, hentry]
  exact .ite Iff.rfl rfl (esAppendAll_commutes _ s)

/-! ### The message -/

theorem EncoderEdit.writeChunks_apply (js : List Nat) (s : State) :
    writeChunks js (e.apply s) = e.apply (writeChunks js s) := by
  induction js generalizing s with
  | nil => rfl
  | cons j js ih => exact ih (s.setMsg j (BitVec.ofNat 8 (val (s.chunk j))))

theorem EncoderEdit.realign_commutes : e.Commutes realign := by
  intro s
  refine .ite Iff.rfl rfl ?_
  exact congrArg (fun u : State => { u with msgLen := BitVec.ofNat 32 s.chunkCount }) (writeChunks_apply _ s)

theorem EncoderEdit.countSymbols_apply (hfreq : e.freq = id) (syms : List Byte) (s : State) :
    countSymbols syms (e.apply s) = e.apply (countSymbols syms s) := by
  induction syms generalizing s with
  | nil => rfl
  | cons a syms ih =>
    have hset : (e.apply s).setFreq a.toNat ((e.apply s).freqAt a.toNat + 1#32) =
        e.apply (s.setFreq a.toNat (s.freqAt a.toNat + 1#32)) := by
      simp [EncoderEdit.apply, State.setFreq, State.freqAt, hfreq]
    exact (congrArg (countSymbols syms) hset).trans (ih _)

/-- COUNT writes FREQ, so the edit must keep it. -/
theorem EncoderEdit.count_commutes (hfreq : e.freq = id) : e.Commutes count := by
  intro s
  have hclear : ({ e.apply s with freq := [] } : State) = e.apply { s with freq := [] } := by
    simp [EncoderEdit.apply, hfreq]
  exact (congrArg (countSymbols s.message) hclear).trans (countSymbols_apply hfreq _ _)

theorem EncoderEdit.msgAppend_commutes (v : Byte) : e.Commutes (msgAppend v) :=
  fun _ => .ite Iff.rfl rfl rfl

theorem EncoderEdit.scanLoop_commutes (k : Nat) (c : Bits) (n : Nat) : e.Commutes (scanLoop k c n) := by
  induction k generalizing c n with
  | zero => exact fun s => .ite Iff.rfl rfl rfl
  | succ k ih =>
    have hafter : e.Commutes fun u =>
        if u.symLim ≠ 0#32 ∧ n + 1 = u.symLim.toNat then .ended u else scanLoop k [] (n + 1) u :=
      fun u => .ite Iff.rfl rfl (ih [] (n + 1) u)
    exact fun s => .ite Iff.rfl ((msgAppend_commutes _).andThen hafter (s.skip 1)) (ih _ n (s.skip 1))

theorem EncoderEdit.scan_commutes : e.Commutes scan :=
  fun s => scanLoop_commutes s.avail [] 0 s

/-! ### The header -/

theorem EncoderEdit.parseEntries_commutes (k fin : Nat) : e.Commutes (parseEntries k fin) := by
  induction k with
  | zero => exact fun _ => rfl
  | succ k ih => exact fun s => .ite Iff.rfl rfl (.ite Iff.rfl rfl (.ite Iff.rfl rfl (ih _)))

theorem EncoderEdit.deshdr_commutes : e.Commutes deshdr :=
  fun _ => .ite Iff.rfl rfl (.ite Iff.rfl rfl (parseEntries_commutes _ _ _))

theorem EncoderEdit.decodeFlow_commutes : e.Commutes decodeFlow :=
  fun s => deshdr_commutes.andThen scan_commutes { s with rdPtr := 0#32, msgLen := 0#32 }

end EncoderEdit

/-- Settles O56: a change of RPCFG alone commutes with the seven commands, one of all that only the encoder reads with DECODE. -/
theorem decodingIgnoresTheEncoder : Obligations.DecodingIgnoresTheEncoder := by
  refine ⟨fun i s t l v hi hx => ?rpcfg, fun s t l v pad freq ct hx => ?decode⟩
  case rpcfg =>
    rcases hi with rfl | rfl | rfl | rfl | rfl | rfl | rfl
    · exact (EncoderEdit.serhdr_commutes (e := .ofRpcfg l v) rfl).next hx
    · exact (EncoderEdit.packFrom_commutes (e := .ofRpcfg l v) rfl s.message 0).next hx
    · exact (EncoderEdit.padLoop_commutes (e := .ofRpcfg l v) 7).next hx
    · exact (EncoderEdit.deshdr_commutes (e := .ofRpcfg l v)).next hx
    · exact (EncoderEdit.scan_commutes (e := .ofRpcfg l v)).next hx
    · exact (EncoderEdit.realign_commutes (e := .ofRpcfg l v)).next hx
    · exact (EncoderEdit.count_commutes (e := .ofRpcfg l v) rfl).next hx
  case decode =>
    exact (EncoderEdit.decodeFlow_commutes (e := ⟨l, v, fun _ => pad, fun _ => freq, fun _ => ct⟩)).next hx

end Sys2Proof.Machine
end
section
/-! PROOFS. The family 43_header_codec.md: what SERHDR appends, what DESHDR parses and where it raises, and the round trip. -/

namespace Sys2Proof.Machine

/-! ## SERHDR -/

/-- Settles O34: CT has one canonical order, so `serhdr_cases` speaks of the given one. -/
theorem serhdrAppendsTheHeader : Obligations.SerhdrAppendsTheHeader := by
  refine ⟨fun s => ⟨_, s.isCanonicalOrder, fun _ h => s.isCanonicalOrder.unique h⟩, fun s order ho => ?_, rfl⟩
  obtain rfl := s.isCanonicalOrder.unique ho
  have hlen : s.hlenOf s.canonicalOrder = s.hlen := rfl
  rw [hlen]
  rcases serhdr_cases s with ⟨hfits, t, ht, happ⟩ | ⟨hover, hr⟩
  · refine ⟨fun _ => ⟨t, congrArg CommandResult.outcome ht, happ, ?_⟩, fun hover => by omega, s.hlen_le⟩
    rw [happ.esLen, s.length_header, Nat.add_assoc]
  · exact ⟨fun hfits => by omega, fun _ => congrArg CommandResult.outcome hr, s.hlen_le⟩

/-- A SERHDR that leaves no fault has appended the header. -/
theorem appended_of_exec_serhdr {s t : State} (hx : exec .serhdr s = .next t) (hn : t.err = none) : Appended s.header s t := by
  have hstate : (serhdr s).state = t := Host.Outcome.next.inj hx
  rcases serhdr_cases s with ⟨-, u, hu, happ⟩ | ⟨-, hr⟩
  · rw [hu] at hstate
    exact hstate ▸ happ
  · rw [hr] at hstate
    exact absurd hn (hstate ▸ nofun)

/-! ## DESHDR -/

/-- The state in which DESHDR starts on the entries: DT invalidated, the length field consumed (43_header_codec.md R210). -/
def State.atEntries (s : State) : State := ({ s with dt := [] } : State).skip 16

theorem State.atEntries_rdPtr {s : State} (h : s.rdPtr.toNat + 16 ≤ s.esLen.toNat) :
    s.atEntries.rdPtr.toNat = s.rdPtr.toNat + 16 :=
  State.skip_rdPtr (s := { s with dt := [] }) (Nat.lt_of_le_of_lt h s.esLen.isLt)

/-- All that DESHDR can do before the first entry (43_header_codec.md R210). -/
theorem deshdr_cases (s : State) :
    (s.esLen.toNat < s.rdPtr.toNat + 16 ∧
      deshdr s = .raised (({ s with dt := [] } : State).latch .malformedHeader s.rdPtr)) ∨
    (s.rdPtr.toNat + 16 ≤ s.esLen.toNat ∧ s.esLen.toNat < s.rdPtr.toNat + 16 + val (s.esBits s.rdPtr.toNat 16) ∧
      deshdr s = .raised (s.atEntries.latch .malformedHeader s.atEntries.rdPtr)) ∨
    (s.rdPtr.toNat + 16 + val (s.esBits s.rdPtr.toNat 16) ≤ s.esLen.toNat ∧
      deshdr s = parseEntries (val (s.esBits s.rdPtr.toNat 16) / 12 + 1)
        (s.rdPtr.toNat + 16 + val (s.esBits s.rdPtr.toNat 16)) s.atEntries) := by
  have havail : ({ s with dt := [] } : State).avail = s.esLen.toNat - s.rdPtr.toNat := State.avail_eq _
  by_cases hfield : s.esLen.toNat < s.rdPtr.toNat + 16
  · exact .inl ⟨hfield, if_pos (by omega)⟩
  have hrd := State.atEntries_rdPtr (s := s) (by omega)
  have havail' : s.atEntries.avail = s.esLen.toNat - s.atEntries.rdPtr.toNat := State.avail_eq _
  have hpast : deshdr s = if s.atEntries.avail < val (s.esBits s.rdPtr.toNat 16)
      then raise .malformedHeader s.atEntries.rdPtr s.atEntries
      else parseEntries (val (s.esBits s.rdPtr.toNat 16) / 12 + 1)
        (s.atEntries.rdPtr.toNat + val (s.esBits s.rdPtr.toNat 16)) s.atEntries := if_neg (by omega)
  by_cases hlen : s.esLen.toNat < s.rdPtr.toNat + 16 + val (s.esBits s.rdPtr.toNat 16)
  · exact .inr (.inl ⟨by omega, hlen, hpast.trans (if_pos (by omega))⟩)
  · exact .inr (.inr ⟨by omega, hrd ▸ hpast.trans (if_neg (by omega))⟩)

/-- The entry loop of a header that ends by ESLEN. -/
theorem deshdr_fits {s : State} {n : Nat} (hv : val (s.esBits s.rdPtr.toNat 16) = n)
    (hr : s.rdPtr.toNat + 16 + n ≤ s.esLen.toNat) :
    deshdr s = parseEntries (n / 12 + 1) (s.rdPtr.toNat + 16 + n) s.atEntries := by
  subst hv
  rcases deshdr_cases s with ⟨h, -⟩ | ⟨-, h, -⟩ | ⟨-, h⟩
  · omega
  · omega
  · exact h

/-- Whole entries at RDPTR take one pass each: the loop goes on behind them, with DT holding them (43_header_codec.md R210,
R212). -/
theorem parseEntries_wholeEntries {s : State} {fin : Nat} {es : List (Byte × Bits)} (hdt : s.dt = [])
    (hl : ∀ e ∈ es, e.2.length ≤ 15) (hb : s.esBits s.rdPtr.toNat (es.flatMap headerEntry).length = es.flatMap headerEntry)
    (hfin : s.rdPtr.toNat + (es.flatMap headerEntry).length ≤ fin) (hmax : fin < 2 ^ 32) :
    ∃ t, (∀ k, parseEntries (es.length + k) fin s = parseEntries k fin t) ∧ t = { s with dt := t.dt, rdPtr := t.rdPtr } ∧
      t.rdPtr.toNat = s.rdPtr.toNat + (es.flatMap headerEntry).length ∧ ∀ j, t.dtAt j = decodeEntryOf es j := by
  induction es using List.reverseRecOn with
  | nil => exact ⟨s, fun k => by rw [List.length_nil, Nat.zero_add], rfl, rfl, fun j => by rw [State.dtAt, hdt]; rfl⟩
  | append_singleton es e ih =>
    rw [List.flatMap_append, List.flatMap_singleton, List.length_append] at hb hfin
    rw [State.esBits_add] at hb
    obtain ⟨hbefore, hentry⟩ := List.append_inj hb (by simp)
    obtain ⟨t, ht, hrest, hrd, hentries⟩ := ih (fun x hx => hl x (by simp [hx])) hbefore (by omega)
    have hbits : t.esBits t.rdPtr.toNat (headerEntry e).length = headerEntry e := by
      rw [hrd, State.esBits_of_es (s := s) (by rw [hrest])]
      exact hentry
    refine ⟨(t.setDt (idx e.2) { valid := true, sym := e.1 }).skip (headerEntry e).length, fun k => ?_, ?_, ?_, fun j => ?_⟩
    · rw [List.length_append, List.length_singleton, Nat.add_assoc, Nat.add_comm 1 k, ht,
        parseEntries_entry (hl e (by simp)) hbits (by omega)]
    · rw [hrest]; rfl
    · rw [State.skip_rdPtr (by rw [State.setDt_rdPtr]; omega), State.setDt_rdPtr, hrd, List.flatMap_append,
        List.flatMap_singleton, List.length_append, Nat.add_assoc]
    · rw [State.dtAt_skip, State.dtAt_setDt, decodeEntryOf_append_single, hentries]
      exact if_congr eq_comm rfl rfl

/-- An incomplete entry at RDPTR, fewer than 12 bits or with its code cut off, is malformed (43_header_codec.md R210). -/
theorem parseEntries_incomplete {s : State} {part : Bits} (k : Nat) (hb : s.esBits s.rdPtr.toNat part.length = part)
    (hne : part ≠ []) (hcut : part.length < 12 ∨ part.length < 12 + val ((part.drop 8).take 4)) :
    parseEntries (k + 1) (s.rdPtr.toNat + part.length) s = .raised (s.latch .malformedHeader s.rdPtr) := by
  have hpos := List.length_pos_iff.mpr hne
  rw [parseEntries, if_neg (by omega), Nat.add_sub_cancel_left]
  by_cases hshort : part.length < 12
  · exact if_pos hshort
  · have hfield : s.esBits (s.rdPtr.toNat + 8) 4 = (part.drop 8).take 4 := by
      have hsplit : part.take 8 ++ (part.drop 8).take 4 ++ (part.drop 8).drop 4 = part := by
        rw [List.append_assoc, List.take_append_drop, List.take_append_drop]
      have hpart := State.esBits_part (hb.trans hsplit.symm)
      rwa [List.length_take_of_le (by omega), List.length_take_of_le (by rw [List.length_drop]; omega)] at hpart
    rw [if_neg hshort]
    dsimp only
    rw [hfield]
    exact if_pos (hcut.resolve_left hshort)

/-- Settles O35: `deshdr_whole` says it. -/
theorem deshdrParsesTheEntries : Obligations.DeshdrParsesTheEntries := by
  intro s es hl hh hr hb
  obtain ⟨t, ht, hspec⟩ := deshdr_whole hl hh hr hb
  exact ⟨t, congrArg CommandResult.outcome ht, hspec⟩

/-- DESHDR of a header that ends in an incomplete entry raises at that entry (43_header_codec.md R211). -/
theorem deshdr_incomplete {s : State} {es : List (Byte × Bits)} {part : Bits} (hl : ∀ e ∈ es, e.2.length ≤ 15)
    (hh : (es.flatMap headerEntry ++ part).length < 2 ^ 16)
    (hr : s.rdPtr.toNat + 16 + (es.flatMap headerEntry ++ part).length ≤ s.esLen.toNat)
    (hb : s.esBits s.rdPtr.toNat (16 + (es.flatMap headerEntry ++ part).length) =
      bitsOf 16 (es.flatMap headerEntry ++ part).length ++ (es.flatMap headerEntry ++ part))
    (hne : part ≠ []) (hcut : part.length < 12 ∨ part.length < 12 + val ((part.drop 8).take 4)) :
    ∃ u : State, deshdr s = .raised (u.latch .malformedHeader u.rdPtr) ∧ u = { s with dt := u.dt, rdPtr := u.rdPtr } ∧
      u.rdPtr.toNat = s.rdPtr.toNat + 16 + (es.flatMap headerEntry).length ∧ ∀ k, u.dtAt k = decodeEntryOf es k := by
  have hlt := s.esLen.isLt
  have hcount := length_le_flatMap_headerEntry es
  rw [State.esBits_add] at hb
  obtain ⟨hfield, hbody⟩ := List.append_inj hb (by simp)
  have hv : val (s.esBits s.rdPtr.toNat 16) = (es.flatMap headerEntry ++ part).length := by rw [hfield, val_bitsOf hh]
  rw [List.length_append] at hr hbody hv
  rw [State.esBits_add] at hbody
  obtain ⟨hentries, hpart⟩ := List.append_inj hbody (by simp)
  have hrd := State.atEntries_rdPtr (s := s) (by omega)
  obtain ⟨u, hu, hrest, hu_rd, hdt⟩ := parseEntries_wholeEntries (s := s.atEntries) (es := es)
    (fin := s.rdPtr.toNat + 16 + ((es.flatMap headerEntry).length + part.length)) rfl hl (hrd ▸ hentries)
    (by omega) (by omega)
  rw [hrd] at hu_rd
  refine ⟨u, ?_, by rw [hrest]; rfl, hu_rd, hdt⟩
  obtain ⟨k, hk⟩ : ∃ k, ((es.flatMap headerEntry).length + part.length) / 12 + 1 = es.length + (k + 1) :=
    ⟨((es.flatMap headerEntry).length + part.length) / 12 - es.length, by omega⟩
  rw [deshdr_fits hv (by omega), hk, hu, ← Nat.add_assoc, ← hu_rd]
  refine parseEntries_incomplete k ?_ hne hcut
  rw [hu_rd, State.esBits_of_es (s := s) (by rw [hrest]; rfl)]
  exact hpart

/-- While a fault is latched, the word of any command but SRESET and CLRERR is ignored (60_exceptions.md R284). -/
theorem State.access_ignored {s : State} {w : Word} (h : s.err ≠ none) (h1 : w ≠ 0x00000001#32) (h2 : w ≠ 0x00000002#32) :
    s.Access (.writeReg 0#8 w) s :=
  fun rest => issueCommand_ignored (s := { s with script := rest }) h h1 h2

/-- Settles O36: the length field missing, the entries past ESLEN, the last entry incomplete; then the latch. -/
theorem deshdrRejectsMalformedHeaders : Obligations.DeshdrRejectsMalformedHeaders := by
  refine ⟨fun s hfield => ?field, fun s hfield hlen => ?length, fun s es part hl hh hr hb hne hcut => ?incomplete,
    fun s t _ herr => ?scan⟩
  case field =>
    rcases deshdr_cases s with ⟨-, h⟩ | ⟨h, -⟩ | ⟨h, -⟩
    · exact ⟨_, congrArg CommandResult.outcome h, rfl, fun k => rfl⟩
    · omega
    · omega
  case length =>
    rcases deshdr_cases s with ⟨h, -⟩ | ⟨-, -, h⟩ | ⟨h, -⟩
    · omega
    · exact ⟨_, congrArg CommandResult.outcome h, rfl, State.atEntries_rdPtr hfield, fun k => rfl⟩
    · omega
  case incomplete =>
    obtain ⟨u, hu, hrest, hrd, hdt⟩ := deshdr_incomplete hl hh hr hb hne hcut
    refine ⟨_, congrArg CommandResult.outcome hu, ?_, hrd, hdt⟩
    exact congrArg (fun v : State => v.latch .malformedHeader u.rdPtr) hrest
  case scan => exact State.access_ignored (by rw [herr]; nofun) (by decide) (by decide)

/-! ## The round trip -/

/-- DESHDR at the old ESLEN reads back the header that SERHDR wrote (43_header_codec.md R214). -/
theorem deshdr_of_serhdr {s t : State} (hx : exec .serhdr s = .next t) (hn : t.err = none) :
    ∃ u, exec .deshdr { t with rdPtr := s.esLen } = .next u ∧ u.err = none ∧ u.rdPtr = t.esLen ∧
      u.rdPtr.toNat = s.esLen.toNat + 16 + s.hlen ∧ ∀ k, u.dtAt k = decodeEntryOf s.entries k := by
  have happ := appended_of_exec_serhdr hx hn
  have hesLen := happ.esLen
  have hbits := happ.bits
  rw [s.header_eq_headerOf] at hesLen hbits
  have hfits : (s.entries.flatMap headerEntry).length < 2 ^ 16 := by
    rw [s.length_flatMap_entries]
    exact Nat.lt_of_le_of_lt s.hlen_le (by decide)
  obtain ⟨u, hu, hrest, hrd, hdt⟩ := deshdr_whole (s := { t with rdPtr := s.esLen }) s.length_entries_le hfits
    hesLen.ge hbits
  have hrd : u.rdPtr.toNat = s.esLen.toNat + (headerOf s.entries).length := hrd
  refine ⟨u, congrArg CommandResult.outcome hu, by rw [hrest]; exact hn,
    BitVec.eq_of_toNat_eq (hrd.trans hesLen.symm), ?_, hdt⟩
  rw [hrd, ← s.header_eq_headerOf, s.length_header, Nat.add_assoc]

/-- A symbol that DT holds comes from an entry with that code. -/
theorem mem_of_decodeEntryOf {l : List (Byte × Bits)} {c : Bits} {v : Byte}
    (h : decodeEntryOf l (idx c) = { valid := true, sym := v }) : (v, c) ∈ l := by
  unfold decodeEntryOf at h
  split at h
  · next e he =>
    have hidx := List.find?_some he
    rw [beq_iff_eq] at hidx
    obtain rfl := congrArg DecodeEntry.sym h
    obtain rfl := idx_injective hidx
    exact List.mem_reverse.mp (List.mem_of_find?_eq_some he)
  · cases h

/-- A later entry with the same code hides the earlier ones (43_header_codec.md R212). -/
theorem decodeEntryOf_append_of_mem (l : List (Byte × Bits)) {l' : List (Byte × Bits)} {e : Byte × Bits} (he : e ∈ l') :
    decodeEntryOf (l ++ l') (idx e.2) = decodeEntryOf l' (idx e.2) := by
  have hfound : (l'.reverse.find? (fun x => idx x.2 == idx e.2)).isSome := by
    rw [List.find?_isSome]
    exact ⟨e, List.mem_reverse.mpr he, beq_self_eq_true _⟩
  unfold decodeEntryOf
  rw [List.reverse_append, List.find?_append, Option.or_of_isSome hfound]

/-- Symbols are told apart by their bytes, so a header over `order` has entries of its symbols only. -/
theorem State.mem_order_of_mem_entries {s : State} {order : List Nat} (ho : ∀ x ∈ order, x < 256) {a : Nat} (ha : a < 256)
    {c : Bits} (h : (BitVec.ofNat 8 a, c) ∈ order.map (fun x => (BitVec.ofNat 8 x, (s.ctAt x).code))) : a ∈ order := by
  obtain ⟨x, hx, he⟩ := List.mem_map.mp h
  have hsym := congrArg BitVec.toNat (congrArg Prod.fst he)
  simp only [BitVec.toNat_ofNat, Nat.mod_eq_of_lt ha, Nat.mod_eq_of_lt (ho x hx)] at hsym
  exact hsym ▸ hx

/-- Settles O37: DT holds the entries written, in which a code stands for its one symbol, or for the last of several. -/
theorem headerRoundTrip : Obligations.HeaderRoundTrip := by
  refine ⟨fun s t hd hx hn => ?distinct, fun s t order a b hx hn ho hab hcode => ?equal⟩
  case distinct =>
    obtain ⟨u, hu, herr, hend, hrd, hdt⟩ := deshdr_of_serhdr hx hn
    refine ⟨u, hu, herr, hend, hrd, fun a ha => ⟨fun h => ?_, fun hv => ?_⟩, fun k hk => ?_⟩
    · rw [hdt] at h
      exact (State.mem_canonicalOrder.mp
        (State.mem_order_of_mem_entries (fun x hx => (State.mem_canonicalOrder.mp hx).1) ha (mem_of_decodeEntryOf h))).2
    · rw [hdt, decodeEntryOf_entries hd ha hv]
    · rw [hdt, decodeEntryOf_entries_none hk]
  case equal =>
    obtain ⟨u, hu, -, -, -, hdt⟩ := deshdr_of_serhdr hx hn
    refine ⟨u, hu, fun h => ?_⟩
    obtain rfl := s.isCanonicalOrder.unique ho
    obtain ⟨before, after, hsplit, ha, hb⟩ := List.cons_sublist_iff.mp hab
    have hnodup := s.canonicalOrder_nodup
    have hbelow : ∀ x ∈ s.canonicalOrder, x < 256 := fun x hx => (State.mem_canonicalOrder.mp hx).1
    rw [hdt, State.entries, hcode] at h
    rw [hsplit] at hnodup hbelow h
    rw [List.map_append, decodeEntryOf_append_of_mem (e := (BitVec.ofNat 8 b, (s.ctAt b).code))] at h
    · refine (List.nodup_append.mp hnodup).2.2 a ha a ?_ rfl
      exact State.mem_order_of_mem_entries (fun x hx => hbelow x (by simp [hx])) (hbelow a (by simp [ha]))
        (mem_of_decodeEntryOf h)
    · exact List.mem_map.mpr ⟨b, List.singleton_sublist.mp hb, rfl⟩

end Sys2Proof.Machine
end
section
/-! PROOFS. The family 44_bitpacker_decoder.md: where PACK stops, the padding of PADB, and where SCAN stops: at the end of the
payload, at its symbol limit, or at a full message. -/

namespace Sys2Proof.Machine

/-! ## PACK and PADB -/

/-- PACK up to the symbol `i`, when the codes before it fit: what is left to do is the loop from `i` (44_bitpacker_decoder.md
R230). -/
theorem pack_upto {s : State} {i : Nat} (hi : i < s.msgLen.toNat) (hv : ∀ a ∈ s.message.take i, (s.ctAt a.toNat).valid = true)
    (hf : s.esLen.toNat + (s.payload (s.message.take i)).length ≤ s.config.esMax.toNat) :
    ∃ t, pack s = packFrom i (s.msgAt i :: s.message.drop (i + 1)) t ∧ Appended (s.payload (s.message.take i)) s t := by
  obtain ⟨t, ht, happ⟩ := packFrom_append (rest := s.msgAt i :: s.message.drop (i + 1)) 0 hv hf
  rw [← State.message_split hi, List.length_take_of_le (by rw [State.length_message]; omega), Nat.zero_add] at ht
  exact ⟨t, ht, happ⟩

/-- A symbol without a valid entry ends the loop of PACK at its index (44_bitpacker_decoder.md R231). -/
theorem packFrom_noCode {a : Byte} {rest : List Byte} {s : State} (i : Nat) (h : (s.ctAt a.toNat).valid = false) :
    packFrom i (a :: rest) s = .raised (s.latch .noCode (BitVec.ofNat 32 i)) := by
  rw [packFrom, if_neg (by rw [h]; decide)]
  rfl

/-- A code that does not fit ends the loop of PACK with none of its bits written (44_bitpacker_decoder.md R231). -/
theorem packFrom_overflow {a : Byte} {rest : List Byte} {s : State} (i : Nat) (hv : (s.ctAt a.toNat).valid = true)
    (h : s.config.esMax.toNat < s.esLen.toNat + (s.ctAt a.toNat).code.length) :
    packFrom i (a :: rest) s = .raised (s.latch .capacity s.esLen) := by
  rw [packFrom, if_pos hv]
  rcases esAppend_cases (s.ctAt a.toNat).code s with ⟨hfits, -⟩ | ⟨-, hr⟩
  · omega
  · rw [hr, CommandResult.raised_andThen]

/-- Settles O38: the loop comes to its end, or to the symbol `i`, whose code is missing or does not fit. -/
theorem packAppendsTheCodes : Obligations.PackAppendsTheCodes := by
  refine ⟨fun s hv hf => ?all, fun s i hi hv hf hno => ?noCode, fun s i hi hv hf hover => ?capacity, by decide⟩
  case all =>
    obtain ⟨t, ht, happ⟩ := packFrom_fits 0 hv hf
    exact ⟨t, congrArg CommandResult.outcome ht, happ⟩
  case noCode =>
    obtain ⟨t, ht, happ⟩ := pack_upto hi hv hf
    have hct : t.ct = s.ct := by rw [happ.rest]
    rw [packFrom_noCode i ((congrArg _ (State.ctAt_of_ct hct _)).trans hno)] at ht
    exact ⟨t, happ, congrArg CommandResult.outcome ht⟩
  case capacity =>
    rw [State.take_succ_message hi] at hv hover
    obtain ⟨t, ht, happ⟩ := pack_upto hi (fun a ha => hv a (by simp [ha])) hf
    have hct := State.ctAt_of_ct (s := s) (t := t) (by rw [happ.rest]) (s.msgAt i).toNat
    rw [State.payload_append, List.length_append] at hover
    have hcode : s.payload [s.msgAt i] = (s.ctAt (s.msgAt i).toNat).code := List.append_nil _
    rw [packFrom_overflow i (by rw [hct]; exact hv _ (by simp))
      (by rw [happ.esLen, happ.keeps.1, hct, ← hcode]; omega)] at ht
    exact ⟨t, happ, congrArg CommandResult.outcome ht⟩

/-- Settles O39: `padb_pads` says it. -/
theorem padbPadsToAByte : Obligations.PadbPadsToAByte := by
  refine ⟨fun s h8 hf => ?_, by decide⟩
  obtain ⟨t, ht, happ⟩ := padb_pads h8 hf
  refine ⟨t, congrArg CommandResult.outcome ht, happ, ?_⟩
  rw [happ.esLen, padding_eq, List.length_replicate]
  omega

/-! ## SCAN to the end of the payload -/

/-- An empty payload has nothing to read (44_bitpacker_decoder.md R245). -/
theorem scan_empty {s : State} (h : s.esLen.toNat ≤ s.rdPtr.toNat) : scan s = .ended s := by
  have havail : s.avail = 0 := by rw [State.avail_eq]; omega
  rw [scan, havail]
  rfl

/-- Settles O40: `scan_end` says it of a payload. -/
theorem scanToTheEndOfThePayload : Obligations.ScanToTheEndOfThePayload := by
  refine ⟨fun s ms left hd hn hlen hb hm hs => ?_, fun s h => congrArg CommandResult.outcome (scan_empty h)⟩
  obtain ⟨t, hem, ht⟩ := scan_end hd hn hlen hb hm hs
  exact ⟨t, hem, fun h => congrArg CommandResult.outcome (ht.trans (if_neg (by omega))),
    fun h => congrArg CommandResult.outcome (ht.trans (if_pos h))⟩

/-! ## The symbol limit -/

/-- The state with SYMLIM = 0: SCAN of it has no limit (10_state.md R33). -/
def State.unlimited (s : State) : State := { s with symLim := 0#32 }

/-- `MsgAppend` does not look at SYMLIM; where it ends, MSGLEN is one more. -/
theorem msgAppend_unlimited (v : Byte) (s : State) :
    (∃ u, msgAppend v s = .ended u ∧ msgAppend v s.unlimited = .ended u.unlimited ∧ u.symLim = s.symLim ∧
      u.msgLen = s.msgLen + 1#32) ∨
    ∃ u, msgAppend v s = .raised u ∧ msgAppend v s.unlimited = .raised u.unlimited := by
  by_cases h : s.msgLen = s.config.msgMax
  · exact .inr ⟨_, if_pos h, if_pos h⟩
  · refine .inl ⟨_, if_neg h, if_neg h, rfl, ?_⟩
    show BitVec.ofNat 32 (s.msgLen.toNat + 1) = _
    rw [BitVec.ofNat_add, BitVec.ofNat_toNat, BitVec.setWidth_eq]

/-- The loop of SCAN goes as it does without a limit, or it ends at the limit, with as many symbols more as were missing
(44_bitpacker_decoder.md R242). -/
theorem scanLoop_unlimited (k : Nat) (c : Bits) (n : Nat) (s : State) :
    (scanLoop k c n s).Match (fun u v => v = u.unlimited) (scanLoop k c n s.unlimited) ∨
      ∃ t, scanLoop k c n s = .ended t ∧ t.msgLen = s.msgLen + (s.symLim - BitVec.ofNat 32 n) := by
  induction k generalizing c n s with
  | zero => exact .inl (.ite Iff.rfl rfl rfl)
  | succ k ih =>
    have hbit : s.unlimited.esBit s.unlimited.rdPtr.toNat = s.esBit s.rdPtr.toNat := rfl
    have hskip : s.unlimited.skip 1 = (s.skip 1).unlimited := rfl
    have hdt : ∀ j, (s.skip 1).unlimited.dtAt j = (s.skip 1).dtAt j := fun _ => rfl
    rw [scanLoop, scanLoop, hbit, hskip]
    simp only [hdt]
    split
    case isFalse => exact ih _ n (s.skip 1)
    case isTrue =>
      rcases msgAppend_unlimited ((s.skip 1).dtAt (idx (c ++ [s.esBit s.rdPtr.toNat]))).sym (s.skip 1) with
        ⟨u, hu, hu', hlim, hlen⟩ | ⟨u, hu, hu'⟩
      · rw [hu, hu', CommandResult.ended_andThen, CommandResult.ended_andThen,
          if_neg (c := u.unlimited.symLim ≠ 0#32 ∧ _) fun h => h.1 rfl]
        have hlen : u.msgLen = s.msgLen + 1#32 := hlen
        have hlim : u.symLim = s.symLim := hlim
        split
        case isTrue hstop =>
          refine .inr ⟨u, rfl, ?_⟩
          have hn : s.symLim = BitVec.ofNat 32 (n + 1) := by rw [hstop.2, hlim, BitVec.ofNat_toNat, BitVec.setWidth_eq]
          rw [hlen, hn, BitVec.ofNat_add]
          ring
        case isFalse =>
          refine (ih [] (n + 1) u).imp_right fun ⟨t, ht, hmsg⟩ => ⟨t, ht, ?_⟩
          rw [hmsg, hlen, hlim, BitVec.ofNat_add]
          ring
      · rw [hu, hu']
        exact .inl rfl

/-- A SCAN that emits fewer symbols than its limit goes as with SYMLIM = 0 (44_bitpacker_decoder.md R242). -/
theorem scan_unlimited {s : State} {m : List Byte} {r : Nat} (hem : ∀ t, scan s = .ended t → Emitted m r s t)
    (hm : m.length < s.symLim.toNat) : (scan s).Match (fun u v => v = u.unlimited) (scan s.unlimited) := by
  refine (scanLoop_unlimited s.avail [] 0 s).resolve_right fun ⟨t, ht, hlen⟩ => ?_
  have hcount := (hem t ht).msgLen
  have hlt := s.symLim.isLt
  rw [hlen] at hcount
  simp only [BitVec.toNat_add, BitVec.toNat_sub, BitVec.toNat_ofNat] at hcount
  omega

/-- Settles O41: `scan_limit` says where SCAN stops; a payload that ends before is `scan_end`. -/
theorem scanStopsAtTheSymbolLimit : Obligations.ScanStopsAtTheSymbolLimit := by
  refine ⟨fun s ms hd h0 hn hlen hb hm => ?limit, fun s ms left hd hn hlen hb hm hs => ?before⟩
  case limit =>
    obtain ⟨t, ht, hem⟩ := scan_limit hd h0 hn hlen hb hm
    exact ⟨t, congrArg CommandResult.outcome ht, hem⟩
  case before =>
    obtain ⟨t, hem, ht⟩ := scan_end hd hn hlen hb hm (.inr hs)
    have hmatch := scan_unlimited (m := ms.map (·.1)) (r := s.esLen.toNat) (fun u hu => by
      rw [hu] at ht
      split at ht <;> cases ht
      exact hem) (by rwa [List.length_map])
    exact ⟨(scan s).state, rfl, congrArg Host.Outcome.next (hmatch.next rfl rfl)⟩

/-! ## A full message -/

/-- `MsgAppend` to a full message (00_scope.md R11). -/
theorem msgAppend_full {v : Byte} {s : State} (h : s.msgLen = s.config.msgMax) :
    msgAppend v s = .raised (s.latch .capacity s.config.msgMax) := by
  rcases msgAppend_cases v s with ⟨hne, -⟩ | ⟨-, hr⟩
  · exact absurd h hne
  · rw [hr, h]

/-- Settles O42: the symbols that have room are emitted, and the code after them is read before `MsgAppend` raises. -/
theorem scanRaisesCapacity : Obligations.ScanRaisesCapacity := by
  intro s ms v c hd hc hlen hb hm hs
  have hlt := s.esLen.isLt
  rw [List.length_append] at hlen hb ⊢
  rw [State.esBits_add] at hb
  obtain ⟨hcodes, hcode⟩ := List.append_inj hb (by simp)
  obtain ⟨k, hk⟩ : ∃ k, s.avail = (ms.flatMap (·.2)).length + (c.length + k) :=
    ⟨s.avail - ((ms.flatMap (·.2)).length + c.length), by rw [State.avail_eq]; omega⟩
  obtain ⟨t, ht, hem⟩ := scanLoop_codes (c.length + k) 0 hd hcodes (by omega) hm.le (by rwa [Nat.zero_add])
  obtain ⟨hcfg, -, -, -, -, -, -, -, hes, -, -, hdt, -, -⟩ := hem.keeps
  have hfull : (t.skip c.length).msgLen = (t.skip c.length).config.msgMax := by
    refine BitVec.eq_of_toNat_eq (hem.msgLen.trans ?_)
    rw [List.length_map, hm, ← hcfg]
    rfl
  have hscan : scan s = .raised ((t.skip c.length).latch .capacity s.config.msgMax) := by
    rw [scan, hk, ht, scanLoop_code k _ (hc.of_dt hdt) (by rw [hem.rdPtr, State.esBits_of_es hes]; exact hcode)
      (by rw [hem.rdPtr]; omega), msgAppend_full hfull, CommandResult.raised_andThen, ← hcfg]
    rfl
  exact ⟨t.skip c.length, Nat.add_assoc _ _ _ ▸ hem.skip (by omega), congrArg CommandResult.outcome hscan⟩

/-! ## Pad bits -/

/-- The shortest all-zero code in DT decodes to its symbol (44_bitpacker_decoder.md R248). -/
theorem State.decodes_zeros {s : State} {l : Nat} {v : Byte} (h1 : 1 ≤ l) (h15 : l ≤ 15)
    (hv : s.dtAt (idx (List.replicate l false)) = { valid := true, sym := v })
    (hmin : ∀ k, 1 ≤ k → k < l → (s.dtAt (idx (List.replicate k false))).valid = false) :
    s.Decodes v (List.replicate l false) where
  nonempty h := by rw [List.replicate_eq_nil_iff] at h; omega
  short := by rwa [List.length_replicate]
  entry := hv
  noEarlier k h0 hk := by
    rw [List.length_replicate] at hk
    rw [take_zeros k l hk.le]
    exact hmin k h0 hk

/-- Zero bits match nothing when no all-zero code is as short (44_bitpacker_decoder.md R248). -/
theorem State.neverMatches_zeros {s : State} {p : Nat}
    (h : ∀ k, 1 ≤ k → k ≤ p → k ≤ 15 → (s.dtAt (idx (List.replicate k false))).valid = false) :
    s.NeverMatches (List.replicate p false) := by
  intro k h0 hk h15
  rw [List.length_replicate] at hk
  rw [take_zeros k p hk]
  exact h k h0 hk h15

/-- `p` zero bits are `p div l` codes of `l` zero bits and `p mod l` more. -/
theorem zeros_split (v : Byte) (l p : Nat) :
    (List.replicate (p / l) (v, List.replicate l false)).flatMap (·.2) ++ List.replicate (p % l) false =
      List.replicate p false := by
  rw [flatMap_replicate_snd, flatten_zeros, List.replicate_append_replicate, Nat.mul_comm, Nat.div_add_mod]

/-- SCAN without a limit of codes and a leftover of at most 7 bits ends without fault (44_bitpacker_decoder.md R240, R243). -/
theorem exec_scan_end {s : State} {ms : List (Byte × Bits)} {left : Bits} (hd : ∀ m ∈ ms, s.Decodes m.1 m.2)
    (hn : s.NeverMatches left) (hshort : left.length < 8)
    (hlen : s.rdPtr.toNat + (ms.flatMap (·.2) ++ left).length = s.esLen.toNat)
    (hb : s.esBits s.rdPtr.toNat (ms.flatMap (·.2) ++ left).length = ms.flatMap (·.2) ++ left)
    (hm : s.msgLen.toNat + ms.length ≤ s.config.msgMax.toNat) (hs : s.symLim = 0#32) :
    ∃ t, exec .scan s = .next t ∧ Emitted (ms.map (·.1)) s.esLen.toNat s t := by
  obtain ⟨t, hem, ht⟩ := scan_end hd hn hlen hb hm (.inl hs)
  exact ⟨t, congrArg CommandResult.outcome (ht.trans (if_neg (by omega))), hem⟩

/-- Settles O43: the pad bits are copies of the shortest all-zero code and a leftover, or a leftover alone. -/
theorem padBitsDecodeAsSymbols : Obligations.PadBitsDecodeAsSymbols := by
  intro s ms p hd hp hlen hb hs
  rw [Nat.add_assoc] at hlen
  refine ⟨fun l0 v h1 h15 hv hmin hm => ?code, fun hno hm => ?noCode⟩
  case code =>
    have hsplit : (ms ++ List.replicate (p / l0) (v, List.replicate l0 false)).flatMap (·.2) ++
        List.replicate (p % l0) false = ms.flatMap (·.2) ++ List.replicate p false := by
      rw [List.flatMap_append, List.append_assoc, zeros_split]
    have hmod : p % l0 < l0 := Nat.mod_lt _ h1
    have hleft : (List.replicate (p % l0) false).length < 8 := by
      rw [List.length_replicate]
      exact (Nat.mod_le p l0).trans_lt (by omega)
    have hdecodes : ∀ m ∈ ms ++ List.replicate (p / l0) (v, List.replicate l0 false), s.Decodes m.1 m.2 := by
      intro m hmem
      rcases List.mem_append.mp hmem with hmem | hmem
      · exact hd m hmem
      · rw [List.eq_of_mem_replicate hmem]
        exact State.decodes_zeros h1 h15 hv hmin
    obtain ⟨t, ht, hem⟩ := exec_scan_end hdecodes
      (State.neverMatches_zeros fun k h0 hk _ => hmin k h0 (by omega)) hleft
      (by rw [hsplit, List.length_append, List.length_replicate]; exact hlen)
      (by rw [hsplit, List.length_append, List.length_replicate]; exact hb)
      (by rw [List.length_append, List.length_replicate]; omega) hs
    rw [List.map_append, List.map_replicate] at hem
    exact ⟨t, ht, hem⟩
  case noCode =>
    exact exec_scan_end (left := List.replicate p false) hd (State.neverMatches_zeros fun k h0 _ h15 => hno k h0 h15)
      (by rw [List.length_replicate]; omega)
      (by rw [List.length_append, List.length_replicate]; exact hlen)
      (by rw [List.length_append, List.length_replicate]; exact hb) hm hs

end Sys2Proof.Machine
end
section
/-! PROOFS. The family 45_macro_system.md: the system commands, the results of ENCODE, what DECODE finds in a stream, and the
round trips through both. -/

namespace Sys2Proof.Machine

/-! ## NOP, SRESET and CLRERR -/

/-- A write of a command's word that the latch lets pass runs the command (10_state.md R24). -/
theorem step_encode (s : State) (i : Instr) (rest : List HostAccess) (h : s.err = none ∨ i = .sreset ∨ i = .clrerr) :
    step { s with script := .writeReg 0#8 (encode i) :: rest } = exec i { s with script := rest } := by
  rw [step_command_next]
  exact issueCommand_runs (acceptsCommand_of_decode (decode_encode i) h) (decode_encode i)

/-- Settles O6: NOP runs or the latch ignores it, and neither changes anything. -/
theorem nopChangesNothing : Obligations.NopChangesNothing := by
  refine ⟨by decide, fun s => rfl, fun s rest => ?_⟩
  by_cases h : s.err = none
  · exact step_encode s .nop rest (.inl h)
  · rw [step_command_next]
    exact issueCommand_ignored (s := { s with script := rest }) h (by decide) (by decide)

/-- Settles O7: SRESET is `resetState`, and the latch lets its word pass. -/
theorem sresetRestoresResetState : Obligations.SresetRestoresResetState :=
  ⟨by decide, fun s => ⟨resetState s, rfl, resetState_atReset s, rfl, rfl⟩,
    fun s rest => step_encode s .sreset rest (.inr (.inl rfl))⟩

/-- Settles O10: CLRERR is `clearLatch`, and the latch lets its word pass; a command is a function of the state. -/
theorem clrerrClearsOnlyTheLatch : Obligations.ClrerrClearsOnlyTheLatch := by
  refine ⟨by decide, fun s => rfl, fun s rest => step_encode s .clrerr rest (.inr (.inr rfl)), fun s herr hinfo => ?_,
    fun i s t u ht hu => ?_⟩
  · show Host.Outcome.next { s with err := none, errInfo := 0#32 } = .next s
    rw [← herr, ← hinfo]
  · obtain rfl : t = u := Host.Outcome.next.inj (ht.symm.trans hu)
    exact ⟨rfl, rfl⟩

/-! ## DECODE of a stream -/

/-- DECODE is DESHDR with both cursors at 0 and then SCAN (45_macro_system.md R262). -/
theorem exec_decode_of_deshdr {d u v : State} (hu : deshdr { d with rdPtr := 0#32, msgLen := 0#32 } = .ended u)
    (hv : exec .scan u = .next v) : exec .decode d = .next v := by
  have hflow : decodeFlow d = scan u := by rw [decodeFlow, hu, CommandResult.ended_andThen]
  exact (congrArg CommandResult.outcome hflow).trans hv

/-- Settles O48: DESHDR leaves the header's table and RDPTR at the first code, and SCAN reads to the end. -/
theorem decodeRecoversTheSymbols : Obligations.DecodeRecoversTheSymbols := by
  intro s es ms left hes hheader hms hleft hshort hstream hroom hlim
  rw [List.append_assoc] at hstream
  obtain ⟨u, hu, hrest, -, hdt, hbits, hend⟩ := deshdr_of_stream hes hheader hstream
  rw [← funext hdt] at hms hleft
  have hmsgLen : u.msgLen = 0#32 := by rw [hrest]
  obtain ⟨t, hem, ht⟩ := scan_end hms hleft hend hbits
    (by rw [hmsgLen, hrest]; exact (Nat.zero_add _).trans_le hroom) (by rw [hrest]; exact hlim)
  rw [if_neg (by omega)] at ht
  obtain ⟨hmessage, hlen⟩ := hem.message hmsgLen
  rw [List.length_map] at hlen
  have hrd : t.rdPtr = s.esLen := BitVec.eq_of_toNat_eq (hem.rdPtr.trans (by rw [hrest]))
  have hdtt : t.dt = u.dt := by rw [hem.rest]
  refine ⟨t, exec_decode_of_deshdr hu (congrArg CommandResult.outcome ht), ?rest, hmessage, hlen, fun k => ?dt,
    fun i hi => ?others⟩
  case rest => exact hem.rest.trans (by rw [hrd, hdtt, hrest])
  case dt => rw [State.dtAt_of_dt hdtt, hdt]
  case others =>
    rw [hem.others i (.inr (by rw [hmsgLen, List.length_map]; exact (Nat.zero_add _).trans_le hi)), hrest]
    rfl

/-! ## What ENCODE hands to DECODE -/

theorem alphabetOf_nil : alphabetOf [] = [] :=
  List.filter_eq_nil_iff.mpr fun p hp => by
    obtain ⟨a, -, rfl⟩ := List.mem_map.mp hp
    simp

/-- What an ENCODE without fault leaves for a receiver: a message that is not empty, a prefix-free table with a code for each of
its symbols, and the stream of 30_encoding.md R95. -/
structure Encoded (s t : State) : Prop where
  config : t.config = s.config
  nonempty : s.message ≠ []
  coded : ∀ a ∈ s.message, (t.ctAt a.toNat).valid = true
  prefixFree : t.PrefixFreeCt
  codes : ∀ a, (t.ctAt a).valid = true → (t.ctAt a).code ≠ []
  stream : t.stream = t.header ++ (t.payload s.message ++
    if s.pad then padding (t.header ++ t.payload s.message).length else [])

theorem encoded_of_exec {s t : State} (hx : exec .encode s = .next t) (hn : t.err = none) : Encoded s t := by
  obtain ⟨s1, s2, s3, s4, hrun⟩ := encodeRun_of_exec hx hn
  obtain ⟨-, hconfig, -⟩ := hrun.keeps
  obtain ⟨-, hstream, hcoded⟩ := hrun.stream
  obtain ⟨hprefixFree, hcodes⟩ := hrun.prefixFree
  refine ⟨hconfig, fun hnil => ?_, hcoded, hprefixFree, hcodes, by rw [hstream, List.append_assoc]⟩
  obtain ⟨hweights, -⟩ := build_ended hrun.h2
  rw [hrun.w1, hnil, alphabetOf_nil] at hweights
  exact hweights rfl

/-- DECODE of a stream that is the header of `t` and then `b`, once its DESHDR has ended in `u`: RDPTR stands at `b`, and DT
decodes the codes of `t` to their symbols and holds no other. -/
structure HeaderRead (t d u : State) (b : Bits) : Prop where
  ended : deshdr { d with rdPtr := 0#32, msgLen := 0#32 } = .ended u
  rest : u = { d with dt := u.dt, rdPtr := u.rdPtr, msgLen := 0#32 }
  rdPtr : u.rdPtr.toNat = 16 + t.hlen
  decodes : ∀ a : Byte, (t.ctAt a.toNat).valid = true → u.Decodes a (t.ctAt a.toNat).code
  only : ∀ c, (∀ a : Byte, (t.ctAt a.toNat).valid = true → c ≠ (t.ctAt a.toNat).code) → (u.dtAt (idx c)).valid = false
  bits : u.esBits u.rdPtr.toNat b.length = b
  esLen : u.rdPtr.toNat + b.length = u.esLen.toNat

theorem headerRead_of_stream {t d : State} {b : Bits} (hp : t.PrefixFreeCt)
    (hne : ∀ a, (t.ctAt a).valid = true → (t.ctAt a).code ≠ []) (hs : d.stream = t.header ++ b) :
    ∃ u, HeaderRead t d u b := by
  have hlen : (t.entries.flatMap headerEntry).length < 2 ^ 16 := by
    rw [State.length_flatMap_entries]
    exact t.hlen_le.trans_lt (by decide)
  rw [State.header_eq_headerOf] at hs
  obtain ⟨u, hu, hrest, hrd, hdt, hbits, hend⟩ := deshdr_of_stream t.length_entries_le hlen hs
  rw [length_headerOf, State.length_flatMap_entries] at hrd
  refine ⟨u, hu, hrest, hrd, fun a ha => ?decodes, fun c hc => ?only, hbits, hend⟩
  case decodes =>
    rw [State.Decodes, funext hdt]
    exact decodesIn_entries hp hne ha
  case only =>
    rw [hdt, decodeEntryOf_entries_none]
    · rfl
    · intro a ha hv hidx
      have hc := hc (BitVec.ofNat 8 a)
      rw [BitVec.toNat_ofNat, Nat.mod_eq_of_lt ha] at hc
      exact hc hv (idx_injective hidx)

section RoundTrip
variable {s t d u v : State} {b : Bits} {m : List Byte} {r : Nat}

/-- The message DECODE leaves is what its SCAN emitted. -/
theorem HeaderRead.message (h : HeaderRead t d u b) (hem : Emitted m r u v) :
    v.err = d.err ∧ v.message = m := by
  have hmsgLen : u.msgLen = 0#32 := by rw [h.rest]
  obtain ⟨hmessage, -⟩ := hem.message hmsgLen
  exact ⟨by rw [hem.rest, h.rest], hmessage⟩

/-- MSGLEN is the length of the message (10_state.md R30). -/
theorem State.msgLen_eq_of_message (h : v.message = s.message) : v.msgLen = s.msgLen :=
  BitVec.eq_of_toNat_eq (by rw [← State.length_message, h, State.length_message])

theorem Encoded.headerRead (h : Encoded s t) (hs : d.stream = t.stream) :
    ∃ u, HeaderRead t d u
      (t.payload s.message ++ if s.pad then padding (t.header ++ t.payload s.message).length else []) :=
  headerRead_of_stream h.prefixFree h.codes (hs.trans h.stream)

/-- The codes of the message are there for SCAN to decode. -/
theorem HeaderRead.decodes_pairs (h : HeaderRead t d u b) (hm : ∀ a ∈ m, (t.ctAt a.toNat).valid = true) :
    ∀ p ∈ t.pairs m, u.Decodes p.1 p.2 := by
  intro p hp
  obtain ⟨a, ha, rfl⟩ := List.mem_map.mp hp
  exact h.decodes a (hm a ha)

theorem State.length_pairs (t : State) (m : List Byte) : (t.pairs m).length = m.length := List.length_map _

/-- The bits at RDPTR start as `b` does. -/
theorem HeaderRead.bits_start {c e : Bits} (h : HeaderRead t d u b) (hb : b = c ++ e) :
    u.esBits u.rdPtr.toNat c.length = c ∧ u.rdPtr.toNat + c.length ≤ u.esLen.toNat := by
  have hbits := h.bits
  have hlen := h.esLen
  subst hb
  refine ⟨State.esBits_part (a := []) hbits, ?_⟩
  rw [List.length_append] at hlen
  omega

/-- The room in the message before SCAN is MSG_MAX. -/
theorem HeaderRead.room (h : HeaderRead t d u b) (n : Nat) :
    u.msgLen.toNat + n ≤ u.config.msgMax.toNat ↔ n ≤ d.config.msgMax.toNat := by
  rw [h.rest]
  exact (Nat.zero_add n).symm ▸ Iff.rfl

end RoundTrip

/-- Settles O49: SCAN reads the codes to the end of the stream. -/
theorem roundTripUnpadded : Obligations.RoundTripUnpadded := by
  intro s t d _ hroom hpad hx ht hcfg hd hlim hs
  have henc := encoded_of_exec hx ht
  obtain ⟨u, hu⟩ := henc.headerRead hs
  rw [hpad, if_neg (by decide)] at hu
  obtain ⟨v, hv, hem⟩ := exec_scan_end (left := []) (hu.decodes_pairs henc.coded) (fun k h0 hk => by simp at hk; omega)
    (by decide) (by rw [State.flatMap_pairs]; exact hu.esLen) (by rw [State.flatMap_pairs]; exact hu.bits)
    (by rwa [hu.room, State.length_pairs, State.length_message, hcfg, henc.config]) (by rw [hu.rest]; exact hlim)
  rw [State.map_fst_pairs] at hem
  obtain ⟨herr, hmsg⟩ := hu.message hem
  exact ⟨v, exec_decode_of_deshdr hu.ended hv, herr.trans hd, hmsg, State.msgLen_eq_of_message hmsg⟩

/-- Settles O50: SCAN stops at the last code of the message, whatever follows. -/
theorem roundTripWithSymbolCount : Obligations.RoundTripWithSymbolCount := by
  intro s t d _ hroom hx ht hcfg hd hlim hs
  have henc := encoded_of_exec hx ht
  obtain ⟨u, hu⟩ := henc.headerRead hs
  obtain ⟨hbits, hlen⟩ := hu.bits_start rfl
  have hsym : u.symLim = s.msgLen := by rw [hu.rest]; exact hlim
  have hne : u.symLim ≠ 0#32 := fun h0 => henc.nonempty <| List.eq_nil_of_length_eq_zero <| by
    rw [State.length_message, ← hsym, h0]
    rfl
  obtain ⟨v, hv, hem⟩ := scanStopsAtTheSymbolLimit.1 u (t.pairs s.message) (hu.decodes_pairs henc.coded) hne
    (by rw [State.length_pairs, State.length_message, hsym]) (by rwa [State.flatMap_pairs])
    (by rwa [State.flatMap_pairs]) (by rwa [hu.room, State.length_pairs, State.length_message, hcfg, henc.config])
  rw [State.map_fst_pairs, State.flatMap_pairs, hu.rdPtr] at hem
  obtain ⟨herr, hmsg⟩ := hu.message hem
  exact ⟨v, exec_decode_of_deshdr hu.ended hv, herr.trans hd, hmsg, State.msgLen_eq_of_message hmsg, hem.rdPtr⟩

/-! ## Padded streams -/

/-- With CTRL.PAD = 1 the stream ends in at most 7 zero bits (30_encoding.md R99). -/
theorem Encoded.stream_padded {s t : State} (h : Encoded s t) (hpad : s.pad = true) {p : Nat}
    (hp : p = t.esLen.toNat - (16 + t.hlen + (t.payload s.message).length)) :
    p ≤ 7 ∧ t.stream = t.header ++ (t.payload s.message ++ List.replicate p false) := by
  have hstream := h.stream
  rw [hpad, if_pos rfl, padding_eq] at hstream
  have hlen := congrArg List.length hstream
  rw [State.stream, State.length_esBits, List.length_append, List.length_append, List.length_replicate,
    State.length_header] at hlen
  have hq : (8 - (t.header ++ t.payload s.message).length % 8) % 8 ≤ 7 := Nat.le_of_lt_succ (Nat.mod_lt _ (by decide))
  generalize (8 - (t.header ++ t.payload s.message).length % 8) % 8 = q at hstream hlen hq
  obtain rfl : p = q := by omega
  exact ⟨hq, hstream⟩

/-- What SCAN finds when it decodes `l` zero bits: `l` is the length of the shortest all-zero code (44_bitpacker_decoder.md
R248). -/
theorem State.Decodes.zeros {s : State} {v : Byte} {l : Nat} (h : s.Decodes v (List.replicate l false)) :
    1 ≤ l ∧ l ≤ 15 ∧ ∀ k, 1 ≤ k → k < l → (s.dtAt (idx (List.replicate k false))).valid = false := by
  have hshort := h.short
  rw [List.length_replicate] at hshort
  refine ⟨Nat.one_le_iff_ne_zero.mpr fun h0 => h.nonempty (List.replicate_eq_nil_iff _ |>.mpr h0), hshort,
    fun k h1 hk => ?_⟩
  have hearlier := h.noEarlier k h1 (by rwa [List.length_replicate])
  rwa [take_zeros k l hk.le] at hearlier

/-- Codes and then more all-zero codes than the message has room for: SCAN raises Capacity (44_bitpacker_decoder.md R244,
R248). -/
theorem exec_scan_zeros_full {s : State} {ms : List (Byte × Bits)} {v : Byte} {l p : Nat} (hms : ∀ m ∈ ms, s.Decodes m.1 m.2)
    (hv : s.Decodes v (List.replicate l false)) (hlim : s.symLim = 0#32)
    (hlen : s.rdPtr.toNat + (ms.flatMap (·.2) ++ List.replicate p false).length ≤ s.esLen.toNat)
    (hbits : s.esBits s.rdPtr.toNat (ms.flatMap (·.2) ++ List.replicate p false).length =
      ms.flatMap (·.2) ++ List.replicate p false)
    (hroom : s.msgLen.toNat + ms.length ≤ s.config.msgMax.toNat)
    (hfull : s.config.msgMax.toNat < s.msgLen.toNat + ms.length + p / l) :
    ∃ m r t, Emitted m r s t ∧ exec .scan s = .next (t.latch .capacity s.config.msgMax) := by
  obtain ⟨hl, -⟩ := hv.zeros
  obtain ⟨n, hn⟩ := Nat.exists_eq_add_of_le hroom
  have hp : (n + 1) * l ≤ p := (Nat.le_div_iff_mul_le hl).mp (by omega)
  have hcodes : (ms ++ List.replicate n (v, List.replicate l false)).flatMap (·.2) ++ List.replicate l false =
      ms.flatMap (·.2) ++ List.replicate ((n + 1) * l) false := by
    rw [List.flatMap_append, flatMap_replicate_snd, flatten_zeros, List.append_assoc, List.replicate_append_replicate,
      Nat.succ_mul]
  have hsplit : ms.flatMap (·.2) ++ List.replicate p false =
      [] ++ (ms.flatMap (·.2) ++ List.replicate ((n + 1) * l) false) ++ List.replicate (p - (n + 1) * l) false := by
    rw [List.nil_append, List.append_assoc, List.replicate_append_replicate, Nat.add_sub_cancel' hp]
  have hdecodes : ∀ m ∈ ms ++ List.replicate n (v, List.replicate l false), s.Decodes m.1 m.2 := by
    intro m hm
    rcases List.mem_append.mp hm with hm | hm
    · exact hms m hm
    · rw [List.eq_of_mem_replicate hm]
      exact hv
  rw [List.length_append, List.length_replicate] at hlen
  obtain ⟨t, hem, ht⟩ := scanRaisesCapacity s _ v (List.replicate l false) hdecodes hv
    (by rw [hcodes, List.length_append, List.length_replicate]; omega)
    (by rw [hcodes]; exact State.esBits_part (a := []) (hbits.trans hsplit))
    (by rw [List.length_append, List.length_replicate, hn, Nat.add_assoc]) (.inl hlim)
  exact ⟨_, _, t, hem, ht⟩

/-- Settles O51: the pad bits are codes of the all-zero code if there is one, and match nothing if not. -/
theorem roundTripPadded : Obligations.RoundTripPadded := by
  intro s t d p _ hroom hpad hx ht hcfg hd hlim hs hp
  have henc := encoded_of_exec hx ht
  obtain ⟨hp7, hstream⟩ := henc.stream_padded hpad hp
  obtain ⟨u, hu⟩ := headerRead_of_stream henc.prefixFree henc.codes (hs.trans hstream)
  have hpairs := hu.decodes_pairs henc.coded
  have hbits := hu.bits
  have hlen := hu.esLen
  rw [← State.flatMap_pairs] at hbits hlen
  have hulim : u.symLim = 0#32 := by rw [hu.rest]; exact hlim
  have hmax : u.config = s.config := by rw [hu.rest]; exact hcfg.trans henc.config
  have hcount : u.msgLen.toNat + (t.pairs s.message).length = s.msgLen.toNat := by
    rw [hu.rest, State.length_pairs, State.length_message]
    exact Nat.zero_add _
  obtain ⟨hcode, hnone⟩ := padBitsDecodeAsSymbols u (t.pairs s.message) p hpairs hp7
    (by rwa [List.length_append, List.length_replicate, ← Nat.add_assoc] at hlen)
    (by rwa [List.length_append, List.length_replicate] at hbits) hulim
  rw [hcount, hmax, State.map_fst_pairs] at hcode
  rw [hcount, hmax, State.map_fst_pairs] at hnone
  refine ⟨hp7, fun z hz hzero => ?allZero, fun hone => ?none⟩
  case allZero =>
    have hzeros : (t.ctAt z.toNat).code = List.replicate (t.ctAt z.toNat).len.toNat false := by
      rw [← CodeEntry.length_code]
      exact List.eq_replicate_of_mem hzero
    have hdec := hzeros ▸ hu.decodes z hz
    obtain ⟨h1, h15, hmin⟩ := hdec.zeros
    refine ⟨fun hfits => ?_, fun hfull => ?_⟩
    · obtain ⟨v, hv, hem⟩ := hcode _ z h1 h15 hdec.entry hmin hfits
      obtain ⟨herr, hmsg⟩ := hu.message hem
      exact ⟨v, exec_decode_of_deshdr hu.ended hv, herr.trans hd, hmsg⟩
    · obtain ⟨_, _, v, -, hv⟩ := exec_scan_zeros_full hpairs hdec hulim hlen.le hbits (by rwa [hcount, hmax])
        (by rwa [hcount, hmax])
      exact ⟨_, exec_decode_of_deshdr hu.ended hv, rfl, congrArg Config.msgMax hmax⟩
  case none =>
    have hno : ∀ l, 1 ≤ l → l ≤ 15 → (u.dtAt (idx (List.replicate l false))).valid = false := by
      intro l _ _
      refine hu.only _ fun a ha heq => ?_
      obtain ⟨x, hx, rfl⟩ := hone a ha
      rw [← heq] at hx
      cases List.eq_of_mem_replicate hx
    obtain ⟨v, hv, hem⟩ := hnone hno hroom
    obtain ⟨herr, hmsg⟩ := hu.message hem
    exact ⟨v, exec_decode_of_deshdr hu.ended hv, herr.trans hd, hmsg⟩

/-! ## ENCODE by its parts -/

/-- The last lines of ENCODE (45_macro_system.md R260): SERHDR, PACK, and PADB if CTRL.PAD = 1. -/
def writeStream (s : State) : CommandResult :=
  ((serhdr s).andThen pack).andThen fun t => if t.pad then padb t else .ended t

theorem encodeFlow_eq (s : State) :
    encodeFlow s = ((count { s with esLen := 0#32 }).andThen build).andThen writeStream := by
  unfold encodeFlow
  cases (count { s with esLen := 0#32 }).andThen build <;> rfl

/-- ESLEN is 0 and FREQ holds the counts of the message (45_macro_system.md R260, 40_frequency_model.md R135). -/
structure Counted (s u : State) : Prop where
  rest : TablesSet s u
  counts : ∀ a : Byte, (u.freqAt a.toNat).toNat = s.message.count a
  beyond : ∀ a, 256 ≤ a → u.freqAt a = 0#32

/-- And CT holds the codes that BUILD makes for the message, valid exactly at its symbols (41_tree_builder.md R161). -/
structure TablesBuilt (s u : State) : Prop extends Counted s u where
  codes : ∀ a c, (a, c) ∈ buildCodes (alphabetOf s.message) s.rp →
    (u.ctAt a).valid = true ∧ (u.ctAt a).code = c ∧ (u.ctAt a).len.toNat = c.length
  mem : ∀ a, (u.ctAt a).valid = true → (a, (u.ctAt a).code) ∈ buildCodes (alphabetOf s.message) s.rp
  symbols : ∀ a : Byte, (u.ctAt a.toNat).valid = true ↔ a ∈ s.message

theorem exists_mem_alphabetOf {m : List Byte} {a : Byte} : (∃ w, (a.toNat, w) ∈ alphabetOf m) ↔ a ∈ m := by
  refine ⟨fun ⟨w, hw⟩ => ?_, fun h => ⟨_, mem_alphabetOf h⟩⟩
  obtain ⟨hmap, hne⟩ := List.mem_filter.mp hw
  obtain ⟨b, -, hb⟩ := List.mem_map.mp hmap
  obtain ⟨rfl, rfl⟩ := Prod.mk.inj hb
  rw [BitVec.ofNat_toNat, BitVec.setWidth_eq] at hne
  exact List.count_pos_iff.mp (Nat.pos_of_ne_zero (by simpa using hne))

/-- All that the first lines of ENCODE can do: with no message or a code of more than 15 bits BUILD raises with CT invalid, and
otherwise the tables are those of the message (45_macro_system.md R261). -/
theorem count_build_cases (s : State) :
    (s.message = [] ∧ ∃ u, (count { s with esLen := 0#32 }).andThen build = .raised (u.latch .emptyAlphabet 0#32) ∧
        Counted s u ∧ u.ct = []) ∨
      (s.message ≠ [] ∧ (∃ a c, (a, c) ∈ buildCodes (alphabetOf s.message) s.rp ∧ 15 < c.length) ∧ ∃ u info,
        (count { s with esLen := 0#32 }).andThen build = .raised (u.latch .codeTooLong info) ∧ Counted s u ∧ u.ct = []) ∨
      (s.message ≠ [] ∧ ∃ u, (count { s with esLen := 0#32 }).andThen build = .ended u ∧ TablesBuilt s u) := by
  obtain ⟨v, hv, hframe, hweights, hcounts⟩ := count_spec { s with esLen := 0#32 }
  have hweights : v.weights = alphabetOf s.message := hweights
  obtain ⟨-, hbeyond⟩ := (frameOfTableCommands _ v).1 (congrArg CommandResult.outcome hv)
  have hrp : v.rp = s.rp := by rw [hframe]; rfl
  have hcounted : Counted s { v with ct := [] } := ⟨by rw [TablesSet, hframe], hcounts, hbeyond⟩
  rw [hv, CommandResult.ended_andThen]
  have hmessage : v.weights ≠ [] → s.message ≠ [] := fun hne hnil => hne (by rw [hweights, hnil, alphabetOf_nil])
  rcases build_cases v with ⟨hnil, hr⟩ | ⟨hne, a, l, rest, htl, hr⟩ | ⟨hne, -, hr⟩
  · refine .inl ⟨?_, _, hr, hcounted, rfl⟩
    by_contra hne
    exact alphabetOf_ne_nil hne (hweights ▸ hnil)
  · refine .inr (.inl ⟨hmessage hne, ?_, _, _, hr, hcounted, rfl⟩)
    obtain ⟨-, c, hc, hlong, -⟩ := (mem_tooLong (buildCodes_nodup hne v.weights_alphabet)).mp
      (htl ▸ List.mem_cons_self (a := (a, l)))
    rw [hweights, hrp] at hc
    exact ⟨a, c, hc, hlong⟩
  · obtain ⟨hct, hbuilt⟩ := build_builtCodes hr
    refine .inr (.inr ⟨hmessage hne, _, hr, ⟨?_, ?_, ?_⟩, ?_, ?_, fun a => ?_⟩)
    · rw [TablesSet, hct, hframe]
    · rw [hct]; exact hcounts
    · rw [hct]; exact hbeyond
    · rw [← hweights, ← hrp]; exact hbuilt.code
    · rw [← hweights, ← hrp]; exact hbuilt.mem
    · rw [hbuilt.alpha, hweights, exists_mem_alphabetOf]

section TablesBuilt
variable {s u : State}

theorem Counted.esLen (h : Counted s u) : u.esLen = 0#32 := by rw [h.rest]

theorem Counted.message (h : Counted s u) : u.message = s.message := by
  rw [h.rest]
  exact State.message_congr rfl rfl

theorem Counted.config (h : Counted s u) : u.config = s.config := by rw [h.rest]

theorem alphabet_alphabetOf (s : State) : Alphabet (alphabetOf s.message) := by
  obtain ⟨v, -, -, hweights, -⟩ := count_spec s
  exact hweights ▸ v.weights_alphabet

/-- The header over the table of the message has an entry for each code (30_encoding.md R96). -/
theorem TablesBuilt.hlen (h : TablesBuilt s u) (hm : s.message ≠ []) :
    u.hlen = ((buildCodes (alphabetOf s.message) s.rp).map (fun c => 12 + c.2.length)).sum := by
  have hws := alphabetOf_ne_nil hm
  have halpha := alphabet_alphabetOf s
  have hperm : u.canonicalOrder.Perm ((buildCodes (alphabetOf s.message) s.rp).map (·.1)) := by
    refine (List.perm_ext_iff_of_nodup u.canonicalOrder_nodup (buildCodes_nodup hws halpha)).mpr fun a => ?_
    rw [State.mem_canonicalOrder]
    refine ⟨fun ⟨_, hv⟩ => List.mem_map_of_mem (f := (·.1)) (h.mem a hv), fun ha => ⟨?_, ?_⟩⟩
    · obtain ⟨p, hp, rfl⟩ := List.mem_map.mp ((buildCodes_symbols hws halpha.symbols).mem_iff.mp ha)
      exact halpha.symbols p hp
    · obtain ⟨⟨b, c⟩, hc, rfl⟩ := List.mem_map.mp ha
      exact (h.codes b c hc).1
  calc u.hlen
    _ = (((buildCodes (alphabetOf s.message) s.rp).map (·.1)).map (fun a => 12 + (u.ctAt a).len.toNat)).sum :=
        (hperm.map _).sum_eq
    _ = ((buildCodes (alphabetOf s.message) s.rp).map (fun c => 12 + c.2.length)).sum := by
        rw [List.map_map]
        exact congrArg List.sum (List.map_congr_left fun c hc => congrArg (12 + ·) (h.codes c.1 c.2 hc).2.2)

/-- The payload is the codes of the message. -/
theorem TablesBuilt.payload (h : TablesBuilt s u) (hm : s.message ≠ []) :
    u.payload s.message = s.message.flatMap (fun a => codeIn (buildCodes (alphabetOf s.message) s.rp) a.toNat) := by
  refine List.flatMap_congr fun a ha => ?_
  have hmem := h.mem _ ((h.symbols a).mpr ha)
  rw [codeIn, lookup_of_mem (buildCodes_nodup (alphabetOf_ne_nil hm) (alphabet_alphabetOf s)) hmem, Option.getD_some]

end TablesBuilt

/-- An append leaves the message. -/
theorem Appended.message {b : Bits} {s t : State} (h : Appended b s t) : t.message = s.message :=
  State.message_congr (by rw [h.rest]) (by rw [h.rest])

/-- SERHDR, PACK and PADB of what fits append it (45_macro_system.md R260). -/
theorem writeStream_fits {u : State} (hcoded : ∀ a ∈ u.message, (u.ctAt a.toNat).valid = true)
    (h8 : u.config.esMax.toNat % 8 = 0)
    (hfits : u.esLen.toNat + 16 + u.hlen + (u.payload u.message).length ≤ u.config.esMax.toNat) :
    ∃ t, writeStream u = .ended t ∧ Grown u t := by
  rcases serhdr_cases u with ⟨-, v, hv, happ⟩ | ⟨hover, -⟩
  swap
  · omega
  have hct : v.ct = u.ct := by rw [happ.rest]
  have hconfig : v.config = u.config := by rw [happ.rest]
  have hmessage : v.message = u.message := happ.message
  have hlen := happ.esLen
  rw [State.length_header] at hlen
  obtain ⟨w, hw, happ'⟩ := packFrom_fits (syms := v.message) (s := v) 0
    (by simpa only [hmessage, State.ctAt_of_ct hct] using hcoded)
    (by rw [hmessage, State.payload_of_ct hct, hlen, hconfig]; omega)
  have hlen' := happ'.esLen
  rw [hmessage, State.payload_of_ct hct] at hlen'
  have hconfig' : w.config = u.config := by rw [happ'.rest, hconfig]
  have hgrown : Grown u w := ⟨_, happ.trans happ'⟩
  rw [writeStream, hv, CommandResult.ended_andThen, pack, hw, CommandResult.ended_andThen]
  split
  · obtain ⟨t, ht, hpad⟩ := padb_pads (s := w) (by rwa [hconfig']) (by rw [hconfig']; omega)
    exact ⟨t, ht, hgrown.trans ⟨_, hpad⟩⟩
  · exact ⟨w, rfl, hgrown⟩

/-- Settles O45: the tables are those of the message, and the stream fits. -/
theorem encodeCompletes : Obligations.EncodeCompletes := by
  rintro s _ rfl hm h8 hshort hfits
  rcases count_build_cases s with ⟨hnil, -⟩ | ⟨-, ⟨a, c, hc, hlong⟩, -⟩ | ⟨-, u, hu, hbuilt⟩
  · exact absurd hnil hm
  · exact absurd (hshort a c hc) (Nat.not_le.mpr hlong)
  obtain ⟨t, ht, b, hb⟩ := writeStream_fits (u := u)
    (by rw [hbuilt.message]; exact fun a => (hbuilt.symbols a).mpr) (by rwa [hbuilt.config])
    (by rw [hbuilt.esLen, hbuilt.message, hbuilt.hlen hm, hbuilt.payload hm, hbuilt.config]
        exact (Nat.zero_add 16).symm ▸ hfits)
  have hflow : encodeFlow s = .ended t := by rw [encodeFlow_eq, hu, CommandResult.ended_andThen, ht]
  have hct : t.ct = u.ct := by rw [hb.rest]
  refine ⟨t, congrArg CommandResult.outcome hflow, ?_, fun a c hc => ?_, ?_⟩
  · rw [hb.rest, hbuilt.rest]
  · obtain ⟨hvalid, hcode, -⟩ := hbuilt.codes a c hc
    rw [State.ctAt_of_ct hct]
    exact ⟨hvalid, hcode⟩
  · rw [State.payload_of_ct hct, hbuilt.payload hm]

/-! ## Where ENCODE raises -/

theorem writeStream_leaves (u : State) : (writeStream u).Leaves (Grown u) := by
  have append {r : CommandResult} {next : State → CommandResult} (h : r.Leaves (Grown u))
      (hnext : ∀ v, (next v).Leaves (Grown v)) : (r.andThen next).Leaves (Grown u) :=
    h.andThen (fun _ hv => hv) fun v hv => (hnext v).mono fun _ => hv.trans
  refine append (append (serhdr_leaves u) fun v => packFrom_leaves _ 0 v) fun v => ?_
  split
  · exact padLoop_leaves 7 v
  · exact .ended (Grown.refl v)

/-- The latch as SERHDR, PACK and PADB can leave it: no fault, or one that they raise (60_exceptions.md R282). -/
def State.StreamFault (s : State) : Prop := s.err = none ∨ s.err = some .noCode ∨ s.err = some .capacity

theorem State.StreamFault.of_err {s t : State} (h : s.StreamFault) (he : t.err = s.err) : t.StreamFault := by
  rwa [State.StreamFault, he]

theorem writeStream_streamFault {u : State} (h : u.err = none) : (writeStream u).state.StreamFault := by
  have hserhdr : (serhdr u).state.StreamFault := by
    rcases serhdr_cases u with ⟨-, v, hv, happ⟩ | ⟨-, hr⟩
    · exact hv ▸ .inl (by rw [CommandResult.state_ended, happ.rest]; exact h)
    · exact hr ▸ .inr (.inr rfl)
  refine CommandResult.andThen_state (CommandResult.andThen_state hserhdr fun v hv => ?pack) fun v hv => ?padb
  case pack =>
    obtain ⟨-, herr⟩ := packFrom_frame 0 v.message v
    exact herr.elim hv.of_err .inr
  case padb =>
    split
    · obtain ⟨-, herr⟩ := padLoop_frame 7 v
      exact herr.elim hv.of_err fun hc => .inr (.inr hc)
    · exact hv

/-- Where Capacity is raised: at the header, which needs room for all of it, or at a code, the ones before it appended; a stream
in range can be padded (45_macro_system.md R261, points 4 and 5). -/
theorem writeStream_capacity {u t : State} (herr : u.err = none) (h0 : u.esLen = 0#32) (h8 : u.config.esMax.toNat % 8 = 0)
    (ht : (writeStream u).state = t) (hc : t.err = some .capacity) :
    t.errInfo = t.esLen ∧ ((t.esLen = 0#32 ∧ u.config.esMax.toNat < 16 + u.hlen) ∨
      ∃ i, i < u.msgLen.toNat ∧ t.esLen.toNat = 16 + u.hlen + (u.payload (u.message.take i)).length ∧
        u.config.esMax.toNat < 16 + u.hlen + (u.payload (u.message.take (i + 1))).length) := by
  have hzero : u.esLen.toNat = 0 := by rw [h0]; rfl
  unfold writeStream at ht
  rcases serhdr_cases u with ⟨hfit, v, hv, happ⟩ | ⟨hover, hr⟩
  case inr =>
    rw [hr] at ht
    subst ht
    exact ⟨rfl, .inl ⟨h0, by omega⟩⟩
  have hct : v.ct = u.ct := by rw [happ.rest]
  have hconfig : v.config = u.config := by rw [happ.rest]
  have hmessage : v.message = u.message := happ.message
  have hverr : v.err = none := by rw [happ.rest]; exact herr
  have hlen : v.esLen.toNat = 16 + u.hlen := by rw [happ.esLen, State.length_header, hzero, Nat.zero_add]
  rw [hv, CommandResult.ended_andThen] at ht
  rcases hpack : pack v with w | w <;> rw [hpack] at ht
  case ended =>
    obtain ⟨-, happ', hle⟩ := packFrom_ended hpack
    rw [← happ'.esLen, hconfig] at hle
    have hwerr : w.err = none := by rw [happ'.rest]; exact hverr
    have hconfig' : w.config = u.config := by rw [happ'.rest, hconfig]
    have hterr : t.err = none := by
      rw [← ht, CommandResult.ended_andThen]
      split
      · obtain ⟨x, hx, hpad⟩ := padb_pads (s := w) (by rwa [hconfig']) (by rw [hconfig']; omega)
        rw [hx, CommandResult.state_ended, hpad.rest]
        exact hwerr
      · exact hwerr
    rw [hterr] at hc
    cases hc
  case raised =>
    obtain rfl : w = t := ht
    obtain ⟨i, x, hi, rfl, happ', hover⟩ := packFrom_capacity hverr hpack hc
    rw [hmessage, State.payload_of_ct hct, hlen, hconfig] at hover
    have hlen' := happ'.esLen
    rw [hmessage, State.payload_of_ct hct, hlen] at hlen'
    rw [hmessage, State.length_message] at hi
    exact ⟨rfl, .inr ⟨i, hi, hlen', hover⟩⟩

/-- Settles O47: BUILD raises before any bit is written, and after it only SERHDR and PACK run out of room. -/
theorem encodeFaultStates : Obligations.EncodeFaultStates := by
  refine ⟨fun s hlen => ?empty, fun s t hx herr => ?raised⟩
  case empty =>
    have hnil : s.message = [] := List.eq_nil_of_length_eq_zero (by rw [State.length_message, hlen]; rfl)
    rcases count_build_cases s with ⟨-, u, hu, hcounted, hct⟩ | ⟨hne, -⟩ | ⟨hne, -⟩
    · have hflow : encodeFlow s = .raised (u.latch .emptyAlphabet 0#32) := by
        rw [encodeFlow_eq, hu, CommandResult.raised_andThen]
      refine ⟨_, congrArg CommandResult.outcome hflow, rfl, rfl, hcounted.esLen, fun a => ?_,
        State.ctAt_of_ct (s := State.reset) hct⟩
      show u.freqAt a = 0#32
      rcases Nat.lt_or_ge a 256 with ha | ha
      · have hcount := hcounted.counts (BitVec.ofNat 8 a)
        rw [hnil, BitVec.toNat_ofNat, Nat.mod_eq_of_lt ha] at hcount
        exact BitVec.eq_of_toNat_eq hcount
      · exact hcounted.beyond a ha
    · exact absurd hnil hne
    · exact absurd hnil hne
  case raised =>
    have hstate : (encodeFlow s).state = t := Host.Outcome.next.inj hx
    rw [encodeFlow_eq] at hstate
    rcases count_build_cases s with ⟨-, u, hu, -⟩ | ⟨-, -, u, info, hu, hcounted, hct⟩ | ⟨-, u, hu, hbuilt⟩ <;>
      rw [hu] at hstate
    · subst hstate
      exact ⟨nofun, nofun⟩
    · subst hstate
      exact ⟨fun _ => ⟨hcounted.esLen, State.ctAt_of_ct (s := State.reset) hct, hcounted.counts⟩, nofun⟩
    · rw [CommandResult.ended_andThen] at hstate
      have huerr : u.err = none := by rw [hbuilt.rest]; exact herr
      obtain ⟨w, hw, hframe, -⟩ := (writeStream_leaves u).next (congrArg Host.Outcome.next hstate)
      obtain ⟨hframe, -⟩ := hw.frame hframe
      have hct : t.ct = u.ct := by rw [hframe]
      have hfreq : t.freqAt = u.freqAt := by rw [hframe]; rfl
      have hconfig : t.config = s.config := by rw [hframe]; exact hbuilt.config
      refine ⟨fun hlong => ?tooLong, fun hc => ?capacity⟩
      case tooLong =>
        have hfault := writeStream_streamFault huerr
        rw [hstate, State.StreamFault, hlong] at hfault
        rcases hfault with hfault | hfault | hfault <;> cases hfault
      case capacity =>
        refine ⟨hfreq ▸ hbuilt.counts, fun a c hm => ?_, fun a => ?_, fun h8 => ?_⟩
        · obtain ⟨hvalid, hcode, -⟩ := hbuilt.codes a c hm
          rw [State.ctAt_of_ct hct]
          exact ⟨hvalid, hcode⟩
        · rw [State.ctAt_of_ct hct, hbuilt.symbols]
        · have hmsgLen : u.msgLen = s.msgLen := by rw [hbuilt.rest]
          have hcap := writeStream_capacity huerr hbuilt.esLen (by rwa [hbuilt.config]) hstate hc
          rw [hbuilt.message, hbuilt.config, hmsgLen] at hcap
          rw [hconfig, (State.header_of_ct hct).2]
          simpa only [State.payload_of_ct hct] using hcap

end Sys2Proof.Machine
end
section
/-! PROOFS. The family 60_exceptions.md: the latch gates the commands and no other access, and the faults of each command. -/

namespace Sys2Proof.Machine

/-! ## Accesses and the latch -/

/-- The state with other contents of the latch, ERR and ERRINFO, a fault or none. -/
def State.withLatch (e : Option FaultCode) (info : Word) (s : State) : State := { s with err := e, errInfo := info }

section Latch
variable (e : Option FaultCode) (info : Word) (s : State)

theorem State.ite_withLatch {p : Prop} [Decidable p] {t t' u u' : State} (ht : t' = t.withLatch e info)
    (hu : u' = u.withLatch e info) : (if p then t' else u') = (if p then t else u).withLatch e info := by
  rw [ht, hu, apply_ite (State.withLatch e info)]

theorem State.readRegister_withLatch {r : BitVec 8} (h1 : r ≠ 1#8) (h2 : r ≠ 2#8) :
    (s.withLatch e info).readRegister r = s.readRegister r := by
  unfold State.readRegister
  split
  case h_1 h => exact absurd (BitVec.eq_of_toNat_eq h) h1
  case h_2 h => exact absurd (BitVec.eq_of_toNat_eq h) h2
  all_goals rfl

theorem State.writeRegister_withLatch (r : BitVec 8) (w : Word) :
    (s.withLatch e info).writeRegister r w = (s.writeRegister r w).withLatch e info := by
  unfold State.writeRegister
  split
  case h_3 | h_4 | h_5 => exact State.ite_withLatch e info rfl rfl
  all_goals rfl

/-- An access that does not read the latch and does not reset it commutes with a change of the latch (60_exceptions.md R284). -/
theorem hostAccess_withLatch {a : HostAccess} (hreset : a ≠ .hardwareReset) (hstatus : a ≠ .readReg 1#8)
    (herrInfo : a ≠ .readReg 2#8) : hostAccess a (s.withLatch e info) = (hostAccess a s).withLatch e info := by
  cases a with
  | writeReg r w => exact s.writeRegister_withLatch e info r w
  | readReg r =>
    have hread : (s.withLatch e info).readRegister r = s.readRegister r :=
      s.readRegister_withLatch e info (fun h => hstatus (h ▸ rfl)) (fun h => herrInfo (h ▸ rfl))
    exact congrArg (s.withLatch e info).report hread
  | writeMsg i v => exact State.ite_withLatch e info rfl rfl
  | writeEsByte j v => exact State.ite_withLatch e info rfl rfl
  | writeFreq i w => exact State.ite_withLatch e info rfl rfl
  | writeCt i w => exact State.ite_withLatch e info rfl rfl
  | writeDt k w => rfl
  | readMsg i => rfl
  | readEsByte j => rfl
  | readFreq i => rfl
  | readCt i => rfl
  | readDt k => rfl
  | hardwareReset => exact absurd rfl hreset

end Latch

/-- No access but the hardware reset changes the latch: a read changes nothing of the block, and a write commutes with latching
what is latched already. -/
theorem hostAccess_keeps_latch {a : HostAccess} (h : a ≠ .hardwareReset) (s : State) :
    (hostAccess a s).err = s.err ∧ (hostAccess a s).errInfo = s.errInfo := by
  by_cases hread : ∃ r, a = .readReg r
  · obtain ⟨r, rfl⟩ := hread
    exact ⟨rfl, rfl⟩
  · have hsame : hostAccess a s = (hostAccess a s).withLatch s.err s.errInfo :=
      hostAccess_withLatch s.err s.errInfo s h (fun hr => hread ⟨_, hr⟩) (fun hr => hread ⟨_, hr⟩)
    rw [hsame]
    exact ⟨rfl, rfl⟩

/-- Settles O5: the gate passes two words only, and every access that starts no command commutes with a change of the latch. -/
theorem latchGatesCommands : Obligations.LatchGatesCommands := by
  refine ⟨fun s w => State.access_ignored, fun s rest => ⟨?sreset, ?clrerr⟩, fun s t a e info ha hreset hstatus herrInfo hst =>
    ?independent, fun s t a rest herr hs hreset h1 h2 ht => ?kept⟩
  case sreset => exact step_encode s .sreset rest (.inr (.inl rfl))
  case clrerr => exact step_encode s .clrerr rest (.inr (.inr rfl))
  case independent =>
    intro rest
    have hnext := hst rest
    rw [step_access_next s rest ha] at hnext
    rw [step_access_next _ rest ha]
    exact congrArg Host.Outcome.next ((hostAccess_withLatch e info { s with script := rest } hreset hstatus herrInfo).trans
      (congrArg (State.withLatch e info) (Host.Outcome.next.inj hnext)))
  case kept =>
    cases ha : a.commandWord with
    | none =>
      rw [step_access hs ha] at ht
      cases ht
      exact hostAccess_keeps_latch hreset _
    | some w =>
      rw [ha] at h1 h2
      obtain rfl := HostAccess.commandWord_eq_some.mp ha
      rw [step_command hs, issueCommand_ignored (s := { s with script := rest }) herr (mt (congrArg some) h1)
        (mt (congrArg some) h2)] at ht
      cases ht
      exact ⟨rfl, rfl⟩

/-! ## The faults of a command -/

/-- The latch holds no fault, or one of `fs`. -/
def State.FaultAmong (fs : List FaultCode) (s : State) : Prop := ∀ f, s.err = some f → f ∈ fs

section FaultAmong
variable {fs : List FaultCode} {s t u : State} {f : FaultCode}

theorem State.FaultAmong.of_none (h : s.err = none) : s.FaultAmong fs := fun f hf => by
  rw [h] at hf
  cases hf

theorem State.FaultAmong.of_err (h : s.FaultAmong fs) (he : t.err = s.err) : t.FaultAmong fs := by
  rwa [State.FaultAmong, he]

theorem State.FaultAmong.latch (h : f ∈ fs) (s : State) (info : Word) : (s.latch f info).FaultAmong fs := fun g hg => by
  cases hg
  exact h

/-- Either the latch is as it was, or it holds a fault of the list. -/
theorem State.FaultAmong.of_err_or (h : s.FaultAmong fs) (hf : f ∈ fs) (he : t.err = s.err ∨ t.err = some f) :
    t.FaultAmong fs := by
  rcases he with he | he
  · exact h.of_err he
  · intro g hg
    rw [he] at hg
    cases hg
    exact hf

theorem State.FaultAmong.of_next (h : u.FaultAmong fs) (ht : (.next u : Host.Outcome State Fault Refusal) = .next t) :
    t.FaultAmong fs := by
  cases ht
  exact h

end FaultAmong

section CommandFaults
variable {fs : List FaultCode} {s : State}

theorem realign_faultAmong (h : s.FaultAmong fs) (hcap : .capacity ∈ fs) : (realign s).state.FaultAmong fs := by
  unfold realign
  dsimp only
  split
  · exact .latch hcap _ _
  · exact h.of_err (by rw [writeChunks_frame]; rfl)

theorem count_faultAmong (h : s.FaultAmong fs) : (count s).state.FaultAmong fs :=
  h.of_err (by rw [count_frame])

theorem build_faultAmong (h : s.FaultAmong fs) (hempty : .emptyAlphabet ∈ fs) (hlong : .codeTooLong ∈ fs) :
    (build s).state.FaultAmong fs := by
  rcases build_cases s with ⟨-, hr⟩ | ⟨-, a, l, rest, -, hr⟩ | ⟨-, -, hr⟩
  · exact hr ▸ .latch hempty _ _
  · exact hr ▸ .latch hlong _ _
  · exact hr ▸ h.of_err (by rw [CommandResult.state_ended, writeCodes_frame])

theorem serhdr_faultAmong (h : s.FaultAmong fs) (hcap : .capacity ∈ fs) : (serhdr s).state.FaultAmong fs := by
  rcases serhdr_cases s with ⟨-, t, ht, happ⟩ | ⟨-, hr⟩
  · exact ht ▸ h.of_err (by rw [CommandResult.state_ended, happ.rest])
  · exact hr ▸ .latch hcap _ _

/-- PACK raises NoCode only for a symbol without a code (44_bitpacker_decoder.md R230, R231). -/
theorem packFrom_faultAmong {m : List Byte} (i : Nat) (h : s.FaultAmong fs) (hcap : .capacity ∈ fs)
    (hcoded : .noCode ∈ fs ∨ ∀ a ∈ m, (s.ctAt a.toNat).valid = true) : (packFrom i m s).state.FaultAmong fs := by
  induction m generalizing i s with
  | nil => exact h
  | cons a m ih =>
    rw [packFrom]
    split
    · rcases esAppend_cases (s.ctAt a.toNat).code s with ⟨-, u, hu, happ⟩ | ⟨-, hr⟩
      · have hct : u.ct = s.ct := by rw [happ.rest]
        rw [hu, CommandResult.ended_andThen]
        refine ih (i + 1) (h.of_err (by rw [happ.rest])) (hcoded.imp_right fun hm b hb => ?_)
        rw [State.ctAt_of_ct hct]
        exact hm b (List.mem_cons_of_mem a hb)
      · rw [hr, CommandResult.raised_andThen]
        exact .latch hcap _ _
    · next hinvalid => exact .latch (hcoded.resolve_right fun hm => hinvalid (hm a List.mem_cons_self)) _ _

/-- A stream in range can be padded, so PADB raises nothing (44_bitpacker_decoder.md R236). -/
theorem padb_faultAmong (h : s.FaultAmong fs) (hinv : s.Inv) : (padb s).state.FaultAmong fs := by
  obtain ⟨-, -, -, h8⟩ := hinv.config
  obtain ⟨t, ht, happ⟩ := padb_pads h8 hinv.esLen
  exact ht ▸ h.of_err (by rw [CommandResult.state_ended, happ.rest])

theorem parseEntries_faultAmong (k fin : Nat) (h : s.FaultAmong fs) (hmal : .malformedHeader ∈ fs) :
    (parseEntries k fin s).state.FaultAmong fs := by
  induction k generalizing s with
  | zero => exact h
  | succ k ih =>
    rw [parseEntries]
    dsimp only
    split
    · exact h
    split
    · exact .latch hmal _ _
    split
    · exact .latch hmal _ _
    · exact ih (h.of_err rfl)

theorem deshdr_faultAmong (h : s.FaultAmong fs) (hmal : .malformedHeader ∈ fs) : (deshdr s).state.FaultAmong fs := by
  rcases deshdr_cases s with ⟨-, hr⟩ | ⟨-, -, hr⟩ | ⟨-, hr⟩
  · exact hr ▸ .latch hmal _ _
  · exact hr ▸ .latch hmal _ _
  · exact hr ▸ parseEntries_faultAmong _ _ (s := s.atEntries) (h.of_err rfl) hmal

theorem msgAppend_faultAmong (v : Byte) (h : s.FaultAmong fs) (hcap : .capacity ∈ fs) :
    (msgAppend v s).state.FaultAmong fs := by
  rcases msgAppend_cases v s with ⟨-, hr⟩ | ⟨-, hr⟩
  · exact hr ▸ h.of_err rfl
  · exact hr ▸ .latch hcap _ _

theorem scanLoop_faultAmong (k : Nat) (c : Bits) (n : Nat) (h : s.FaultAmong fs) (hunknown : .unknownCode ∈ fs)
    (hcap : .capacity ∈ fs) : (scanLoop k c n s).state.FaultAmong fs := by
  induction k generalizing c n s with
  | zero =>
    rw [scanLoop]
    split
    · exact .latch hunknown _ _
    · exact h
  | succ k ih =>
    have hskip : (s.skip 1).FaultAmong fs := h.of_err rfl
    rw [scanLoop]
    split
    · refine CommandResult.andThen_state (msgAppend_faultAmong _ hskip hcap) fun u hu => ?_
      split
      · exact hu
      · exact ih [] (n + 1) hu
    · exact ih _ n hskip

/-- SERHDR, PACK and PADB after BUILD: every symbol of the message has a code, so NoCode is not raised
(45_macro_system.md R261, point 1). -/
theorem writeStream_faultAmong (h : s.FaultAmong fs) (hcap : .capacity ∈ fs)
    (hcoded : ∀ a ∈ s.message, (s.ctAt a.toNat).valid = true) : (writeStream s).state.FaultAmong fs := by
  have hpack : ((serhdr s).andThen pack).state.FaultAmong fs := by
    rcases serhdr_cases s with ⟨-, v, hv, happ⟩ | ⟨-, hr⟩
    · have hct : v.ct = s.ct := by rw [happ.rest]
      rw [hv, CommandResult.ended_andThen, pack, happ.message]
      refine packFrom_faultAmong 0 (h.of_err (by rw [happ.rest])) hcap (.inr fun a ha => ?_)
      rw [State.ctAt_of_ct hct]
      exact hcoded a ha
    · exact hr ▸ .latch hcap _ _
  refine CommandResult.andThen_state hpack fun v hv => ?_
  split
  · obtain ⟨-, herr⟩ := padLoop_frame 7 v
    exact hv.of_err_or hcap herr
  · exact hv

theorem encodeFlow_faultAmong (h : s.FaultAmong fs) (hempty : .emptyAlphabet ∈ fs) (hlong : .codeTooLong ∈ fs)
    (hcap : .capacity ∈ fs) : (encodeFlow s).state.FaultAmong fs := by
  rw [encodeFlow_eq]
  rcases count_build_cases s with ⟨-, u, hu, -⟩ | ⟨-, -, u, info, hu, -⟩ | ⟨-, u, hu, hbuilt⟩ <;> rw [hu]
  · exact .latch hempty _ _
  · exact .latch hlong _ _
  · refine writeStream_faultAmong (h.of_err (by rw [hbuilt.rest])) hcap ?_
    rw [hbuilt.message]
    exact fun a => (hbuilt.symbols a).mpr

theorem decodeFlow_faultAmong (h : s.FaultAmong fs) (hmal : .malformedHeader ∈ fs) (hunknown : .unknownCode ∈ fs)
    (hcap : .capacity ∈ fs) : (decodeFlow s).state.FaultAmong fs :=
  CommandResult.andThen_state (deshdr_faultAmong (h.of_err rfl) hmal) fun _ hu => scanLoop_faultAmong _ _ _ hu hunknown hcap

end CommandFaults

/-- Settles O55: what each command raises is on its list, and before it the latch is empty. -/
theorem commandsRaiseOnlyTheirFaults : Obligations.CommandsRaiseOnlyTheirFaults := by
  intro i s t f hinv herr hx
  have h : s.FaultAmong (faultsOf i) := .of_none herr
  suffices ht : t.FaultAmong (faultsOf i) from ht f
  cases i with
  | nop => exact h.of_next hx
  | sreset => exact State.FaultAmong.of_next (.of_none rfl) hx
  | clrerr => exact State.FaultAmong.of_next (.of_none (clearLatch_err s)) hx
  | realign => exact (realign_faultAmong h (by decide)).of_next hx
  | count => exact (count_faultAmong h).of_next hx
  | build => exact (build_faultAmong h (by decide) (by decide)).of_next hx
  | serhdr => exact (serhdr_faultAmong h (by decide)).of_next hx
  | pack => exact (packFrom_faultAmong 0 h (by decide) (.inl (by decide))).of_next hx
  | padb => exact (padb_faultAmong h hinv).of_next hx
  | encode => exact (encodeFlow_faultAmong h (by decide) (by decide) (by decide)).of_next hx
  | deshdr => exact (deshdr_faultAmong h (by decide)).of_next hx
  | scan => exact (scanLoop_faultAmong _ _ _ h (by decide) (by decide)).of_next hx
  | decode => exact (decodeFlow_faultAmong h (by decide) (by decide) (by decide)).of_next hx

end Sys2Proof.Machine
end
section
/-! PROOFS. The family 70_reset_and_hazards.md: the two resets, what every command and every step keeps, a command as one line
of a host script, and the commands from the reset state. -/

namespace Sys2Proof.Machine

/-! ## The hardware reset -/

/-- Settles O9: both resets are `resetState`. -/
theorem hardwareResetActsAsSreset : Obligations.HardwareResetActsAsSreset :=
  ⟨fun _ => rfl, fun _ _ hs => step_access hs rfl⟩

/-! ## What every command keeps -/

/-- How each command leaves the state before control returns to the host: it ended, or it raised. -/
def commandResult : Instr → State → CommandResult
  | .nop => .ended
  | .sreset => fun s => .ended (resetState s)
  | .clrerr => fun s => .ended (clearLatch s)
  | .realign => realign
  | .count => count
  | .build => build
  | .serhdr => serhdr
  | .pack => pack
  | .padb => padb
  | .encode => encodeFlow
  | .deshdr => deshdr
  | .scan => scan
  | .decode => decodeFlow

theorem exec_eq_outcome (i : Instr) (s : State) : exec i s = (commandResult i s).outcome := by
  cases i <;> rfl

/-- The parameters, CTRL.PAD and ERR are as before. -/
def Kept (s u : State) : Prop := u.config = s.config ∧ u.pad = s.pad ∧ u.err = s.err

section Kept
variable {s t u : State}

theorem Kept.refl (s : State) : Kept s s := ⟨rfl, rfl, rfl⟩

theorem Kept.trans (h : Kept s t) (k : Kept t u) : Kept s u := by
  obtain ⟨hconfig, hpad, herr⟩ := h
  obtain ⟨kconfig, kpad, kerr⟩ := k
  exact ⟨kconfig.trans hconfig, kpad.trans hpad, kerr.trans herr⟩

theorem TablesSet.kept (h : TablesSet s u) : Kept s u := by
  rw [h]
  exact Kept.refl s

theorem Grown.kept (h : Grown s u) : Kept s u := by
  obtain ⟨b, hb⟩ := h
  rw [hb.rest]
  exact Kept.refl s

theorem Parsed.kept (h : Parsed s u) : Kept s u := by
  rw [h.rest]
  exact Kept.refl s

theorem Scanned.kept (h : Scanned s u) : Kept s u := by
  obtain ⟨⟨m, hm⟩, -⟩ := h
  rw [hm.rest]
  exact Kept.refl s

end Kept

theorem count_leaves_kept (s : State) : (count s).Leaves (Kept s) := by
  have hkept : Kept s (count s).state := by
    rw [count_frame]
    exact Kept.refl s
  exact .ended hkept

theorem msgAppend_leaves_kept (v : Byte) (s : State) : (msgAppend v s).Leaves (Kept s) := by
  rcases msgAppend_cases v s with ⟨-, hr⟩ | ⟨-, hr⟩
  · exact hr ▸ .ended (Kept.refl s)
  · exact hr ▸ .raised (Kept.refl s) _ _

/-- SCAN from any state, where `scanLoop_leaves` asks for a message length in range. -/
theorem scanLoop_leaves_kept (k : Nat) (c : Bits) (n : Nat) (s : State) : (scanLoop k c n s).Leaves (Kept s) := by
  induction k generalizing c n s with
  | zero =>
    rw [scanLoop]
    split
    · exact .raised (Kept.refl s) _ _
    · exact .ended (Kept.refl s)
  | succ k ih =>
    rw [scanLoop]
    split
    · refine (msgAppend_leaves_kept _ (s.skip 1)).andThen (fun _ hu => hu) fun u hu => ?_
      split
      · exact .ended hu
      · exact (ih [] (n + 1) u).mono fun _ => hu.trans
    · exact ih _ n (s.skip 1)

/-- Not one of the two commands that the latch lets pass and that clear it (60_exceptions.md R284). -/
abbrev Gated (i : Instr) : Prop := i ≠ .sreset ∧ i ≠ .clrerr

/-- Up to a fault latched, every command but the two that clear the latch keeps the three fields. -/
theorem Gated.leaves_kept {i : Instr} (h : Gated i) (s : State) : (commandResult i s).Leaves (Kept s) := by
  obtain ⟨hsreset, hclrerr⟩ := h
  cases i with
  | sreset => exact absurd rfl hsreset
  | clrerr => exact absurd rfl hclrerr
  | nop => exact .ended (Kept.refl s)
  | realign =>
    refine (realign_leaves s).mono fun u ⟨hu, _⟩ => ?_
    rw [hu]
    exact Kept.refl s
  | count => exact count_leaves_kept s
  | build =>
    refine (build_leaves s).mono fun u ⟨hu, _⟩ => ?_
    rw [hu]
    exact Kept.refl s
  | serhdr => exact (serhdr_leaves s).mono fun _ => Grown.kept
  | pack => exact (packFrom_leaves s.message 0 s).mono fun _ => Grown.kept
  | padb => exact (padLoop_leaves 7 s).mono fun _ => Grown.kept
  | encode => exact (encodeFlow_leaves s).mono fun _ ⟨_, hv, hu⟩ => hv.kept.trans hu.kept
  | deshdr => exact (deshdr_leaves s).mono fun _ => Parsed.kept
  | scan => exact scanLoop_leaves_kept _ _ _ s
  | decode => exact (decodeFlow_leaves s).mono fun _ ⟨_, hv, hu⟩ => hv.kept.trans hu.kept

theorem commandResult_config (i : Instr) (s : State) : (commandResult i s).state.config = s.config := by
  by_cases hclears : i = .sreset ∨ i = .clrerr
  · rcases hclears with rfl | rfl <;> rfl
  · obtain ⟨u, ⟨hu, -⟩, hr | ⟨f, info, hr⟩⟩ := Gated.leaves_kept (not_or.mp hclears) s <;> exact hr ▸ hu

theorem exec_config (i : Instr) (s : State) : ∃ t, exec i s = .next t ∧ t.config = s.config :=
  ⟨_, exec_eq_outcome i s, commandResult_config i s⟩

/-! ## What every step keeps -/

theorem State.ite_config {p : Prop} [Decidable p] {s t : State} (h : t.config = s.config) :
    (if p then t else s).config = s.config := by
  split
  · exact h
  · rfl

theorem State.writeRegister_config (s : State) (r : BitVec 8) (w : Word) : (s.writeRegister r w).config = s.config := by
  unfold State.writeRegister
  split
  case h_3 | h_4 | h_5 => exact State.ite_config rfl
  all_goals rfl

theorem hostAccess_config (a : HostAccess) (s : State) : (hostAccess a s).config = s.config := by
  cases a with
  | writeReg r w => exact s.writeRegister_config r w
  | writeMsg | writeEsByte | writeFreq | writeCt => exact State.ite_config rfl
  | _ => rfl

theorem issueCommand_config (w : Word) (s : State) : ∃ t, issueCommand w s = .next t ∧ t.config = s.config := by
  unfold issueCommand
  split
  · split
    · exact exec_config _ s
    · exact ⟨_, rfl, rfl⟩
  · exact ⟨s, rfl, rfl⟩

/-- Settles O57: a step is idle, issues a word or makes another access, and each of them keeps the parameters. -/
theorem stepsEndAndKeepTheParameters : Obligations.StepsEndAndKeepTheParameters := by
  refine ⟨fun s => ?_, exec_config⟩
  rcases step_cases s with ⟨-, he⟩ | ⟨w, rest, -, he⟩ | ⟨a, rest, -, -, he⟩
  · exact ⟨s, he, rfl⟩
  · exact he ▸ issueCommand_config w { s with script := rest }
  · exact ⟨_, he, hostAccess_config a { s with script := rest }⟩

/-! ## A command does the same whatever the host does after it -/

/-- The state with other host accesses to come. -/
def State.withScript (s : State) (rest : List HostAccess) : State := { s with script := rest }

/-- `g` neither reads nor changes the script: with other accesses to come it leaves the same state with those to come, ended or
raised alike. -/
def ScriptBlind (g : State → CommandResult) : Prop :=
  ∀ s rest, (g s).Match (fun u v => v = u.withScript rest) (g (s.withScript rest))

section ScriptBlind
variable {g h : State → CommandResult}

theorem ScriptBlind.andThen (hg : ScriptBlind g) (hh : ScriptBlind h) : ScriptBlind fun s => (g s).andThen h :=
  fun s rest => (hg s rest).andThen fun u _ huv => huv ▸ hh u rest

theorem ScriptBlind.state_withScript (hg : ScriptBlind g) (s : State) (rest : List HostAccess) :
    (g (s.withScript rest)).state = (g s).state.withScript rest :=
  (hg s rest).next rfl rfl

theorem State.setEsBits_withScript (s : State) (rest : List HostAccess) (p : Nat) (b : Bits) :
    (s.withScript rest).setEsBits p b = (s.setEsBits p b).withScript rest := by
  induction b generalizing s p with
  | nil => rfl
  | cons x b ih => exact ih (s.setEsBit p x) (p + 1)

theorem esAppend_scriptBlind (b : Bits) : ScriptBlind (esAppend b) := by
  intro s rest
  refine .ite Iff.rfl rfl ?_
  exact congrArg (fun u : State => { u with esLen := BitVec.ofNat 32 (s.esLen.toNat + b.length) })
    (s.setEsBits_withScript rest _ b)

theorem esAppendAll_scriptBlind (bs : List Bits) : ScriptBlind (esAppendAll bs) := by
  induction bs with
  | nil => exact fun _ _ => rfl
  | cons b bs ih => exact (esAppend_scriptBlind b).andThen ih

theorem serhdr_scriptBlind : ScriptBlind serhdr :=
  fun s rest => .ite Iff.rfl rfl (esAppendAll_scriptBlind _ s rest)

theorem packFrom_scriptBlind (m : List Byte) (i : Nat) : ScriptBlind (packFrom i m) := by
  induction m generalizing i with
  | nil => exact fun _ _ => rfl
  | cons a m ih => exact fun s rest => .ite Iff.rfl ((esAppend_scriptBlind _).andThen (ih (i + 1)) s rest) rfl

theorem padLoop_scriptBlind (k : Nat) : ScriptBlind (padLoop k) := by
  induction k with
  | zero => exact fun _ _ => rfl
  | succ k ih => exact fun s rest => .ite Iff.rfl rfl ((esAppend_scriptBlind [false]).andThen ih s rest)

theorem writeChunks_withScript (js : List Nat) (s : State) (rest : List HostAccess) :
    writeChunks js (s.withScript rest) = (writeChunks js s).withScript rest := by
  induction js generalizing s with
  | nil => rfl
  | cons j js ih => exact ih (s.setMsg j (BitVec.ofNat 8 (val (s.chunk j))))

theorem realign_scriptBlind : ScriptBlind realign := by
  intro s rest
  refine .ite Iff.rfl rfl ?_
  exact congrArg (fun u : State => { u with msgLen := BitVec.ofNat 32 s.chunkCount }) (writeChunks_withScript _ s rest)

theorem countSymbols_withScript (syms : List Byte) (s : State) (rest : List HostAccess) :
    countSymbols syms (s.withScript rest) = (countSymbols syms s).withScript rest := by
  induction syms generalizing s with
  | nil => rfl
  | cons a syms ih => exact ih (s.setFreq a.toNat (s.freqAt a.toNat + 1#32))

theorem count_scriptBlind : ScriptBlind count :=
  fun s rest => countSymbols_withScript s.message { s with freq := [] } rest

theorem build_scriptBlind : ScriptBlind build := by
  intro s rest
  refine build_match (s' := s.withScript rest) rfl rfl rfl ?latch ?setCt
  case latch =>
    rintro u _ f info rfl
    rfl
  case setCt =>
    rintro u _ a e rfl
    rfl

theorem parseEntries_scriptBlind (k fin : Nat) : ScriptBlind (parseEntries k fin) := by
  induction k with
  | zero => exact fun _ _ => rfl
  | succ k ih => exact fun s rest => .ite Iff.rfl rfl (.ite Iff.rfl rfl (.ite Iff.rfl rfl (ih _ rest)))

theorem deshdr_scriptBlind : ScriptBlind deshdr :=
  fun _ rest => .ite Iff.rfl rfl (.ite Iff.rfl rfl (parseEntries_scriptBlind _ _ _ rest))

theorem msgAppend_scriptBlind (v : Byte) : ScriptBlind (msgAppend v) :=
  fun _ _ => .ite Iff.rfl rfl rfl

theorem scanLoop_scriptBlind (k : Nat) (c : Bits) (n : Nat) : ScriptBlind (scanLoop k c n) := by
  induction k generalizing c n with
  | zero => exact fun s rest => .ite Iff.rfl rfl rfl
  | succ k ih =>
    have hafter : ScriptBlind fun u =>
        if u.symLim ≠ 0#32 ∧ n + 1 = u.symLim.toNat then .ended u else scanLoop k [] (n + 1) u :=
      fun u rest => .ite Iff.rfl rfl (ih [] (n + 1) u rest)
    exact fun s rest =>
      .ite Iff.rfl ((msgAppend_scriptBlind _).andThen hafter (s.skip 1) rest) (ih _ n (s.skip 1) rest)

theorem pack_scriptBlind : ScriptBlind pack := fun s => packFrom_scriptBlind s.message 0 s

theorem scan_scriptBlind : ScriptBlind scan := fun s => scanLoop_scriptBlind s.avail [] 0 s

theorem encodeFlow_scriptBlind : ScriptBlind encodeFlow := by
  have hpad : ScriptBlind fun t => if t.pad then padb t else .ended t :=
    fun t rest => .ite Iff.rfl (padLoop_scriptBlind 7 t rest) rfl
  exact fun s => ((((count_scriptBlind.andThen build_scriptBlind).andThen serhdr_scriptBlind).andThen
    pack_scriptBlind).andThen hpad) { s with esLen := 0#32 }

theorem decodeFlow_scriptBlind : ScriptBlind decodeFlow :=
  fun s => deshdr_scriptBlind.andThen scan_scriptBlind { s with rdPtr := 0#32, msgLen := 0#32 }

end ScriptBlind

theorem commandResult_scriptBlind (i : Instr) : ScriptBlind (commandResult i) := by
  cases i with
  | nop | sreset | clrerr => exact fun _ _ => rfl
  | realign => exact realign_scriptBlind
  | count => exact count_scriptBlind
  | build => exact build_scriptBlind
  | serhdr => exact serhdr_scriptBlind
  | pack => exact pack_scriptBlind
  | padb => exact padLoop_scriptBlind 7
  | encode => exact encodeFlow_scriptBlind
  | deshdr => exact deshdr_scriptBlind
  | scan => exact scan_scriptBlind
  | decode => exact decodeFlow_scriptBlind

/-! ## A script of commands -/

/-- The latch holds a fault exactly if the result is a raise. -/
def CommandResult.Latched : CommandResult → Prop
  | .ended s => s.err = none
  | .raised s => s.err ≠ none

/-- The commands `is` as one pseudocode: a raise in one of them ends it there (00_scope.md R12). -/
def CommandResult.thenAll (r : CommandResult) (is : List Instr) : CommandResult :=
  is.foldl (fun r i => r.andThen (commandResult i)) r

theorem CommandResult.Latched.andThen {r : CommandResult} (h : r.Latched) {i : Instr} (hi : Gated i) :
    (r.andThen (commandResult i)).Latched := by
  cases r with
  | raised s => exact h
  | ended s =>
    rw [CommandResult.ended_andThen]
    obtain ⟨u, ⟨-, -, hu⟩, hr | ⟨f, info, hr⟩⟩ := hi.leaves_kept s <;> rw [hr]
    · exact hu.trans h
    · exact nofun

theorem encode_injective : Function.Injective encode := fun i j h =>
  Except.ok.inj ((decode_encode i).symm.trans ((congrArg decode h).trans (decode_encode j)))

/-- A line of a script does what the pseudocode does: its command runs, or after a raise the latch ignores it
(60_exceptions.md R284). -/
theorem step_line {i : Instr} (hi : Gated i) {r : CommandResult} (h : r.Latched) (rest : List HostAccess) :
    step (r.state.withScript (Script.command i :: rest)) = .next ((r.andThen (commandResult i)).state.withScript rest) := by
  cases r with
  | ended s =>
    refine (step_encode s i rest (.inl h)).trans ((exec_eq_outcome i _).trans ?_)
    exact congrArg Host.Outcome.next ((commandResult_scriptBlind i).state_withScript s rest)
  | raised s =>
    obtain ⟨hsreset, hclrerr⟩ := hi
    exact State.access_ignored h (encode_injective.ne hsreset) (encode_injective.ne hclrerr) rest

/-- The lines of a script run one after the other up to the first raise. -/
theorem run_lines {is : List Instr} (his : ∀ i ∈ is, Gated i) {r : CommandResult} (h : r.Latched) (rest : List HostAccess) :
    run is.length (r.state.withScript (is.map Script.command ++ rest)) = .next ((r.thenAll is).state.withScript rest) := by
  induction is generalizing r with
  | nil => rfl
  | cons i is ih =>
    obtain ⟨hi, his⟩ := List.forall_mem_cons.mp his
    rw [List.length_cons, run, List.map_cons, List.cons_append, step_line hi h]
    exact ih his (h.andThen hi)

/-- An access that starts no command, and then the rest of the script. -/
theorem run_access {a : HostAccess} (ha : a.commandWord = none) {s t : State} (ht : hostAccess a s = t) (n : Nat)
    (rest : List HostAccess) : run (n + 1) (s.withScript (a :: rest)) = run n (t.withScript rest) := by
  rw [run, State.withScript, State.access_eq ha ht rest]
  rfl

/-! ## ENCODE and DECODE as scripts -/

theorem hostAccess_clear_esLen (s : State) : hostAccess (.writeReg Script.regEsLen 0#32) s = { s with esLen := 0#32 } :=
  afterAccesses_esLen (Nat.zero_le s.config.esMax.toNat)

theorem hostAccess_clear_rdPtr (s : State) : hostAccess (.writeReg Script.regRdPtr 0#32) s = { s with rdPtr := 0#32 } :=
  if_pos (e := s) (Nat.zero_le s.config.esMax.toNat)

theorem hostAccess_clear_msgLen (s : State) : hostAccess (.writeReg Script.regMsgLen 0#32) s = { s with msgLen := 0#32 } :=
  afterAccesses_msgLen (Nat.zero_le s.config.msgMax.toNat)

/-- The lines of ENCODE that are commands (45_macro_system.md R260). -/
def encodeLines (pad : Bool) : List Instr := [.count, .build, .serhdr, .pack] ++ if pad then [.padb] else []

theorem encodeLines_gated (pad : Bool) : ∀ i ∈ encodeLines pad, Gated i := by
  cases pad <;> decide

theorem encodeScript_eq (pad : Bool) :
    encodeScript pad = .writeReg Script.regEsLen 0#32 :: (encodeLines pad).map Script.command := by
  cases pad <;> rfl

theorem CommandResult.Leaves.thenAll {s : State} {r : CommandResult} (h : r.Leaves (Kept s)) {is : List Instr}
    (his : ∀ i ∈ is, Gated i) : (r.thenAll is).Leaves (Kept s) := by
  induction is generalizing r with
  | nil => exact h
  | cons i is ih =>
    obtain ⟨hi, his⟩ := List.forall_mem_cons.mp his
    exact ih (h.andThen (fun _ hu => hu) fun u hu => (hi.leaves_kept u).mono fun _ => hu.trans) his

/-- ENCODE tests CTRL.PAD when the lines before PADB have run, and they have not changed it. -/
theorem padLine_eq {s : State} {r : CommandResult} (h : r.Leaves (Kept s)) :
    (r.andThen fun t => if t.pad then padb t else .ended t) = r.thenAll (if s.pad then [.padb] else []) := by
  obtain ⟨u, ⟨-, hpad, -⟩, rfl | ⟨f, info, rfl⟩⟩ := h
  · rw [CommandResult.ended_andThen, hpad]
    cases s.pad <;> rfl
  · cases s.pad <;> rfl

theorem encodeFlow_eq_lines (s : State) :
    encodeFlow s = (CommandResult.ended { s with esLen := 0#32 }).thenAll (encodeLines s.pad) := by
  have hstart : (CommandResult.ended { s with esLen := 0#32 }).Leaves (Kept s) := .ended (Kept.refl s)
  have hlines := hstart.thenAll (is := [.count, .build, .serhdr, .pack]) (by decide)
  rw [encodeLines, CommandResult.thenAll, List.foldl_append]
  exact padLine_eq hlines

/-- Settles O44: the first lines write a register in range, the others are commands, and no command looks at the script. -/
theorem macrosAreTheirScripts : Obligations.MacrosAreTheirScripts := by
  refine fun s herr => ⟨?encode, ?decode⟩
  case encode =>
    have hrun := run_lines (encodeLines_gated s.pad) (r := .ended { s with esLen := 0#32 }) herr s.script
    rw [← encodeFlow_eq_lines, ← encodeFlow_scriptBlind.state_withScript] at hrun
    rw [encodeScript_eq, List.length_cons, List.length_map]
    exact (run_access rfl (hostAccess_clear_esLen s) _ _).trans hrun
  case decode =>
    have hrun := run_lines (is := [.deshdr, .scan]) (by decide) (r := .ended { s with rdPtr := 0#32, msgLen := 0#32 }) herr
      s.script
    have hflow := (decodeFlow_scriptBlind.state_withScript s s.script).symm
    exact (run_access rfl (hostAccess_clear_rdPtr s) 3 _).trans
      ((run_access rfl (hostAccess_clear_msgLen _) 2 _).trans (hrun.trans (congrArg Host.Outcome.next hflow)))

/-! ## The reset state -/

section Reset
variable (c : Config)

theorem weights_resetFor : (State.resetFor c).weights = [] :=
  List.eq_nil_iff_forall_not_mem.mpr fun p hp => by
    obtain ⟨-, hne⟩ := State.exists_mem_weights.mp ⟨p.2, hp⟩
    exact hne rfl

theorem canonicalOrder_resetFor : (State.resetFor c).canonicalOrder = [] :=
  List.eq_nil_iff_forall_not_mem.mpr fun a ha => by
    obtain ⟨-, hvalid⟩ := State.mem_canonicalOrder.mp ha
    cases hvalid

theorem hlen_resetFor : (State.resetFor c).hlen = 0 := by
  rw [State.hlen, canonicalOrder_resetFor]
  rfl

theorem header_resetFor : (State.resetFor c).header = List.replicate 16 false := by
  rw [State.header, hlen_resetFor, canonicalOrder_resetFor]
  rfl

theorem build_resetFor : build (State.resetFor c) = .raised ((State.resetFor c).latch .emptyAlphabet 0#32) := by
  rcases build_cases (State.resetFor c) with ⟨-, hr⟩ | ⟨hne, -⟩ | ⟨hne, -⟩
  · exact hr
  · exact absurd (weights_resetFor c) hne
  · exact absurd (weights_resetFor c) hne

theorem encodeFlow_resetFor : encodeFlow (State.resetFor c) = .raised ((State.resetFor c).latch .emptyAlphabet 0#32) := by
  have hcount : count { State.resetFor c with esLen := 0#32 } = .ended (State.resetFor c) := rfl
  rw [encodeFlow, hcount, CommandResult.ended_andThen, build_resetFor]
  rfl

theorem serhdr_resetFor (h : 16 ≤ c.esMax.toNat) :
    ∃ t, serhdr (State.resetFor c) = .ended t ∧ Appended (List.replicate 16 false) (State.resetFor c) t := by
  rcases serhdr_cases (State.resetFor c) with ⟨-, t, ht, happ⟩ | ⟨hover, -⟩
  · exact ⟨t, ht, header_resetFor c ▸ happ⟩
  · rw [hlen_resetFor] at hover
    exact absurd hover (Nat.not_lt.mpr h)

theorem realign_resetFor : realign (State.resetFor c) = .ended (State.resetFor c) := by
  have hn : (State.resetFor c).chunkCount = 0 := Nat.div_eq_of_lt (show 0 + 6 < realignW by decide)
  rw [realign, hn]
  exact if_neg (Nat.not_lt_zero _)

theorem deshdr_resetFor : deshdr (State.resetFor c) = .raised ((State.resetFor c).latch .malformedHeader 0#32) := rfl

theorem decodeFlow_resetFor : decodeFlow (State.resetFor c) = .raised ((State.resetFor c).latch .malformedHeader 0#32) :=
  congrArg (CommandResult.andThen · scan) (deshdr_resetFor c)

end Reset

/-- Settles O60: message, stream and tables are empty, so the loops make no pass, BUILD finds no symbol and DESHDR no
length field. -/
theorem everyCommandIsDefinedFromReset : Obligations.EveryCommandIsDefinedFromReset := by
  intro c hc
  obtain ⟨-, hesMax, -, -⟩ := hc
  obtain ⟨t, ht, happ⟩ := serhdr_resetFor c hesMax
  refine ⟨rfl, rfl, rfl, rfl, ?build, ?encode, ⟨t, ?serhdr, happ⟩, rfl, rfl, ?realign, ?deshdr, ?decode, ?scan⟩
  case build => exact congrArg CommandResult.outcome (build_resetFor c)
  case encode => exact congrArg CommandResult.outcome (encodeFlow_resetFor c)
  case serhdr => exact congrArg CommandResult.outcome ht
  case realign => exact congrArg CommandResult.outcome (realign_resetFor c)
  case deshdr => exact congrArg CommandResult.outcome (deshdr_resetFor c)
  case decode => exact congrArg CommandResult.outcome (decodeFlow_resetFor c)
  case scan => exact congrArg CommandResult.outcome (scan_empty (s := State.resetFor c) (Nat.le_refl 0))

end Sys2Proof.Machine
end
